-- ==== Sys2Proof/Word.lean ====
section
/-! DEFINITION. The word and byte types, and the plainest facts of numbers and byte strings
(00_scope R11, R12). -/

namespace Sys2Proof

/-- A 32-bit command word or CSR word (30_encoding R70, 10_state R30). -/
abbrev Word := BitVec 32

/-- One byte of DMEM, of MSG or of a hash input (20_memory R50). -/
abbrev Byte := BitVec 8

end Sys2Proof
end

