-- ==== Sys2Proof/Syntax.lean ====
section
/-! DEFINITION. The 35 commands of `CORE-CMD v1` (30_encoding R77), one constructor per row of the
opcode table. Operand order is that of the "operands" column. -/

namespace Sys2Proof

/-- A field register index, the full 4-bit field (30_encoding R76). -/
abbrev FReg := BitVec 4
/-- A scalar register index: 3 bits, so index 8 to 15 does not exist (30_encoding R76). -/
abbrev SReg := BitVec 3
/-- A point register index: 3 bits, so index 8 to 15 does not exist (30_encoding R76). -/
abbrev PReg := BitVec 3
/-- An absolute DMEM byte address (30_encoding R73, R75). -/
abbrev Addr := BitVec 16

inductive Instr where
  /-- NOP (45_system R200). -/
  | nop
  /-- CLR (45_system R201). -/
  | clr
  /-- FADD `fd, fs1, fs2` (40_field R104). -/
  | fadd (fd fs1 fs2 : FReg)
  /-- FSUB `fd, fs1, fs2` (40_field R105). -/
  | fsub (fd fs1 fs2 : FReg)
  /-- FMUL `fd, fs1, fs2` (40_field R106). -/
  | fmul (fd fs1 fs2 : FReg)
  /-- FSQR `fd, fs1` (40_field R107). -/
  | fsqr (fd fs1 : FReg)
  /-- FINV `fd, fs1` (40_field R108). -/
  | finv (fd fs1 : FReg)
  /-- FMOV `fd, fs1` (40_field R109). -/
  | fmov (fd fs1 : FReg)
  /-- FLI `fd, imm16` (40_field R110). -/
  | fli (fd : FReg) (imm16 : BitVec 16)
  /-- FLD `fd, addr` (40_field R111). -/
  | fld (fd : FReg) (addr : Addr)
  /-- FST `fs, addr` (40_field R112). -/
  | fst (fs : FReg) (addr : Addr)
  /-- SADD `sd, ss1, ss2` (41_scalar R122). -/
  | sadd (sd ss1 ss2 : SReg)
  /-- SMUL `sd, ss1, ss2` (41_scalar R123). -/
  | smul (sd ss1 ss2 : SReg)
  /-- SMOV `sd, ss1` (41_scalar R124). -/
  | smov (sd ss1 : SReg)
  /-- SLD `sd, addr` (41_scalar R125). -/
  | sld (sd : SReg) (addr : Addr)
  /-- SST `ss, addr` (41_scalar R126). -/
  | sst (ss : SReg) (addr : Addr)
  /-- SRED `sd, addr` (41_scalar R127). -/
  | sred (sd : SReg) (addr : Addr)
  /-- SCLAMP `sd, ss1` (41_scalar R128). -/
  | sclamp (sd ss1 : SReg)
  /-- SCHK `ss1` (41_scalar R129). -/
  | schk (ss1 : SReg)
  /-- PADD `pd, ps1, ps2` (42_point R153). -/
  | padd (pd ps1 ps2 : PReg)
  /-- PDBL `pd, ps1` (42_point R154). -/
  | pdbl (pd ps1 : PReg)
  /-- PSMUL `pd, ps1, sk` (42_point R155). -/
  | psmul (pd ps1 : PReg) (sk : SReg)
  /-- PSMULB `pd, sk` (42_point R156). -/
  | psmulb (pd : PReg) (sk : SReg)
  /-- PMOV `pd, ps1` (42_point R157). -/
  | pmov (pd ps1 : PReg)
  /-- PLDB `pd` (42_point R158). -/
  | pldb (pd : PReg)
  /-- PDEC `pd, addr` (42_point R159). -/
  | pdec (pd : PReg) (addr : Addr)
  /-- PENC `ps, addr` (42_point R160). -/
  | penc (ps : PReg) (addr : Addr)
  /-- HINIT (43_hash_port R171). -/
  | hinit
  /-- HUPD `addr` (43_hash_port R172). -/
  | hupd (addr : Addr)
  /-- HUPDM (43_hash_port R173). -/
  | hupdm
  /-- HFIN `addr` (43_hash_port R174). -/
  | hfin (addr : Addr)
  /-- KEYEXP `sd, addr` (44_pipeline R184). -/
  | keyexp (sd : SReg) (addr : Addr)
  /-- DERIVE (44_pipeline R185). -/
  | derive
  /-- SIGN (44_pipeline R186). -/
  | sign
  /-- VERIFY (44_pipeline R187). -/
  | verify
  deriving DecidableEq, Repr

/-- One action of the host agent (00_scope R6, 70_reset_and_hazards R243). Every command is a
`csrWrite` to `CMD` (10_state R31). CSR offsets are byte offsets from the block's base
(10_state R30). -/
inductive HostAction where
  /-- CSR read at a byte offset (45_system R202). -/
  | csrRead (off : Nat)
  /-- CSR write at a byte offset (45_system R203). -/
  | csrWrite (off : Nat) (v : Word)
  /-- read of one DMEM byte (20_memory R56). -/
  | dmemRead (addr : Nat)
  /-- write of one DMEM byte (20_memory R56). -/
  | dmemWrite (addr : Nat) (b : Byte)
  /-- read of one MSG byte (20_memory R56). -/
  | msgRead (addr : BitVec 32)
  /-- write of one MSG byte (20_memory R56). -/
  | msgWrite (addr : BitVec 32) (b : Byte)
  /-- the external reset, between commands (70_reset_and_hazards R240, R241). -/
  | reset
  deriving DecidableEq, Repr

end Sys2Proof
end

