-- ==== Sys2Proof/Decode.lean ====
section
/-! DEFINITION. The command encoding (30_encoding R70 to R80): the opcode map as a table of mask and
match, `decode` (total on any word, `none` for an illegal one), and the encoder. -/

namespace Sys2Proof

/-! ### Fields of a command word (R72 to R76) -/

/-- `rd` or `r` as a field register index, bits 23:20. -/
def fieldRdF (w : Word) : FReg := w.extractLsb' 20 4
/-- `rs1` as a field register index, bits 19:16. -/
def fieldRs1F (w : Word) : FReg := w.extractLsb' 16 4
/-- `rs2` as a field register index, bits 15:12. -/
def fieldRs2F (w : Word) : FReg := w.extractLsb' 12 4
/-- `rd` or `r` as a scalar or point register index, bits 22:20 (bit 23 is reserved zero). -/
def fieldRd (w : Word) : BitVec 3 := w.extractLsb' 20 3
/-- `rs1` as a scalar or point register index, bits 18:16 (bit 19 is reserved zero). -/
def fieldRs1 (w : Word) : BitVec 3 := w.extractLsb' 16 3
/-- `rs2` as a scalar or point register index, bits 14:12 (bit 15 is reserved zero). -/
def fieldRs2 (w : Word) : BitVec 3 := w.extractLsb' 12 3
/-- `addr` or `imm16`, bits 15:0. -/
def fieldImm (w : Word) : BitVec 16 := w.extractLsb' 0 16

/-! ### The opcode map (R77) -/

/-- One row of the opcode map: a word `w` is the row's command when `w AND mask = pattern`. -/
structure OpcodeRow where
  mnemonic : String
  pattern : Word
  mask : Word
  build : Word → Instr

/-- The system rows of R77. -/
def systemRows : List OpcodeRow :=
  [⟨"NOP",    0x00000000, 0xFFFFFFFF, fun _ => .nop⟩,
   ⟨"CLR",    0x01000000, 0xFFFFFFFF, fun _ => .clr⟩]

/-- The field rows of R77. -/
def fieldRows : List OpcodeRow :=
  [⟨"FADD",   0x10000000, 0xFF000FFF, fun w => .fadd (fieldRdF w) (fieldRs1F w) (fieldRs2F w)⟩,
   ⟨"FSUB",   0x11000000, 0xFF000FFF, fun w => .fsub (fieldRdF w) (fieldRs1F w) (fieldRs2F w)⟩,
   ⟨"FMUL",   0x12000000, 0xFF000FFF, fun w => .fmul (fieldRdF w) (fieldRs1F w) (fieldRs2F w)⟩,
   ⟨"FSQR",   0x13000000, 0xFF00FFFF, fun w => .fsqr (fieldRdF w) (fieldRs1F w)⟩,
   ⟨"FINV",   0x14000000, 0xFF00FFFF, fun w => .finv (fieldRdF w) (fieldRs1F w)⟩,
   ⟨"FMOV",   0x15000000, 0xFF00FFFF, fun w => .fmov (fieldRdF w) (fieldRs1F w)⟩,
   ⟨"FLI",    0x16000000, 0xFF0F0000, fun w => .fli (fieldRdF w) (fieldImm w)⟩,
   ⟨"FLD",    0x17000000, 0xFF0F0000, fun w => .fld (fieldRdF w) (fieldImm w)⟩,
   ⟨"FST",    0x18000000, 0xFF0F0000, fun w => .fst (fieldRdF w) (fieldImm w)⟩]

/-- The scalar rows of R77. -/
def scalarRows : List OpcodeRow :=
  [⟨"SADD",   0x20000000, 0xFF888FFF, fun w => .sadd (fieldRd w) (fieldRs1 w) (fieldRs2 w)⟩,
   ⟨"SMUL",   0x21000000, 0xFF888FFF, fun w => .smul (fieldRd w) (fieldRs1 w) (fieldRs2 w)⟩,
   ⟨"SMOV",   0x22000000, 0xFF88FFFF, fun w => .smov (fieldRd w) (fieldRs1 w)⟩,
   ⟨"SLD",    0x23000000, 0xFF8F0000, fun w => .sld (fieldRd w) (fieldImm w)⟩,
   ⟨"SST",    0x24000000, 0xFF8F0000, fun w => .sst (fieldRd w) (fieldImm w)⟩,
   ⟨"SRED",   0x25000000, 0xFF8F0000, fun w => .sred (fieldRd w) (fieldImm w)⟩,
   ⟨"SCLAMP", 0x26000000, 0xFF88FFFF, fun w => .sclamp (fieldRd w) (fieldRs1 w)⟩,
   ⟨"SCHK",   0x27000000, 0xFFF8FFFF, fun w => .schk (fieldRs1 w)⟩]

/-- The point rows of R77. -/
def pointRows : List OpcodeRow :=
  [⟨"PADD",   0x30000000, 0xFF888FFF, fun w => .padd (fieldRd w) (fieldRs1 w) (fieldRs2 w)⟩,
   ⟨"PDBL",   0x31000000, 0xFF88FFFF, fun w => .pdbl (fieldRd w) (fieldRs1 w)⟩,
   ⟨"PSMUL",  0x32000000, 0xFF888FFF, fun w => .psmul (fieldRd w) (fieldRs1 w) (fieldRs2 w)⟩,
   ⟨"PSMULB", 0x33000000, 0xFF8F8FFF, fun w => .psmulb (fieldRd w) (fieldRs2 w)⟩,
   ⟨"PMOV",   0x34000000, 0xFF88FFFF, fun w => .pmov (fieldRd w) (fieldRs1 w)⟩,
   ⟨"PLDB",   0x35000000, 0xFF8FFFFF, fun w => .pldb (fieldRd w)⟩,
   ⟨"PDEC",   0x36000000, 0xFF8F0000, fun w => .pdec (fieldRd w) (fieldImm w)⟩,
   ⟨"PENC",   0x37000000, 0xFF8F0000, fun w => .penc (fieldRd w) (fieldImm w)⟩]

/-- The hash-port and pipeline rows of R77. -/
def schemeRows : List OpcodeRow :=
  [⟨"HINIT",  0x40000000, 0xFFFFFFFF, fun _ => .hinit⟩,
   ⟨"HUPD",   0x41000000, 0xFFFF0000, fun w => .hupd (fieldImm w)⟩,
   ⟨"HUPDM",  0x42000000, 0xFFFFFFFF, fun _ => .hupdm⟩,
   ⟨"HFIN",   0x43000000, 0xFFFF0000, fun w => .hfin (fieldImm w)⟩,
   ⟨"KEYEXP", 0x50000000, 0xFF8F0000, fun w => .keyexp (fieldRd w) (fieldImm w)⟩,
   ⟨"DERIVE", 0x51000000, 0xFFFFFFFF, fun _ => .derive⟩,
   ⟨"SIGN",   0x52000000, 0xFFFFFFFF, fun _ => .sign⟩,
   ⟨"VERIFY", 0x53000000, 0xFFFFFFFF, fun _ => .verify⟩]

/-- The 35 rows of R77. -/
def opcodeMap : List OpcodeRow :=
  systemRows ++ fieldRows ++ scalarRows ++ pointRows ++ schemeRows

/-- `(w AND mask) = match` (R77). -/
def OpcodeRow.matchesWord (r : OpcodeRow) (w : Word) : Bool := w &&& r.mask == r.pattern

/-- The command a word stands for, `none` for an illegal word (R78, R79). Reserved bits are never
ignored. -/
def decode (w : Word) : Option Instr :=
  (opcodeMap.find? (·.matchesWord w)).map (·.build w)

/-- The decoder on a word given as a number with bit 0 the least significant bit; a command word is
carried whole and has no byte order (20_memory R51). -/
def decodeTableWord (nbits w : Nat) : Option Instr := decode (BitVec.ofNat 32 (w % 2 ^ nbits))

/-! ### The encoder (R71 to R74) -/

/-- Format N. -/
def encN (op : BitVec 8) : Word := op ++ 0#24
/-- Format R, with each register field as its 4 bits. -/
def encR (op : BitVec 8) (rd rs1 rs2 : BitVec 4) : Word := op ++ rd ++ rs1 ++ rs2 ++ 0#12
/-- Format M, and format I, which has the same layout. -/
def encM (op : BitVec 8) (r : BitVec 4) (imm : BitVec 16) : Word := op ++ r ++ 0#4 ++ imm
/-- A scalar or point register index as a 4-bit field, its high bit zero (R76). -/
def reg4 (r : BitVec 3) : BitVec 4 := 0#1 ++ r

/-- The one command word of an instruction. -/
def encode : Instr → Word
  | .nop => encN 0x00
  | .clr => encN 0x01
  | .fadd fd fs1 fs2 => encR 0x10 fd fs1 fs2
  | .fsub fd fs1 fs2 => encR 0x11 fd fs1 fs2
  | .fmul fd fs1 fs2 => encR 0x12 fd fs1 fs2
  | .fsqr fd fs1 => encR 0x13 fd fs1 0
  | .finv fd fs1 => encR 0x14 fd fs1 0
  | .fmov fd fs1 => encR 0x15 fd fs1 0
  | .fli fd imm16 => encM 0x16 fd imm16
  | .fld fd addr => encM 0x17 fd addr
  | .fst fs addr => encM 0x18 fs addr
  | .sadd sd ss1 ss2 => encR 0x20 (reg4 sd) (reg4 ss1) (reg4 ss2)
  | .smul sd ss1 ss2 => encR 0x21 (reg4 sd) (reg4 ss1) (reg4 ss2)
  | .smov sd ss1 => encR 0x22 (reg4 sd) (reg4 ss1) 0
  | .sld sd addr => encM 0x23 (reg4 sd) addr
  | .sst ss addr => encM 0x24 (reg4 ss) addr
  | .sred sd addr => encM 0x25 (reg4 sd) addr
  | .sclamp sd ss1 => encR 0x26 (reg4 sd) (reg4 ss1) 0
  | .schk ss1 => encR 0x27 0 (reg4 ss1) 0
  | .padd pd ps1 ps2 => encR 0x30 (reg4 pd) (reg4 ps1) (reg4 ps2)
  | .pdbl pd ps1 => encR 0x31 (reg4 pd) (reg4 ps1) 0
  | .psmul pd ps1 sk => encR 0x32 (reg4 pd) (reg4 ps1) (reg4 sk)
  | .psmulb pd sk => encR 0x33 (reg4 pd) 0 (reg4 sk)
  | .pmov pd ps1 => encR 0x34 (reg4 pd) (reg4 ps1) 0
  | .pldb pd => encR 0x35 (reg4 pd) 0 0
  | .pdec pd addr => encM 0x36 (reg4 pd) addr
  | .penc ps addr => encM 0x37 (reg4 ps) addr
  | .hinit => encN 0x40
  | .hupd addr => encM 0x41 0 addr
  | .hupdm => encN 0x42
  | .hfin addr => encM 0x43 0 addr
  | .keyexp sd addr => encM 0x50 (reg4 sd) addr
  | .derive => encN 0x51
  | .sign => encN 0x52
  | .verify => encN 0x53

end Sys2Proof
end

