-- ==== Sys2Proof/Config.lean ====
section
/-! DEFINITION. What is fixed for the machine and not state (10_state R35): the field prime, the
sizing parameters of 00_scope R8 and the open parameters of 92_eei_decisions section 5, and the
free values (constants with no body) that stand for what the spec leaves unspecified. -/

namespace Sys2Proof

/-- The field prime `P = 2^255 - 19` (00_scope R7, 40_field R100). -/
def P : Nat := 0x7fffffffffffffffffffffffffffffffffffffffffffffffffffffffffffffed

/-- A field element: the canonical representative `0 .. P-1` (10_state R21). -/
abbrev Fe := Fin P

/-- The open parameters of 92_eei_decisions section 5 that are plain data. They are held in the
state so that a statement about every state covers every value of them (log entry 1); no step
changes them. -/
structure Params where
  /-- `DMEM_SIZE`, bytes of data memory (00_scope R8). -/
  dmemSize : Nat
  /-- `X0_SIGN1_REJECT` (42_point R152). -/
  x0Sign1Reject : Bool
  deriving DecidableEq, Repr

/-- The defaults of 92_eei_decisions section 5. -/
def Params.default : Params := { dmemSize := 4096, x0Sign1Reject := false }

/-- The hash function, a parameter of the model: total, deterministic, 64 bytes out, of which the
CORE assumes nothing else (00_scope R9, 43_hash_port R170). It has no body: what holds of the model
holds for every `hash512` (log entry 2). -/
opaque Config.hash512 : List Byte → Vector Byte 64

/-- The byte DMEM holds at an address that neither agent has written since reset number `epoch`:
unspecified, any value (10_state R37, 93 U1). A free value (log entry 3). -/
opaque Config.dmemFree (epoch addr : Nat) : Byte

/-- The byte MSG holds at an address that the host has not written since reset number `epoch`:
unspecified, any value (10_state R37, 93 U1). A free value (log entry 3). -/
opaque Config.msgFree (epoch addr : Nat) : Byte

end Sys2Proof
end

