-- ==== Sys2Proof/Machine/State.lean ====
section
/-! DEFINITION. The state of the CORE (10_state R20: the complete tuple), the host agent's own data,
and the state after reset (10_state R37, 70_reset_and_hazards R241). -/

namespace Sys2Proof.Machine

/-- What a field or scalar register holds: the tag EMPTY, or the tag VALID and a value
(10_state R21, R22). -/
inductive Tagged (α : Type) where
  | empty
  | valid (v : α)
  deriving DecidableEq, Repr

/-- An affine point `(x, y)`; the quadruple that represents it in hardware is not architectural
(10_state R23). -/
structure Point where
  x : Fe
  y : Fe
  deriving DecidableEq, Repr

/-- What a point register holds: the tag EMPTY, the tag INVALID, or the tag VALID and a point
(10_state R23). -/
inductive PointCell where
  | empty
  | invalid
  | valid (v : Point)
  deriving DecidableEq, Repr

/-- The CORE's own faults and their absence: the five values `CAUSE` takes (60_exceptions R211,
93 U13). -/
inductive Cause where
  /-- code 0: `STATUS.ERR = 0` -/
  | none
  /-- code 1: the word matches no row of the opcode map (R212) -/
  | illegalCommand
  /-- code 2: a source register has tag EMPTY (R213) -/
  | emptyRegister
  /-- code 3: a source point register has tag INVALID (R214) -/
  | invalidPointOperand
  /-- code 4: a DMEM range of the command leaves `[0, DMEM_SIZE)` (R215) -/
  | addressRange
  deriving DecidableEq, Repr

/-- `FLAGS` (10_state R25). -/
structure Flags where
  /-- bit 0, written by VERIFY -/
  v : Bool
  /-- bit 1, written by PDEC -/
  pv : Bool
  /-- bit 2, written by SCHK -/
  sc : Bool
  deriving DecidableEq, Repr

/-- The bytes of DMEM or MSG that an agent has written since reset: (address, byte) pairs with
addresses strictly rising (`Memory.wf`). An unlisted address holds an unspecified byte, a free value
(log entry 3). -/
abbrev Memory := List Host.Cell

/-- The state. The fields down to `pc` are the spec's (10_state R20, R24); the rest are the model's
own: the parameters and the host agent. -/
structure State where
  /-- field registers `f0 .. f15` (R21) -/
  f : Vector (Tagged Fe) 16
  /-- scalar registers `s0 .. s7` (R22) -/
  s : Vector (Tagged (BitVec 256)) 8
  /-- point registers `p0 .. p7` (R23) -/
  p : Vector PointCell 8
  /-- `FLAGS` (R25) -/
  flags : Flags
  /-- `STATUS.ERR` (R26) -/
  err : Bool
  /-- `CAUSE` (R26) -/
  cause : Cause
  /-- `ERRCMD` (R26) -/
  errcmd : Word
  /-- `MLEN` (R27) -/
  mlen : BitVec 32
  /-- `SKPTR` (R28) -/
  skptr : Addr
  /-- `PKPTR` (R28) -/
  pkptr : Addr
  /-- `SGPTR` (R28) -/
  sgptr : Addr
  /-- `HBUF` (R29) -/
  hbuf : List Byte
  /-- `DMEM` (R33) -/
  dmem : Memory
  /-- `MSG` (R34) -/
  msg : Memory
  /-- index of the next command word of the command stream, owned by the host (R24) -/
  pc : Nat
  /-- `DMEM_SIZE` and `X0_SIGN1_REJECT` (R35, log entry 1); no step changes it -/
  params : Params
  /-- the host's actions still to come, the next one first (70 R243, log entry 4) -/
  todo : List HostAction
  /-- what the host's reads have returned, oldest first (log entry 7) -/
  reads : List Word
  /-- how many resets came before; indexes the unspecified memory contents (log entry 6) -/
  epoch : Nat
  deriving DecidableEq, Repr

/-- Why the machine could stop with a fault. It has no constructor: no behaviour of the CORE is
stuck, every command completes or takes a fault of `Cause`, which is a next state
(93_implementation_defined section 1, 60_exceptions R216, R223). -/
inductive Fault where
  deriving DecidableEq, Repr

/-- Why a step has no meaning in the model. -/
inductive Refusal where
  /-- Raised by an arm of `exec` whose instruction has no meaning yet; no arm raises it. Safe. -/
  | notModelled (mnemonic : String)
  /-- Raised by a host access to a DMEM byte at or above `DMEM_SIZE`: outside the CORE, the platform
  decides what it does (20_memory R56); the spec tells a model to refuse it (93 U15). Safe. -/
  | hostAccessOutsideDmem
  deriving DecidableEq, Repr

/-- The machine right after reset (10_state R37), with the parameters at their defaults and a host
that has no action to perform yet. -/
def State.reset : State where
  f := Vector.replicate 16 .empty
  s := Vector.replicate 8 .empty
  p := Vector.replicate 8 .empty
  flags := { v := false, pv := false, sc := false }
  err := false
  cause := .none
  errcmd := 0
  mlen := 0
  skptr := 0x0000
  pkptr := 0x0020
  sgptr := 0x0040
  hbuf := []
  dmem := []
  msg := []
  pc := 0
  params := Params.default
  todo := []
  reads := []
  epoch := 0

end Sys2Proof.Machine
end

