-- ==== Sys2Proof/Machine/Ops.lean ====
section
/-! DEFINITION. The named operations over memories, registers and the fault record, fault entry, the
error state, and the clears. -/

namespace Sys2Proof.Machine

/-- What performing one command, or one host action, answers. -/
abbrev Result := Host.Outcome State Fault Refusal

/-! ### Byte strings and integers (00_scope R12) -/

/-- `LE(b)`: the integer whose little-endian encoding is `b`. -/
def leNat : List Byte → Nat
  | [] => 0
  | b :: bs => b.toNat + 256 * leNat bs

/-- `bytes_n(v)`: the `n`-byte string whose `LE` is `v`, for `v < 256^n`. -/
def bytesLE : Nat → Nat → List Byte
  | 0, _ => []
  | n + 1, v => BitVec.ofNat 8 v :: bytesLE n (v / 256)

/-! ### Memory (20_memory R50 to R56) -/

/-- The byte an agent has written at `a` since reset, if any. -/
def Memory.find (m : Memory) (a : Nat) : Option Byte :=
  match m with
  | [] => none
  | (k, b) :: rest => if k = a then some b else Memory.find rest a

/-- Writes one byte, keeping the addresses strictly rising. -/
def Memory.put (m : Memory) (a : Nat) (b : Byte) : Memory :=
  match m with
  | [] => [(a, b)]
  | (k, c) :: rest =>
    if a < k then (a, b) :: (k, c) :: rest
    else if k = a then (a, b) :: rest
    else (k, c) :: Memory.put rest a b

/-- Writes a byte string at `a`, `a + 1`, ... -/
def Memory.putAll (m : Memory) (a : Nat) : List Byte → Memory
  | [] => m
  | b :: bs => Memory.putAll (m.put a b) (a + 1) bs

/-- Every listed address is above `lo` and the addresses rise strictly. -/
def Memory.risesFrom (lo : Nat) : Memory → Bool
  | [] => true
  | (k, _) :: rest => lo ≤ k && Memory.risesFrom (k + 1) rest

/-- The canonical form of a memory: addresses strictly rising. -/
def Memory.wf (m : Memory) : Bool := Memory.risesFrom 0 m

/-- The byte DMEM holds at `a`: the last one written, else the unspecified byte of this reset
(20_memory R60, 10_state R37, log entry 3). -/
def State.dmemByte (s : State) (a : Nat) : Byte :=
  match s.dmem.find a with
  | some b => b
  | none => Config.dmemFree s.epoch a

/-- The byte MSG holds at `a`: the last one written, else the unspecified byte of this reset. -/
def State.msgByte (s : State) (a : Nat) : Byte :=
  match s.msg.find a with
  | some b => b
  | none => Config.msgFree s.epoch a

/-- `n` bytes from address `a` on, lowest address first. -/
def bytesFrom (byteAt : Nat → Byte) : Nat → Nat → List Byte
  | _, 0 => []
  | a, n + 1 => byteAt a :: bytesFrom byteAt (a + 1) n

/-- `MemRead(addr, n)` once its range has been checked (20_memory R53). -/
def State.dmemRead (s : State) (addr : Addr) (n : Nat) : List Byte :=
  bytesFrom s.dmemByte addr.toNat n

/-- `MemWrite(addr, n, v)`, `v` of `n` bytes, once its range has been checked (20_memory R54). -/
def State.dmemWrite (s : State) (addr : Addr) (v : List Byte) : State :=
  { s with dmem := s.dmem.putAll addr.toNat v }

/-- `MsgRead()`: the `MLEN` bytes of the message (20_memory R55). -/
def State.message (s : State) : List Byte := bytesFrom s.msgByte 0 s.mlen.toNat

/-! ### Register writes (00_scope R13) -/

/-- `f[r] <- v` -/
def State.setF (s : State) (r : FReg) (v : Fe) : State :=
  { s with f := s.f.set r.toNat (.valid v) r.isLt }

/-- `s[r] <- v` -/
def State.setS (s : State) (r : SReg) (v : BitVec 256) : State :=
  { s with s := s.s.set r.toNat (.valid v) r.isLt }

/-- `p[r] <- v`, where `v` is a point or the INVALID tag. -/
def State.setP (s : State) (r : PReg) (v : PointCell) : State :=
  { s with p := s.p.set r.toNat v r.isLt }

/-- Writes `HBUF` (10_state R29). -/
def State.setHbuf (s : State) (b : List Byte) : State := { s with hbuf := b }

/-! ### Faults (60_exceptions) -/

/-- The code a cause has in `CAUSE` (R211). -/
def Cause.code : Cause → BitVec 4
  | .none => 0
  | .illegalCommand => 1
  | .emptyRegister => 2
  | .invalidPointOperand => 3
  | .addressRange => 4

/-- Fault entry, the whole effect of `raise X(w)` (R216). -/
def State.raise (s : State) (c : Cause) (w : Word) : State :=
  { s with err := true, cause := c, errcmd := w }

/-- Leaving the error state: the effect of `CTRL` bit 0 (R220, 10_state R32). -/
def State.clearFault (s : State) : State :=
  { s with err := false, cause := .none, errcmd := 0 }

/-- The frame of `Exec` around every legal command (30_encoding R78): in the error state the command
is dropped (R219); a fault found by the check phase is entered with the command's word in `ERRCMD`
(log entry 12); otherwise the command completes with its effect. -/
def State.command (s : State) (i : Instr) (body : Except Cause State) : Result :=
  if s.err then .next s
  else
    match body with
    | .ok t => .next t
    | .error c => .next (s.raise c (encode i))

/-- `Exec` on a word that is no command (R212, R219). -/
def State.illegal (s : State) (w : Word) : Result :=
  if s.err then .next s else .next (s.raise .illegalCommand w)

/-! ### Clears and reset -/

/-- The effect of CLR: every tag EMPTY, the flags 0, `HBUF` empty (45_system R201). -/
def State.clearWorking (s : State) : State :=
  { s with
    f := Vector.replicate 16 .empty
    s := Vector.replicate 8 .empty
    p := Vector.replicate 8 .empty
    flags := { v := false, pv := false, sc := false }
    hbuf := [] }

/-- The external reset (70_reset_and_hazards R240, R241): the reset state, with the parameters and
the host agent's own data kept, and DMEM and MSG unspecified anew (log entry 6). -/
def State.externalReset (s : State) : State :=
  { State.reset with params := s.params, todo := s.todo, reads := s.reads, epoch := s.epoch + 1 }

end Sys2Proof.Machine
end

