-- ==== Sys2Proof/Machine/Operands.lean ====
section
/-! DEFINITION. Operand forms: the reads of source registers with the faults they raise, and the range
check of DMEM operands (00_scope R13, 30_encoding R78, 20_memory R57). Each answers a value, or the
cause of the fault. The order of the checks in a command is the fault priority (60_exceptions R217). -/

namespace Sys2Proof.Machine

/-- A source register of a command (30_encoding R76). -/
inductive Source where
  | f (r : FReg)
  | s (r : SReg)
  | p (r : PReg)
  deriving DecidableEq, Repr

/-- The source's tag is EMPTY. -/
def State.sourceEmpty (s : State) : Source → Bool
  | .f r => s.f.get r.toFin == .empty
  | .s r => s.s.get r.toFin == .empty
  | .p r => s.p.get r.toFin == .empty

/-- The first check loop of R78: `EmptyRegister` over all sources comes before
`InvalidPointOperand`. -/
def State.present (s : State) (sources : List Source) : Except Cause Unit :=
  if sources.any s.sourceEmpty then .error .emptyRegister else .ok ()

/-- Read of `f[r]` (10_state R21). -/
def State.fieldAt (s : State) (r : FReg) : Except Cause Fe :=
  match s.f.get r.toFin with
  | .empty => .error .emptyRegister
  | .valid v => .ok v

/-- Read of `s[r]` (10_state R22). -/
def State.scalarAt (s : State) (r : SReg) : Except Cause (BitVec 256) :=
  match s.s.get r.toFin with
  | .empty => .error .emptyRegister
  | .valid v => .ok v

/-- Read of `p[r]` (10_state R23). -/
def State.pointAt (s : State) (r : PReg) : Except Cause Point :=
  match s.p.get r.toFin with
  | .empty => .error .emptyRegister
  | .invalid => .error .invalidPointOperand
  | .valid q => .ok q

/-- The DMEM range of `n` bytes at `addr` lies inside DMEM, with no wrap-around (20_memory R57). -/
def State.rangeOk (s : State) (addr : Addr) (n : Nat) : Bool := addr.toNat + n ≤ s.params.dmemSize

/-- The range check of R57 for one range. -/
def State.inDmem (s : State) (addr : Addr) (n : Nat) : Except Cause Unit :=
  if s.rangeOk addr n then .ok () else .error .addressRange

end Sys2Proof.Machine
end

