-- ==== Sys2Proof/Machine/Field.lean ====
section
/-! DEFINITION. The field-arithmetic unit: the field functions (40_field R100 to R103) and the commands
FADD, FSUB, FMUL, FSQR, FINV, FMOV, FLI, FLD, FST (R104 to R112). No field command writes a flag. -/

namespace Sys2Proof.Machine

/-! ### Field functions -/

/-- The residue of an integer modulo `P`. -/
def feOf (n : Nat) : Fe := ⟨n % P, Nat.mod_lt n (by decide)⟩

/-- `a +P b` (R101). -/
def fAdd (a b : Fe) : Fe := feOf (a.val + b.val)

/-- `a −P b` (R101): `a − b` modulo `P`. -/
def fSub (a b : Fe) : Fe := feOf (a.val + (P - b.val))

/-- `a ·P b` (R101): the full product, then reduced. -/
def fMul (a b : Fe) : Fe := feOf (a.val * b.val)

/-- The loop of `fPow`: the `n` low bits of `e` are still to come, highest first. -/
def fPowLoop (a : Fe) (e : Nat) : Nat → Fe → Fe
  | 0, acc => acc
  | n + 1, acc =>
    fPowLoop a e n (if e.testBit n then fMul (fMul acc acc) a else fMul acc acc)

/-- `a^e mod P` for `e < 2^256`, by squaring and multiplying. -/
def fPow (a : Fe) (e : Nat) : Fe := fPowLoop a e 256 (feOf 1)

/-- `inv(a) = a^(P−2) mod P` (R101), so `inv(0) = 0`. -/
def fInv (a : Fe) : Fe := fPow a (P - 2)

/-- `FDec(b) = LE(b) mod P`, all 256 bits taken (R102). -/
def fDec (b : List Byte) : Fe := feOf (leNat b)

/-- `FEnc(v) = bytes_32(v)` (R103). -/
def fEnc (v : Fe) : List Byte := bytesLE 32 v.val

/-! ### Commands -/

/-- FADD (R104). -/
def execFadd (fd fs1 fs2 : FReg) (s : State) : Result :=
  s.command (.fadd fd fs1 fs2) do
    let a ← s.fieldAt fs1
    let b ← s.fieldAt fs2
    return s.setF fd (fAdd a b)

/-- FSUB (R105). -/
def execFsub (fd fs1 fs2 : FReg) (s : State) : Result :=
  s.command (.fsub fd fs1 fs2) do
    let a ← s.fieldAt fs1
    let b ← s.fieldAt fs2
    return s.setF fd (fSub a b)

/-- FMUL (R106). -/
def execFmul (fd fs1 fs2 : FReg) (s : State) : Result :=
  s.command (.fmul fd fs1 fs2) do
    let a ← s.fieldAt fs1
    let b ← s.fieldAt fs2
    return s.setF fd (fMul a b)

/-- FSQR (R107). -/
def execFsqr (fd fs1 : FReg) (s : State) : Result :=
  s.command (.fsqr fd fs1) do
    let a ← s.fieldAt fs1
    return s.setF fd (fMul a a)

/-- FINV (R108): never faults on the value. -/
def execFinv (fd fs1 : FReg) (s : State) : Result :=
  s.command (.finv fd fs1) do
    let a ← s.fieldAt fs1
    return s.setF fd (fInv a)

/-- FMOV (R109). -/
def execFmov (fd fs1 : FReg) (s : State) : Result :=
  s.command (.fmov fd fs1) do
    let a ← s.fieldAt fs1
    return s.setF fd a

/-- FLI (R110): the zero-extended immediate. -/
def execFli (fd : FReg) (imm16 : BitVec 16) (s : State) : Result :=
  s.command (.fli fd imm16) do
    return s.setF fd (feOf imm16.toNat)

/-- FLD (R111). -/
def execFld (fd : FReg) (addr : Addr) (s : State) : Result :=
  s.command (.fld fd addr) do
    s.inDmem addr 32
    return s.setF fd (fDec (s.dmemRead addr 32))

/-- FST (R112). -/
def execFst (fs : FReg) (addr : Addr) (s : State) : Result :=
  s.command (.fst fs addr) do
    let v ← s.fieldAt fs
    s.inDmem addr 32
    return s.dmemWrite addr (fEnc v)

end Sys2Proof.Machine
end

