-- ==== Sys2Proof/Machine/HashPort.lean ====
section
/-! DEFINITION. The hash port: HINIT, HUPD, HUPDM, HFIN (43_hash_port R170 to R174). The string hashed
is exactly `HBUF`, with nothing added. -/

namespace Sys2Proof.Machine

/-- HINIT (R171). -/
def execHinit (s : State) : Result :=
  s.command .hinit do
    return s.setHbuf []

/-- HUPD (R172). -/
def execHupd (addr : Addr) (s : State) : Result :=
  s.command (.hupd addr) do
    s.inDmem addr 32
    return s.setHbuf (s.hbuf ++ s.dmemRead addr 32)

/-- HUPDM (R173). -/
def execHupdm (s : State) : Result :=
  s.command .hupdm do
    return s.setHbuf (s.hbuf ++ s.message)

/-- HFIN (R174): a faulting HFIN keeps `HBUF`. -/
def execHfin (addr : Addr) (s : State) : Result :=
  s.command (.hfin addr) do
    s.inDmem addr 64
    return (s.dmemWrite addr (Config.hash512 s.hbuf).toList).setHbuf []

end Sys2Proof.Machine
end

