-- ==== Sys2Proof/Machine/Curve.lean ====
section
/-! DEFINITION. The curve and its group (42_point R140 to R144), the reference datapath in extended
coordinates (R145 to R148), and packed points (R149 to R152). -/

namespace Sys2Proof.Machine

/-! ### Constants (00_scope R7, 42_point R143) -/

/-- The curve constant `D`. -/
def curveD : Fe := feOf 0x52036cee2b6ffe738cc740797779e89800700a4d4141d8ab75eb4dca135978a3

/-- `D2 = 2·D mod P`, used by the addition datapath only. -/
def curveD2 : Fe :=
  feOf 16295367250680780974490674513165176452449235426866156013048779062215315747161

/-- `SQRTM1`, a square root of −1. -/
def sqrtM1 : Fe := feOf 0x2b8324804fc1df0b2b4d00993dfbd7a72f431806ad2fe478c4ee1b274a0ea0b0

/-- The base point `B = (BX, BY)`. -/
def basePoint : Point where
  x := feOf 0x216936d3cd6e53fec0a4e231fdd6dc5c692cc7609525a7b2c9562d608f25d51a
  y := feOf 0x6666666666666666666666666666666666666666666666666666666666666658

/-- The neutral element `ID = (0, 1)`. -/
def idPoint : Point where
  x := feOf 0
  y := feOf 1

/-! ### The curve and its group (R140 to R142, R144) -/

/-- `OnCurve(x, y)`: `(y·y − x·x − 1 − D·x·x·y·y) mod P = 0` (R140). -/
def onCurve (q : Point) : Bool :=
  fSub (fSub (fSub (fMul q.y q.y) (fMul q.x q.x)) (feOf 1))
    (fMul (fMul (fMul (fMul curveD q.x) q.x) q.y) q.y) == feOf 0

/-- `PtAdd`, the affine addition law (R142). -/
def ptAdd (q1 q2 : Point) : Point :=
  let t := fMul (fMul (fMul (fMul curveD q1.x) q2.x) q1.y) q2.y
  { x := fMul (fAdd (fMul q1.x q2.y) (fMul q1.y q2.x)) (fInv (fAdd (feOf 1) t))
    y := fMul (fAdd (fMul q1.y q2.y) (fMul q1.x q2.x)) (fInv (fSub (feOf 1) t)) }

/-- The `k`-fold sum, R144's definition of `PtMul(k, Q)`. The machine computes it with the reference
datapath (`ptMul`); `Laws.ptMul_eq_ptSum` proves the two equal for every point of the curve. -/
def ptSum : Nat → Point → Point
  | 0, _ => idPoint
  | k + 1, q => ptAdd (ptSum k q) q

/-! ### The reference datapath (R145 to R148) -/

/-- A quadruple `(X, Y, Z, T)` that represents `(X/Z, Y/Z)` (R145). -/
structure ExtPoint where
  X : Fe
  Y : Fe
  Z : Fe
  T : Fe
  deriving DecidableEq, Repr

/-- An affine `(x, y)` enters as `(x, y, 1, x·y)` (R145). -/
def ExtPoint.ofPoint (q : Point) : ExtPoint :=
  { X := q.x, Y := q.y, Z := feOf 1, T := fMul q.x q.y }

/-- `ID` in extended coordinates (R145). -/
def ExtPoint.id : ExtPoint := { X := feOf 0, Y := feOf 1, Z := feOf 1, T := feOf 0 }

/-- The affine point a quadruple represents (R145); the one inversion. -/
def ExtPoint.toPoint (e : ExtPoint) : Point :=
  let zi := fInv e.Z
  { x := fMul e.X zi, y := fMul e.Y zi }

/-- `ExtAdd` (R146). -/
def extAdd (p q : ExtPoint) : ExtPoint :=
  let a := fMul (fSub p.Y p.X) (fSub q.Y q.X)
  let b := fMul (fAdd p.Y p.X) (fAdd q.Y q.X)
  let c := fMul (fMul p.T curveD2) q.T
  let d := fMul (fMul p.Z (feOf 2)) q.Z
  let e := fSub b a
  let f := fSub d c
  let g := fAdd d c
  let h := fAdd b a
  { X := fMul e f, Y := fMul g h, Z := fMul f g, T := fMul e h }

/-- `ExtDbl` (R147). -/
def extDbl (p : ExtPoint) : ExtPoint :=
  let a := fMul p.X p.X
  let b := fMul p.Y p.Y
  let c := fMul (feOf 2) (fMul p.Z p.Z)
  let h := fAdd a b
  let xy := fAdd p.X p.Y
  let e := fSub h (fMul xy xy)
  let g := fSub a b
  let f := fAdd c g
  { X := fMul e f, Y := fMul g h, Z := fMul f g, T := fMul e h }

/-- The ladder of R148: bits `n−1 .. 0` of `k` are still to come, highest first. -/
def extLadder (k : Nat) (q : ExtPoint) : Nat → ExtPoint → ExtPoint
  | 0, acc => acc
  | n + 1, acc =>
    let dbl := extDbl acc
    extLadder k q n (if k.testBit n then extAdd dbl q else dbl)

/-- `PtMul(k, Q)` for a 256-bit `k`, as the reference datapath computes it (R148, log entry 10): the
integer `k` itself, never reduced (R144, 90_conflicts C1). -/
def ptMul (k : BitVec 256) (q : Point) : Point :=
  (extLadder k.toNat (ExtPoint.ofPoint q) 256 ExtPoint.id).toPoint

/-! ### Packed points (R149 to R152) -/

/-- `PtEnc((x, y)) = bytes_32(y + 2^255 · (x mod 2))` (R149). -/
def ptEnc (q : Point) : List Byte := bytesLE 32 (q.y.val + 2 ^ 255 * (q.x.val % 2))

/-- `c = (u·v³)·(u·v⁷)^((P−5)/8)` (R151). -/
def sqrtCandidate (u v : Fe) : Fe :=
  let v3 := fMul (fMul v v) v
  let v7 := fMul (fMul v3 v3) v
  fMul (fMul u v3) (fPow (fMul u v7) ((P - 5) / 8))

/-- The root of `w = u/v` the reference computation finds, `none` when there is none (R151). -/
def sqrtRatio (u v : Fe) : Option Fe :=
  let c := sqrtCandidate u v
  let vcc := fMul v (fMul c c)
  if vcc = u then some c
  else if vcc = fSub (feOf 0) u then some (fMul c sqrtM1)
  else none

/-- The one of `{x0, P − x0}` whose parity is the sign bit (R150). -/
def selectParity (x0 : Fe) (sign : Nat) : Fe :=
  if x0.val % 2 = sign then x0 else fSub (feOf 0) x0

/-- `PtDec(b)`, `none` for the signal INVALID (R150); `reject` is `X0_SIGN1_REJECT` (R152). -/
def ptDec (reject : Bool) (b : List Byte) : Option Point :=
  let n := leNat b
  let sign := n / 2 ^ 255 % 2
  let y := feOf (n % 2 ^ 255)
  let u := fSub (fMul y y) (feOf 1)
  let v := fAdd (fMul (fMul curveD y) y) (feOf 1)
  let w := fMul u (fInv v)
  if w = feOf 0 then
    if sign = 1 ∧ reject = true then none else some { x := feOf 0, y := y }
  else if fPow w ((P - 1) / 2) = feOf (P - 1) then none
  else
    match sqrtRatio u v with
    | none => none
    | some x0 => some { x := selectParity x0 sign, y := y }

end Sys2Proof.Machine
end

