-- ==== Sys2Proof/Machine/Flags.lean ====
section
/-! DEFINITION. The three flags (10_state R25): each is written by exactly one command, and by reset
and CLR. -/

namespace Sys2Proof.Machine

/-- `FLAGS.V <- b` (VERIFY, 44_pipeline R187). -/
def State.setV (s : State) (b : Bool) : State := { s with flags := { s.flags with v := b } }

/-- `FLAGS.PV <- b` (PDEC, 42_point R159). -/
def State.setPV (s : State) (b : Bool) : State := { s with flags := { s.flags with pv := b } }

/-- `FLAGS.SC <- b` (SCHK, 41_scalar R129). -/
def State.setSC (s : State) (b : Bool) : State := { s with flags := { s.flags with sc := b } }

/-- `V + 2·PV + 4·SC`, as the `FLAGS` CSR shows it (45_system R202). -/
def Flags.word (g : Flags) : Word :=
  BitVec.ofNat 32 (g.v.toNat + 2 * g.pv.toNat + 4 * g.sc.toNat)

end Sys2Proof.Machine
end

