-- ==== Sys2Proof/Machine/Scalar.lean ====
section
/-! DEFINITION. The scalar-reduction unit: `ScRed`, `Clamp` (41_scalar R120, R121) and the commands
SADD, SMUL, SMOV, SLD, SST, SRED, SCLAMP, SCHK (R122 to R129). Only SCHK writes a flag. -/

namespace Sys2Proof.Machine

/-! ### Scalar functions -/

/-- The group order `L = 2^252 + 27742317777372353535851937790883648493` (00_scope R7). -/
def groupOrder : Nat := 0x1000000000000000000000000000000014def9dea2f79cd65812631a5cf5d3ed

/-- `ScRed(v) = v mod L` (R120), as the 256-bit value a register holds. -/
def scRed (v : Nat) : BitVec 256 := BitVec.ofNat 256 (v % groupOrder)

/-- `(a + b) mod L`, the 257-bit sum formed first (R122). -/
def sAdd (a b : BitVec 256) : BitVec 256 := scRed (a.toNat + b.toNat)

/-- `(a · b) mod L`, the 512-bit product formed first (R123). -/
def sMul (a b : BitVec 256) : BitVec 256 := scRed (a.toNat * b.toNat)

/-- `Clamp(v)`: bits 0, 1, 2 and 255 cleared, bit 254 set (R121). -/
def clamp (v : BitVec 256) : BitVec 256 :=
  (v &&& BitVec.ofNat 256 (2 ^ 255 - 8)) ||| BitVec.ofNat 256 (2 ^ 254)

/-- A scalar is canonical when it is `< L` (R120). -/
def scalarCanonical (v : BitVec 256) : Bool := v.toNat < groupOrder

/-- The 256-bit value of 32 bytes, not reduced (R125). -/
def scalarOfBytes (b : List Byte) : BitVec 256 := BitVec.ofNat 256 (leNat b)

/-- `bytes_32(v)` of a scalar, not reduced (R126). -/
def scalarBytes (v : BitVec 256) : List Byte := bytesLE 32 v.toNat

/-! ### Commands -/

/-- SADD (R122). -/
def execSadd (sd ss1 ss2 : SReg) (s : State) : Result :=
  s.command (.sadd sd ss1 ss2) do
    let a ← s.scalarAt ss1
    let b ← s.scalarAt ss2
    return s.setS sd (sAdd a b)

/-- SMUL (R123). -/
def execSmul (sd ss1 ss2 : SReg) (s : State) : Result :=
  s.command (.smul sd ss1 ss2) do
    let a ← s.scalarAt ss1
    let b ← s.scalarAt ss2
    return s.setS sd (sMul a b)

/-- SMOV (R124). -/
def execSmov (sd ss1 : SReg) (s : State) : Result :=
  s.command (.smov sd ss1) do
    let a ← s.scalarAt ss1
    return s.setS sd a

/-- SLD (R125). -/
def execSld (sd : SReg) (addr : Addr) (s : State) : Result :=
  s.command (.sld sd addr) do
    s.inDmem addr 32
    return s.setS sd (scalarOfBytes (s.dmemRead addr 32))

/-- SST (R126). -/
def execSst (ss : SReg) (addr : Addr) (s : State) : Result :=
  s.command (.sst ss addr) do
    let v ← s.scalarAt ss
    s.inDmem addr 32
    return s.dmemWrite addr (scalarBytes v)

/-- SRED (R127). -/
def execSred (sd : SReg) (addr : Addr) (s : State) : Result :=
  s.command (.sred sd addr) do
    s.inDmem addr 64
    return s.setS sd (scRed (leNat (s.dmemRead addr 64)))

/-- SCLAMP (R128). -/
def execSclamp (sd ss1 : SReg) (s : State) : Result :=
  s.command (.sclamp sd ss1) do
    let a ← s.scalarAt ss1
    return s.setS sd (clamp a)

/-- SCHK (R129). -/
def execSchk (ss1 : SReg) (s : State) : Result :=
  s.command (.schk ss1) do
    let a ← s.scalarAt ss1
    return s.setSC (scalarCanonical a)

end Sys2Proof.Machine
end

