-- ==== Sys2Proof/Machine/Scheme.lean ====
section
/-! DEFINITION. The functions of the signature scheme (44_pipeline R180 to R183), each for any hash
function `hash` and, where it decodes points, any value `reject` of `X0_SIGN1_REJECT`. -/

namespace Sys2Proof.Machine

/-- A hash function: a byte string to 64 bytes (00_scope R9). -/
abbrev HashFn := List Byte → Vector Byte 64

/-- `Expand(sk) = (a, b)` (R180). -/
def expandKey (hash : HashFn) (sk : List Byte) : BitVec 256 × List Byte :=
  let h := (hash sk).toList
  (clamp (scalarOfBytes (h.take 32)), h.drop 32)

/-- `Derive(sk) = PtEnc(PtMul(a, B))` (R181). -/
def derivePub (hash : HashFn) (sk : List Byte) : List Byte :=
  ptEnc (ptMul (expandKey hash sk).1 basePoint)

/-- A hash output read as a 512-bit little-endian integer and reduced modulo `L` (R182 steps 2, 4). -/
def hashScalar (hash : HashFn) (m : List Byte) : BitVec 256 := scRed (leNat (hash m).toList)

/-- `Sign(pub, sk, m) = R || bytes_32(S)` (R182). -/
def signMsg (hash : HashFn) (pub sk m : List Byte) : List Byte :=
  let ab := expandKey hash sk
  let r := hashScalar hash (ab.2 ++ m)
  let rBytes := ptEnc (ptMul r basePoint)
  let sPre := hashScalar hash (rBytes ++ pub ++ m)
  rBytes ++ scalarBytes (scRed (r.toNat + sPre.toNat * ab.1.toNat))

/-- The decoding steps of R183: no point, no acceptance; with both points, what `check` says. -/
def whenBothDecode (r a : Option Point) (check : Point → Point → Bool) : Bool :=
  match r, a with
  | some r, some a => check r a
  | _, _ => false

/-- `Verify(sig, pub, m)` (R183). -/
def verifySig (hash : HashFn) (reject : Bool) (sig pub m : List Byte) : Bool :=
  let rBytes := sig.take 32
  let bigS := scalarOfBytes (sig.drop 32)
  whenBothDecode (ptDec reject rBytes) (ptDec reject pub) fun r a =>
    let sPre := hashScalar hash (rBytes ++ pub ++ m)
    scalarCanonical bigS && ptEnc (ptMul bigS basePoint) == ptEnc (ptAdd r (ptMul sPre a))

end Sys2Proof.Machine
end

