-- ==== Sys2Proof/Machine/Pipeline.lean ====
section
/-! DEFINITION. The sign/verify pipeline's commands KEYEXP, DERIVE, SIGN, VERIFY (44_pipeline R184 to
R188). A pipeline command touches only what its rule names; its working values outlast it nowhere
(10_state R36). Every range is checked before anything is read (20_memory R57). -/

namespace Sys2Proof.Machine

/-- KEYEXP (R184). -/
def execKeyexp (sd : SReg) (addr : Addr) (s : State) : Result :=
  s.command (.keyexp sd addr) do
    s.inDmem s.skptr 32
    s.inDmem addr 32
    let ab := expandKey Config.hash512 (s.dmemRead s.skptr 32)
    return (s.setS sd ab.1).dmemWrite addr ab.2

/-- DERIVE (R185). -/
def execDerive (s : State) : Result :=
  s.command .derive do
    s.inDmem s.skptr 32
    s.inDmem s.pkptr 32
    return s.dmemWrite s.pkptr (derivePub Config.hash512 (s.dmemRead s.skptr 32))

/-- SIGN (R186). -/
def execSign (s : State) : Result :=
  s.command .sign do
    s.inDmem s.skptr 32
    s.inDmem s.pkptr 32
    s.inDmem s.sgptr 64
    return s.dmemWrite s.sgptr
      (signMsg Config.hash512 (s.dmemRead s.pkptr 32) (s.dmemRead s.skptr 32) s.message)

/-- VERIFY (R187): bad data never faults. -/
def execVerify (s : State) : Result :=
  s.command .verify do
    s.inDmem s.sgptr 64
    s.inDmem s.pkptr 32
    return s.setV
      (verifySig Config.hash512 s.params.x0Sign1Reject (s.dmemRead s.sgptr 64)
        (s.dmemRead s.pkptr 32) s.message)

end Sys2Proof.Machine
end

