-- ==== Sys2Proof/Machine/Point.lean ====
section
/-! DEFINITION. The scalar-multiplication engine's commands PADD, PDBL, PSMUL, PSMULB, PMOV, PLDB, PDEC,
PENC (42_point R153 to R160). Only PDEC writes a flag. -/

namespace Sys2Proof.Machine

/-- PADD (R153). -/
def execPadd (pd ps1 ps2 : PReg) (s : State) : Result :=
  s.command (.padd pd ps1 ps2) do
    s.present [.p ps1, .p ps2]
    let q1 ← s.pointAt ps1
    let q2 ← s.pointAt ps2
    return s.setP pd (.valid (ptAdd q1 q2))

/-- PDBL (R154): the double is `PtAdd(Q, Q)`. -/
def execPdbl (pd ps1 : PReg) (s : State) : Result :=
  s.command (.pdbl pd ps1) do
    let q ← s.pointAt ps1
    return s.setP pd (.valid (ptAdd q q))

/-- PSMUL (R155): the full 256-bit scalar, not reduced. -/
def execPsmul (pd ps1 : PReg) (sk : SReg) (s : State) : Result :=
  s.command (.psmul pd ps1 sk) do
    s.present [.p ps1, .s sk]
    let q ← s.pointAt ps1
    let k ← s.scalarAt sk
    return s.setP pd (.valid (ptMul k q))

/-- PSMULB (R156). -/
def execPsmulb (pd : PReg) (sk : SReg) (s : State) : Result :=
  s.command (.psmulb pd sk) do
    let k ← s.scalarAt sk
    return s.setP pd (.valid (ptMul k basePoint))

/-- PMOV (R157): neither an EMPTY nor an INVALID tag is copied. -/
def execPmov (pd ps1 : PReg) (s : State) : Result :=
  s.command (.pmov pd ps1) do
    let q ← s.pointAt ps1
    return s.setP pd (.valid q)

/-- PLDB (R158). -/
def execPldb (pd : PReg) (s : State) : Result :=
  s.command (.pldb pd) do
    return s.setP pd (.valid basePoint)

/-- What PDEC writes to its register (R159). -/
def decodedCell : Option Point → PointCell
  | none => .invalid
  | some q => .valid q

/-- PDEC (R159): a failed decode is a result, not a fault. -/
def execPdec (pd : PReg) (addr : Addr) (s : State) : Result :=
  s.command (.pdec pd addr) do
    s.inDmem addr 32
    let r := ptDec s.params.x0Sign1Reject (s.dmemRead addr 32)
    return (s.setP pd (decodedCell r)).setPV r.isSome

/-- PENC (R160). -/
def execPenc (ps : PReg) (addr : Addr) (s : State) : Result :=
  s.command (.penc ps addr) do
    let q ← s.pointAt ps
    s.inDmem addr 32
    return s.dmemWrite addr (ptEnc q)

end Sys2Proof.Machine
end

