-- ==== Sys2Proof/Machine/System.lean ====
section
/-! DEFINITION. The system commands NOP and CLR (45_system R200, R201). -/

namespace Sys2Proof.Machine

/-- NOP (R200): changes no state. -/
def execNop (s : State) : Result :=
  s.command .nop do
    return s

/-- CLR (R201). -/
def execClr (s : State) : Result :=
  s.command .clr do
    return s.clearWorking

end Sys2Proof.Machine
end

