-- ==== Sys2Proof/Machine/Dispatch.lean ====
section
/-! DEFINITION. What each command does (30_encoding R78): one arm per constructor. -/

namespace Sys2Proof.Machine

def exec (i : Instr) (s : State) : Host.Outcome State Fault Refusal :=
  match i with
  | .nop => Sys2Proof.Machine.execNop s
  | .clr => Sys2Proof.Machine.execClr s
  | .fadd fd fs1 fs2 => Sys2Proof.Machine.execFadd fd fs1 fs2 s
  | .fsub fd fs1 fs2 => Sys2Proof.Machine.execFsub fd fs1 fs2 s
  | .fmul fd fs1 fs2 => Sys2Proof.Machine.execFmul fd fs1 fs2 s
  | .fsqr fd fs1 => Sys2Proof.Machine.execFsqr fd fs1 s
  | .finv fd fs1 => Sys2Proof.Machine.execFinv fd fs1 s
  | .fmov fd fs1 => Sys2Proof.Machine.execFmov fd fs1 s
  | .fli fd imm16 => Sys2Proof.Machine.execFli fd imm16 s
  | .fld fd addr => Sys2Proof.Machine.execFld fd addr s
  | .fst fs addr => Sys2Proof.Machine.execFst fs addr s
  | .sadd sd ss1 ss2 => Sys2Proof.Machine.execSadd sd ss1 ss2 s
  | .smul sd ss1 ss2 => Sys2Proof.Machine.execSmul sd ss1 ss2 s
  | .smov sd ss1 => Sys2Proof.Machine.execSmov sd ss1 s
  | .sld sd addr => Sys2Proof.Machine.execSld sd addr s
  | .sst ss addr => Sys2Proof.Machine.execSst ss addr s
  | .sred sd addr => Sys2Proof.Machine.execSred sd addr s
  | .sclamp sd ss1 => Sys2Proof.Machine.execSclamp sd ss1 s
  | .schk ss1 => Sys2Proof.Machine.execSchk ss1 s
  | .padd pd ps1 ps2 => Sys2Proof.Machine.execPadd pd ps1 ps2 s
  | .pdbl pd ps1 => Sys2Proof.Machine.execPdbl pd ps1 s
  | .psmul pd ps1 sk => Sys2Proof.Machine.execPsmul pd ps1 sk s
  | .psmulb pd sk => Sys2Proof.Machine.execPsmulb pd sk s
  | .pmov pd ps1 => Sys2Proof.Machine.execPmov pd ps1 s
  | .pldb pd => Sys2Proof.Machine.execPldb pd s
  | .pdec pd addr => Sys2Proof.Machine.execPdec pd addr s
  | .penc ps addr => Sys2Proof.Machine.execPenc ps addr s
  | .hinit => Sys2Proof.Machine.execHinit s
  | .hupd addr => Sys2Proof.Machine.execHupd addr s
  | .hupdm => Sys2Proof.Machine.execHupdm s
  | .hfin addr => Sys2Proof.Machine.execHfin addr s
  | .keyexp sd addr => Sys2Proof.Machine.execKeyexp sd addr s
  | .derive => Sys2Proof.Machine.execDerive s
  | .sign => Sys2Proof.Machine.execSign s
  | .verify => Sys2Proof.Machine.execVerify s

end Sys2Proof.Machine
end

