-- ==== Sys2Proof/WellFormed.lean ====
section
/-! DEFINITION. Well-formedness of what reaches the machine. A register index, an address and an
immediate have exactly the width of their field (30_encoding R76), so every `Instr` is well formed by
its type and needs no check: reserved field values are refused by `decode` (R79). What types do not
settle is checked here: the parameters' ranges (00_scope R8) and the host's DMEM addresses
(20_memory R56, 93 U15). -/

namespace Sys2Proof

/-- `DMEM_SIZE` is a power of two (00_scope R8). -/
def Params.sizeIsPowerOfTwo (c : Params) : Bool := c.dmemSize == 2 ^ c.dmemSize.log2

/-- `256 ≤ DMEM_SIZE ≤ 65536` (00_scope R8). -/
def Params.sizeInRange (c : Params) : Bool := 256 ≤ c.dmemSize && c.dmemSize ≤ 65536

/-- The parameters are ones 00_scope R8 allows. -/
def Params.wellFormed (c : Params) : Bool := c.sizeIsPowerOfTwo && c.sizeInRange

/-- The host has only the actions 20_memory R56 gives it: a DMEM byte access is below `DMEM_SIZE`
(93 U15). Every other action is well formed by its type. -/
def HostAction.wellFormed (c : Params) : HostAction → Bool
  | .dmemRead a => a < c.dmemSize
  | .dmemWrite a _ => a < c.dmemSize
  | .csrRead _ => true
  | .csrWrite _ _ => true
  | .msgRead _ => true
  | .msgWrite _ _ => true
  | .reset => true

end Sys2Proof
end

