-- ==== Sys2Proof/Machine/HostPort.lean ====
section
/-! DEFINITION. The host interface: the CSR block (10_state R30, 45_system R202, R203), the issue of a
command word (10_state R31), host access to DMEM and MSG (20_memory R56), and one host action. -/

namespace Sys2Proof.Machine

/-- Byte offset of `CMD` (10_state R30). -/
def cmdOffset : Nat := 0x00

/-- `CsrRead(off)` (R202): every offset outside the map, and every write-only register, reads 0. -/
def State.csrRead (s : State) (off : Nat) : Word :=
  match off with
  | 0x04 => if s.err then 1 else 0
  | 0x08 => s.cause.code.setWidth 32
  | 0x0C => s.errcmd
  | 0x10 => s.flags.word
  | 0x18 => s.mlen
  | 0x1C => s.skptr.setWidth 32
  | 0x20 => s.pkptr.setWidth 32
  | 0x24 => s.sgptr.setWidth 32
  | _ => 0

/-- `CsrWrite(off, v)` for every offset but `CMD` (R203): read-only registers and offsets outside the
map ignore the write. -/
def State.csrWrite (s : State) (off : Nat) (v : Word) : State :=
  match off with
  | 0x14 => if v.getLsbD 0 then s.clearFault else s
  | 0x18 => { s with mlen := v }
  | 0x1C => { s with skptr := v.setWidth 16 }
  | 0x20 => { s with pkptr := v.setWidth 16 }
  | 0x24 => { s with sgptr := v.setWidth 16 }
  | _ => s

/-- `Exec(state, w)` (30_encoding R78): the command the word stands for, or `IllegalCommand`. -/
def execWord (w : Word) (s : State) : Result :=
  match decode w with
  | some i => exec i s
  | none => s.illegal w

/-- `pc <- pc + 1` (10_state R24). -/
def State.advance (s : State) : State := { s with pc := s.pc + 1 }

/-- A command advances the host's index whatever its outcome (10_state R24). -/
def advancePc : Result → Result
  | .next t => .next t.advance
  | .fault r => .fault r
  | .refused r => .refused r

/-- The host receives a word (log entry 7). -/
def State.receive (s : State) (v : Word) : State := { s with reads := s.reads ++ [v] }

/-- Performs one action of the host. A DMEM access outside `DMEM_SIZE` is refused (93 U15). -/
def perform (a : HostAction) (s : State) : Result :=
  if a.wellFormed s.params then
    match a with
    | .csrRead off => .next (s.receive (s.csrRead off))
    | .csrWrite off v =>
      if off = cmdOffset then advancePc (execWord v s) else .next (s.csrWrite off v)
    | .dmemRead addr => .next (s.receive ((s.dmemByte addr).setWidth 32))
    | .dmemWrite addr b => .next { s with dmem := s.dmem.put addr b }
    | .msgRead addr => .next (s.receive ((s.msgByte addr.toNat).setWidth 32))
    | .msgWrite addr b => .next { s with msg := s.msg.put addr.toNat b }
    | .reset => .next s.externalReset
  else .refused .hostAccessOutsideDmem

/-- The host's next action, if it has one, is taken off its list and performed; a host with nothing
to do leaves the CORE as it is (log entry 5). -/
def hostStep (s : State) : Result :=
  match s.todo with
  | [] => .next s
  | a :: rest => perform a { s with todo := rest }

/-- The host's next action becomes the issue of a command word (log entry 4). -/
def State.issueNext (s : State) (w : Word) : State :=
  { s with todo := .csrWrite cmdOffset w :: s.todo }

end Sys2Proof.Machine
end

