-- ==== Sys2Proof/Machine/Step.lean ====
section
/-! DEFINITION. One step of the machine: one action of the host (00_scope R5, R6). -/

namespace Sys2Proof.Machine

/-- One step. -/
def step (s : State) : Host.Outcome State Fault Refusal := hostStep s

/-- `s` with a command word standing where `step` takes its next one: as the host's next action, a
write to `CMD` (10_state R31). -/
def State.withFetchWord (s : State) (nbits w : Nat) : State :=
  s.issueNext (BitVec.ofNat 32 (w % 2 ^ nbits))

end Sys2Proof.Machine
end

