-- ==== Sys2Proof/Safety.lean ====
section
/-! DEFINITION. What counts as a safe state: the invariants the spec states of the machine, in the
terms the claims use. -/

namespace Sys2Proof.Machine

/-- Every listed address is below `n`. -/
def Memory.below (n : Nat) (m : Memory) : Bool := m.all (fun c => c.1 < n)

/-- Every VALID point register holds a point on the curve (10_state R23). -/
def State.pointsOnCurve (s : State) : Prop :=
  ∀ (r : PReg) (q : Point), s.p.get r.toFin = .valid q → onCurve q = true

/-- `CAUSE` and `ERRCMD` are 0 when `ERR = 0`, and `CAUSE` is one of 1 to 4 when `ERR = 1`
(10_state R26, 60_exceptions R211). -/
def State.faultConsistent (s : State) : Prop :=
  if s.err then s.cause ≠ .none else s.cause = .none ∧ s.errcmd = 0

/-- Both memories are in canonical form and lie inside their spaces (20_memory R50). -/
def State.memoriesOk (s : State) : Prop :=
  s.dmem.wf = true ∧ s.dmem.below s.params.dmemSize = true ∧
    s.msg.wf = true ∧ s.msg.below (2 ^ 32) = true

/-- The invariant of the machine. -/
structure State.Inv (s : State) : Prop where
  params : s.params.wellFormed = true
  points : s.pointsOnCurve
  fault : s.faultConsistent
  memories : s.memoriesOk

/-! ### What a command's faults are decided by (60_exceptions R211 to R217) -/

/-- The source registers a command reads (60_exceptions R211, 30_encoding R76). -/
def sourcesOf : Instr → List Source
  | .nop => []
  | .clr => []
  | .fadd _ fs1 fs2 => [.f fs1, .f fs2]
  | .fsub _ fs1 fs2 => [.f fs1, .f fs2]
  | .fmul _ fs1 fs2 => [.f fs1, .f fs2]
  | .fsqr _ fs1 => [.f fs1]
  | .finv _ fs1 => [.f fs1]
  | .fmov _ fs1 => [.f fs1]
  | .fli _ _ => []
  | .fld _ _ => []
  | .fst fs _ => [.f fs]
  | .sadd _ ss1 ss2 => [.s ss1, .s ss2]
  | .smul _ ss1 ss2 => [.s ss1, .s ss2]
  | .smov _ ss1 => [.s ss1]
  | .sld _ _ => []
  | .sst ss _ => [.s ss]
  | .sred _ _ => []
  | .sclamp _ ss1 => [.s ss1]
  | .schk ss1 => [.s ss1]
  | .padd _ ps1 ps2 => [.p ps1, .p ps2]
  | .pdbl _ ps1 => [.p ps1]
  | .psmul _ ps1 sk => [.p ps1, .s sk]
  | .psmulb _ sk => [.s sk]
  | .pmov _ ps1 => [.p ps1]
  | .pldb _ => []
  | .pdec _ _ => []
  | .penc ps _ => [.p ps]
  | .hinit => []
  | .hupd _ => []
  | .hupdm => []
  | .hfin _ => []
  | .keyexp _ _ => []
  | .derive => []
  | .sign => []
  | .verify => []

/-- The DMEM ranges a command touches, each an address and a length (20_memory R57). -/
def rangesOf (s : State) : Instr → List (Addr × Nat)
  | .nop => []
  | .clr => []
  | .fadd _ _ _ => []
  | .fsub _ _ _ => []
  | .fmul _ _ _ => []
  | .fsqr _ _ => []
  | .finv _ _ => []
  | .fmov _ _ => []
  | .fli _ _ => []
  | .fld _ addr => [(addr, 32)]
  | .fst _ addr => [(addr, 32)]
  | .sadd _ _ _ => []
  | .smul _ _ _ => []
  | .smov _ _ => []
  | .sld _ addr => [(addr, 32)]
  | .sst _ addr => [(addr, 32)]
  | .sred _ addr => [(addr, 64)]
  | .sclamp _ _ => []
  | .schk _ => []
  | .padd _ _ _ => []
  | .pdbl _ _ => []
  | .psmul _ _ _ => []
  | .psmulb _ _ => []
  | .pmov _ _ => []
  | .pldb _ => []
  | .pdec _ addr => [(addr, 32)]
  | .penc _ addr => [(addr, 32)]
  | .hinit => []
  | .hupd addr => [(addr, 32)]
  | .hupdm => []
  | .hfin addr => [(addr, 64)]
  | .keyexp _ addr => [(s.skptr, 32), (addr, 32)]
  | .derive => [(s.skptr, 32), (s.pkptr, 32)]
  | .sign => [(s.skptr, 32), (s.pkptr, 32), (s.sgptr, 64)]
  | .verify => [(s.sgptr, 64), (s.pkptr, 32)]

/-- The DMEM range a command stores to (20_memory R58). -/
def storesTo (s : State) : Instr → Option (Addr × Nat)
  | .fst _ addr => some (addr, 32)
  | .sst _ addr => some (addr, 32)
  | .penc _ addr => some (addr, 32)
  | .hfin addr => some (addr, 64)
  | .keyexp _ addr => some (addr, 32)
  | .derive => some (s.pkptr, 32)
  | .sign => some (s.sgptr, 64)
  | .nop => none
  | .clr => none
  | .fadd _ _ _ => none
  | .fsub _ _ _ => none
  | .fmul _ _ _ => none
  | .fsqr _ _ => none
  | .finv _ _ => none
  | .fmov _ _ => none
  | .fli _ _ => none
  | .fld _ _ => none
  | .sadd _ _ _ => none
  | .smul _ _ _ => none
  | .smov _ _ => none
  | .sld _ _ => none
  | .sred _ _ => none
  | .sclamp _ _ => none
  | .schk _ => none
  | .padd _ _ _ => none
  | .pdbl _ _ => none
  | .psmul _ _ _ => none
  | .psmulb _ _ => none
  | .pmov _ _ => none
  | .pldb _ => none
  | .pdec _ _ => none
  | .hinit => none
  | .hupd _ => none
  | .hupdm => none
  | .verify => none

/-- The source's tag is INVALID (only a point register has one). -/
def State.sourceInvalid (s : State) : Source → Bool
  | .f _ => false
  | .s _ => false
  | .p r => s.p.get r.toFin == .invalid

/-- The fault a legal command raises outside the error state, if any, in the order of R217. -/
def faultOf (i : Instr) (s : State) : Option Cause :=
  if (sourcesOf i).any s.sourceEmpty then some .emptyRegister
  else if (sourcesOf i).any s.sourceInvalid then some .invalidPointOperand
  else if (rangesOf s i).any (fun r => s.params.dmemSize < r.1.toNat + r.2) then some .addressRange
  else none

/-! ### The words the claims use -/

/-- The command raises the fault `c` at `s`: fault entry with its own word, and nothing else
(60_exceptions R216). -/
def faultsWith (i : Instr) (s : State) (c : Cause) : Prop :=
  exec i s = .next (s.raise c (encode i))

/-- What the words with opcode `op` mean (30_encoding R70, R77, R79): the command `build` reads from
the fields when no bit of `zero` is set, else no command. -/
def opcodeMeans (op : BitVec 8) (zero : Word) (build : Word → Instr) : Prop :=
  ∀ w : Word, w.extractLsb' 24 8 = op →
    decode w = if w &&& zero = 0 then some (build w) else none

/-- Commands performed one after another. -/
def execAll : List Instr → State → Result
  | [], s => .next s
  | i :: rest, s =>
    match exec i s with
    | .next t => execAll rest t
    | .fault r => .fault r
    | .refused r => .refused r

/-- The quadruple represents the affine point (42_point R145). -/
def ExtPoint.represents (e : ExtPoint) (q : Point) : Prop :=
  e.Z ≠ feOf 0 ∧ q.x = fMul e.X (fInv e.Z) ∧ q.y = fMul e.Y (fInv e.Z) ∧
    fMul e.T e.Z = fMul e.X e.Y

/-- What decides whether a command faults (60_exceptions R211, 70_reset_and_hazards R252) is the same
in both states: the tags, the pointer registers, `DMEM_SIZE`. -/
def samePublic (s t : State) : Prop :=
  (∀ x : Source, s.sourceEmpty x = t.sourceEmpty x ∧ s.sourceInvalid x = t.sourceInvalid x) ∧
    s.skptr = t.skptr ∧ s.pkptr = t.pkptr ∧ s.sgptr = t.sgptr ∧ s.params = t.params

/-- The state no command writes but through fault entry: `MLEN`, the pointers, `MSG`, the parameters
and the host's own data (10_state R24, R27, R28, R34, R35). -/
def sameSettings (s t : State) : Prop :=
  t.mlen = s.mlen ∧ t.skptr = s.skptr ∧ t.pkptr = s.pkptr ∧ t.sgptr = s.sgptr ∧ t.msg = s.msg ∧
    t.pc = s.pc ∧ t.params = s.params ∧ t.todo = s.todo ∧ t.reads = s.reads ∧ t.epoch = s.epoch

/-- Two DMEM ranges have no byte in common. -/
def rangesDisjoint (a : Addr) (n : Nat) (b : Addr) (m : Nat) : Prop :=
  a.toNat + n ≤ b.toNat ∨ b.toNat + m ≤ a.toNat

/-- The memory frame of a command: outside the range it stores to (`storesTo`, whose address is the
one its meaning writes at) every DMEM byte reads as before, and every MSG byte does. -/
def memoryFrame (i : Instr) (s t : State) : Prop :=
  (∀ x : Nat, (∀ (a : Addr) (n : Nat), storesTo s i = some (a, n) → x < a.toNat ∨ a.toNat + n ≤ x) →
    t.dmemByte x = s.dmemByte x) ∧
  ∀ x : Nat, t.msgByte x = s.msgByte x

/-- The fault record is as before, or the command has faulted and changed nothing else. -/
def recordFrame (s t : State) : Prop :=
  (t.err = s.err ∧ t.cause = s.cause ∧ t.errcmd = s.errcmd) ∨
    (s.err = false ∧ ∃ (c : Cause) (w : Word), c ≠ .none ∧ t = s.raise c w)

end Sys2Proof.Machine
end

