-- ==== Sys2Proof/Certificates/Slice0/Obligations.lean ====
section
/-! DEFINITION. The statements for the provers, each from the numbered rules of the spec. -/

open Sys2Proof Sys2Proof.Machine

/-! ### Reset, the invariant, one step -/

/-- 10_state R37, the reset table. That DMEM and MSG are unspecified is said as: no byte of them has a
value the model knows (`find` answers none, so a read gives a free value). -/
def Obligations.ResetStateIsTheResetTable : Prop :=
  (∀ r : FReg, State.reset.f.get r.toFin = .empty) ∧
  (∀ r : SReg, State.reset.s.get r.toFin = .empty) ∧
  (∀ r : PReg, State.reset.p.get r.toFin = .empty) ∧
  State.reset.flags = { v := false, pv := false, sc := false } ∧
  State.reset.err = false ∧ State.reset.cause.code = 0 ∧ State.reset.errcmd = 0 ∧
  State.reset.mlen = 0 ∧
  State.reset.skptr = 0x0000 ∧ State.reset.pkptr = 0x0020 ∧ State.reset.sgptr = 0x0040 ∧
  State.reset.hbuf = [] ∧
  (∀ a : Nat, State.reset.dmem.find a = none ∧ State.reset.msg.find a = none) ∧
  State.reset.pc = 0

/-- The invariant holds at reset. Its parameter part rests on the defaults the state holds
(log entry 1), its memory part on the canonical form (log entry 3). -/
def Obligations.ResetMeetsTheInvariant : Prop := State.reset.Inv

/-- Every step keeps the invariant: every VALID point register holds a point of the curve
(10_state R23), `CAUSE` and `ERRCMD` are 0 when `ERR = 0` and `CAUSE` is 1 to 4 when `ERR = 1`
(10_state R26), both memories keep their canonical form inside their spaces (log entry 3) and the
parameters stay legal (log entry 1). -/
def Obligations.StepKeepsTheInvariant : Prop :=
  ∀ s t : State, s.Inv → step s = .next t → t.Inv

/-- A step performs one action of the host, takes it off the list, and changes no parameter
(log entries 1, 4); with nothing to do it changes nothing (log entry 5). Every word written to `CMD`,
whatever it is and whatever the state, ends in a next state in which the index has advanced by exactly
one; no other action but the reset changes the index (10_state R24). -/
def Obligations.StepPerformsOneActionAndCommandsAdvanceTheIndex : Prop :=
  (∀ s t : State, step s = .next t → t.params = s.params ∧ t.todo = s.todo.tail) ∧
  (∀ s : State, s.todo = [] → step s = .next s) ∧
  (∀ (s : State) (a : HostAction) (rest : List HostAction), s.todo = a :: rest →
    step s = perform a { s with todo := rest }) ∧
  (∀ (s : State) (w : Word), ∃ t : State,
    perform (.csrWrite 0x00 w) s = .next t ∧ t.pc = s.pc + 1) ∧
  ∀ (s t : State) (a : HostAction), (∀ w : Word, a ≠ .csrWrite 0x00 w) → a ≠ .reset →
    perform a s = .next t → t.pc = s.pc

/-- A step runs the decoded command: a word the host writes to `CMD` next is executed as the command
it decodes to, or as an illegal word, and the index of the command stream moves on (10_state R24,
R31). `withFetchWord` places such a write (log entry 4). -/
def Obligations.StepRunsTheDecodedCommand : Prop :=
  (∀ (s : State) (w : Word) (i : Instr) (rest : List HostAction),
    s.todo = .csrWrite 0x00 w :: rest → decode w = some i →
      step s = advancePc (exec i { s with todo := rest })) ∧
  (∀ (s : State) (w : Word) (rest : List HostAction),
    s.todo = .csrWrite 0x00 w :: rest → decode w = none →
      step s = advancePc (State.illegal { s with todo := rest } w)) ∧
  ∀ (s : State) (w : Word) (i : Instr), decode w = some i →
    step (s.withFetchWord 32 w.toNat) = advancePc (exec i s)

/-! ### Encoding -/

/-- Decoding and encoding agree in both directions, for every word and every command: no bit of an
encoding is dropped and every command has exactly one word. -/
def Obligations.DecodeAndEncodeAgree : Prop :=
  ∀ (w : Word) (i : Instr), decode w = some i ↔ encode i = w

/-- The opcode map of 30_encoding R77 by opcode: fields, must-be-zero bits, register indices of 4
bits for field registers and of 3 bits with a reserved high bit for scalar and point registers. -/
def Obligations.OpcodeMapDecodesByOpcode : Prop :=
  opcodeMeans 0x00 0x00FFFFFF (fun _ => .nop) ∧
  opcodeMeans 0x01 0x00FFFFFF (fun _ => .clr) ∧
  opcodeMeans 0x10 0x00000FFF
    (fun w => .fadd (w.extractLsb' 20 4) (w.extractLsb' 16 4) (w.extractLsb' 12 4)) ∧
  opcodeMeans 0x11 0x00000FFF
    (fun w => .fsub (w.extractLsb' 20 4) (w.extractLsb' 16 4) (w.extractLsb' 12 4)) ∧
  opcodeMeans 0x12 0x00000FFF
    (fun w => .fmul (w.extractLsb' 20 4) (w.extractLsb' 16 4) (w.extractLsb' 12 4)) ∧
  opcodeMeans 0x13 0x0000FFFF (fun w => .fsqr (w.extractLsb' 20 4) (w.extractLsb' 16 4)) ∧
  opcodeMeans 0x14 0x0000FFFF (fun w => .finv (w.extractLsb' 20 4) (w.extractLsb' 16 4)) ∧
  opcodeMeans 0x15 0x0000FFFF (fun w => .fmov (w.extractLsb' 20 4) (w.extractLsb' 16 4)) ∧
  opcodeMeans 0x16 0x000F0000 (fun w => .fli (w.extractLsb' 20 4) (w.extractLsb' 0 16)) ∧
  opcodeMeans 0x17 0x000F0000 (fun w => .fld (w.extractLsb' 20 4) (w.extractLsb' 0 16)) ∧
  opcodeMeans 0x18 0x000F0000 (fun w => .fst (w.extractLsb' 20 4) (w.extractLsb' 0 16)) ∧
  opcodeMeans 0x20 0x00888FFF
    (fun w => .sadd (w.extractLsb' 20 3) (w.extractLsb' 16 3) (w.extractLsb' 12 3)) ∧
  opcodeMeans 0x21 0x00888FFF
    (fun w => .smul (w.extractLsb' 20 3) (w.extractLsb' 16 3) (w.extractLsb' 12 3)) ∧
  opcodeMeans 0x22 0x0088FFFF (fun w => .smov (w.extractLsb' 20 3) (w.extractLsb' 16 3)) ∧
  opcodeMeans 0x23 0x008F0000 (fun w => .sld (w.extractLsb' 20 3) (w.extractLsb' 0 16)) ∧
  opcodeMeans 0x24 0x008F0000 (fun w => .sst (w.extractLsb' 20 3) (w.extractLsb' 0 16)) ∧
  opcodeMeans 0x25 0x008F0000 (fun w => .sred (w.extractLsb' 20 3) (w.extractLsb' 0 16)) ∧
  opcodeMeans 0x26 0x0088FFFF (fun w => .sclamp (w.extractLsb' 20 3) (w.extractLsb' 16 3)) ∧
  opcodeMeans 0x27 0x00F8FFFF (fun w => .schk (w.extractLsb' 16 3)) ∧
  opcodeMeans 0x30 0x00888FFF
    (fun w => .padd (w.extractLsb' 20 3) (w.extractLsb' 16 3) (w.extractLsb' 12 3)) ∧
  opcodeMeans 0x31 0x0088FFFF (fun w => .pdbl (w.extractLsb' 20 3) (w.extractLsb' 16 3)) ∧
  opcodeMeans 0x32 0x00888FFF
    (fun w => .psmul (w.extractLsb' 20 3) (w.extractLsb' 16 3) (w.extractLsb' 12 3)) ∧
  opcodeMeans 0x33 0x008F8FFF (fun w => .psmulb (w.extractLsb' 20 3) (w.extractLsb' 12 3)) ∧
  opcodeMeans 0x34 0x0088FFFF (fun w => .pmov (w.extractLsb' 20 3) (w.extractLsb' 16 3)) ∧
  opcodeMeans 0x35 0x008FFFFF (fun w => .pldb (w.extractLsb' 20 3)) ∧
  opcodeMeans 0x36 0x008F0000 (fun w => .pdec (w.extractLsb' 20 3) (w.extractLsb' 0 16)) ∧
  opcodeMeans 0x37 0x008F0000 (fun w => .penc (w.extractLsb' 20 3) (w.extractLsb' 0 16)) ∧
  opcodeMeans 0x40 0x00FFFFFF (fun _ => .hinit) ∧
  opcodeMeans 0x41 0x00FF0000 (fun w => .hupd (w.extractLsb' 0 16)) ∧
  opcodeMeans 0x42 0x00FFFFFF (fun _ => .hupdm) ∧
  opcodeMeans 0x43 0x00FF0000 (fun w => .hfin (w.extractLsb' 0 16)) ∧
  opcodeMeans 0x50 0x008F0000 (fun w => .keyexp (w.extractLsb' 20 3) (w.extractLsb' 0 16)) ∧
  opcodeMeans 0x51 0x00FFFFFF (fun _ => .derive) ∧
  opcodeMeans 0x52 0x00FFFFFF (fun _ => .sign) ∧
  opcodeMeans 0x53 0x00FFFFFF (fun _ => .verify) ∧
  ∀ w : Word,
    w.extractLsb' 24 8 ∉ ([0x00, 0x01, 0x10, 0x11, 0x12, 0x13, 0x14, 0x15, 0x16, 0x17, 0x18, 0x20,
      0x21, 0x22, 0x23, 0x24, 0x25, 0x26, 0x27, 0x30, 0x31, 0x32, 0x33, 0x34, 0x35, 0x36, 0x37,
      0x40, 0x41, 0x42, 0x43, 0x50, 0x51, 0x52, 0x53] : List (BitVec 8)) →
    decode w = none

/-- Words written out in 95_test_vectors table 3.1.1, one or more per family. -/
def Obligations.SampleWordsDecodeToTheirCommands : Prop :=
  decode 0x00000000 = some .nop ∧
  decode 0x11F0F000 = some (.fsub 15 0 15) ∧
  decode 0x1610FFFF = some (.fli 1 0xFFFF) ∧
  decode 0x18400140 = some (.fst 4 0x0140) ∧
  decode 0x21320000 = some (.smul 3 2 0) ∧
  decode 0x27050000 = some (.schk 5) ∧
  decode 0x32375000 = some (.psmul 3 7 5) ∧
  decode 0x33601000 = some (.psmulb 6 1) ∧
  decode 0x37200140 = some (.penc 2 0x0140) ∧
  decode 0x43000FC0 = some (.hfin 0x0FC0) ∧
  decode 0x5070FFE0 = some (.keyexp 7 0xFFE0) ∧
  decode 0x53000000 = some .verify

/-- A word that matches no row of the map is illegal, and an illegal word raises `IllegalCommand`
whatever the registers hold, with no other effect (30_encoding R79, 60_exceptions R212). -/
def Obligations.IllegalWordsRaiseIllegalCommand : Prop :=
  (∀ w : Word, (∀ r ∈ opcodeMap, w &&& r.mask ≠ r.pattern) ↔ decode w = none) ∧
  (∀ (w : Word) (s : State), decode w = none → s.err = false →
    execWord w s = .next { s with err := true, cause := .illegalCommand, errcmd := w }) ∧
  decode 0x02000000 = none ∧ decode 0xFF000000 = none ∧ decode 0x00000001 = none ∧
  decode 0x10312001 = none ∧ decode 0x20800000 = none ∧ decode 0x13010100 = none ∧
  decode 0x13011000 = none ∧ decode 0x17F10FF0 = none ∧
  ∀ (w : Word) (op : Nat), op = (w.extractLsb' 24 8).toNat →
    (0x02 ≤ op ∧ op ≤ 0x0F) ∨ (0x19 ≤ op ∧ op ≤ 0x1F) ∨ (0x28 ≤ op ∧ op ≤ 0x2F) ∨
      (0x38 ≤ op ∧ op ≤ 0x3F) ∨ (0x44 ≤ op ∧ op ≤ 0x4F) ∨ (0x54 ≤ op ∧ op ≤ 0xFF) →
    decode w = none

/-! ### Faults and the error state -/

/-- In the error state every command word, legal or not, is dropped, and only the index moves; the
host's other accesses work as usual (60_exceptions R219): a write to another CSR or a memory byte lands,
a read ends and changes nothing but the list that holds what it returned. -/
def Obligations.ErrorStateDropsEveryCommand : Prop :=
  (∀ (w : Word) (s : State), s.err = true → execWord w s = .next s) ∧
  (∀ (i : Instr) (s : State), s.err = true → exec i s = .next s) ∧
  (∀ (w : Word) (s : State), s.err = true →
    perform (.csrWrite 0x00 w) s = .next { s with pc := s.pc + 1 }) ∧
  (∀ (s : State) (off : Nat) (v : Word), s.err = true → off ≠ 0x00 →
    perform (.csrWrite off v) s = .next (s.csrWrite off v)) ∧
  (∀ (s : State) (a : Nat) (b : Byte), s.err = true → a < s.params.dmemSize →
    ∃ t : State, perform (.dmemWrite a b) s = .next t ∧ t.dmemByte a = b) ∧
  (∀ (s : State) (a : BitVec 32) (b : Byte), s.err = true →
    ∃ t : State, perform (.msgWrite a b) s = .next t ∧ t.msgByte a.toNat = b) ∧
  (∀ (s : State) (off : Nat), s.err = true →
    ∃ t : State, perform (.csrRead off) s = .next t ∧ t = { s with reads := t.reads }) ∧
  (∀ (s : State) (a : Nat), s.err = true → a < s.params.dmemSize →
    ∃ t : State, perform (.dmemRead a) s = .next t ∧ t = { s with reads := t.reads }) ∧
  ∀ (s : State) (a : BitVec 32), s.err = true →
    ∃ t : State, perform (.msgRead a) s = .next t ∧ t = { s with reads := t.reads }

/-- Which fault a legal command raises outside the error state, and that it completes when it raises
none. `sourcesOf` and `rangesOf` are the source registers and the DMEM ranges of 60_exceptions R211
and 20_memory R57; an illegal word faults before them all. -/
def Obligations.FaultsFollowThePriority : Prop :=
  (∀ (w : Word) (s : State), s.err = false → decode w = none →
    execWord w s = .next (s.raise .illegalCommand w)) ∧
  (∀ (i : Instr) (s : State), s.err = false →
    (sourcesOf i).any s.sourceEmpty = true → faultsWith i s .emptyRegister) ∧
  (∀ (i : Instr) (s : State), s.err = false →
    (sourcesOf i).any s.sourceEmpty = false → (sourcesOf i).any s.sourceInvalid = true →
      faultsWith i s .invalidPointOperand) ∧
  (∀ (i : Instr) (s : State), s.err = false →
    (sourcesOf i).any s.sourceEmpty = false → (sourcesOf i).any s.sourceInvalid = false →
      (∃ r ∈ rangesOf s i, s.params.dmemSize < r.1.toNat + r.2) → faultsWith i s .addressRange) ∧
  ∀ (i : Instr) (s : State), s.err = false →
    (sourcesOf i).any s.sourceEmpty = false → (sourcesOf i).any s.sourceInvalid = false →
      (∀ r ∈ rangesOf s i, r.1.toNat + r.2 ≤ s.params.dmemSize) →
        ∃ t : State, exec i s = .next t ∧ t.err = false ∧ t.cause = s.cause ∧ t.errcmd = s.errcmd

/-- A command word that faults changes the fault record and nothing else, whichever word it is; the
record holds the code of the cause, 1 to 4, and the word; issued by the host, it advances the index by
one like any command (60_exceptions R216). -/
def Obligations.FaultingCommandsWriteOnlyTheFaultRecord : Prop :=
  (∀ (w : Word) (s t : State), s.err = false → execWord w s = .next t → t.err = true →
    t = { s with err := true, cause := t.cause, errcmd := w } ∧ t.cause ≠ .none) ∧
  (∀ (w : Word) (s t : State), s.err = false → perform (.csrWrite 0x00 w) s = .next t →
    t.err = true →
      t = { s with err := true, cause := t.cause, errcmd := w, pc := s.pc + 1 } ∧
        t.cause ≠ .none) ∧
  Cause.illegalCommand.code = 1 ∧ Cause.emptyRegister.code = 2 ∧
  Cause.invalidPointOperand.code = 3 ∧ Cause.addressRange.code = 4

/-- `CTRL` bit 0 clears the fault record and nothing else, so after a fault the state is exactly what
it was before the faulting command; nothing but such a write and the reset leaves the error state
(10_state R32, 60_exceptions R220). -/
def Obligations.OnlyClearAndResetLeaveTheErrorState : Prop :=
  (∀ (s : State) (v : Word), v.getLsbD 0 = true →
    s.csrWrite 0x14 v = { s with err := false, cause := .none, errcmd := 0 }) ∧
  (∀ (s : State) (v : Word), v.getLsbD 0 = false → s.csrWrite 0x14 v = s) ∧
  (∀ (w v : Word) (s t : State), s.err = false → s.cause = .none → s.errcmd = 0 →
    execWord w s = .next t → t.err = true → v.getLsbD 0 = true → t.csrWrite 0x14 v = s) ∧
  ∀ s t : State, s.err = true → step s = .next t → t.err = false →
    (∃ (v : Word) (rest : List HostAction),
      s.todo = .csrWrite 0x14 v :: rest ∧ v.getLsbD 0 = true) ∨
    ∃ rest : List HostAction, s.todo = .reset :: rest

/-- Whether and how a command faults depends only on the tags, the pointers and the parameters: in two
states that agree on these, with any register values, memory bytes, `MLEN`, flags and `HBUF`, a
command raises the same fault or completes in both (60_exceptions R211, 70_reset_and_hazards R252). -/
def Obligations.FaultsDependOnPublicStateOnly : Prop :=
  ∀ (i : Instr) (s t : State), samePublic s t → s.err = false → t.err = false →
    (∃ c : Cause, c ≠ .none ∧ faultsWith i s c ∧ faultsWith i t c) ∨
    ∃ s' t' : State, exec i s = .next s' ∧ exec i t = .next t' ∧ s'.err = false ∧ t'.err = false

/-! ### The host's accesses -/

/-- 45_system R202. -/
def Obligations.CsrReadsFollowTheMap : Prop :=
  (∀ s : State, s.csrRead 0x00 = 0) ∧
  (∀ s : State, s.csrRead 0x04 = if s.err then 1 else 0) ∧
  (∀ s : State, s.csrRead 0x08 = s.cause.code.setWidth 32) ∧
  (∀ s : State, s.csrRead 0x0C = s.errcmd) ∧
  (∀ s : State, (s.csrRead 0x10).toNat =
    s.flags.v.toNat + 2 * s.flags.pv.toNat + 4 * s.flags.sc.toNat) ∧
  (∀ s : State, s.csrRead 0x14 = 0) ∧
  (∀ s : State, s.csrRead 0x18 = s.mlen) ∧
  (∀ s : State, (s.csrRead 0x1C).toNat = s.skptr.toNat) ∧
  (∀ s : State, (s.csrRead 0x20).toNat = s.pkptr.toNat) ∧
  (∀ s : State, (s.csrRead 0x24).toNat = s.sgptr.toNat) ∧
  ∀ (s : State) (off : Nat),
    off ∉ [0x00, 0x04, 0x08, 0x0C, 0x10, 0x14, 0x18, 0x1C, 0x20, 0x24] → s.csrRead off = 0

/-- 45_system R203. -/
def Obligations.CsrWritesFollowTheMap : Prop :=
  (∀ (s : State) (v : Word), perform (.csrWrite 0x00 v) s = advancePc (execWord v s)) ∧
  (∀ (s : State) (v : Word), perform (.csrWrite 0x14 v) s =
    .next (if v.getLsbD 0 then { s with err := false, cause := .none, errcmd := 0 } else s)) ∧
  (∀ (s : State) (v : Word), perform (.csrWrite 0x18 v) s = .next { s with mlen := v }) ∧
  (∀ (s : State) (v : Word),
    perform (.csrWrite 0x1C v) s = .next { s with skptr := v.extractLsb' 0 16 }) ∧
  (∀ (s : State) (v : Word),
    perform (.csrWrite 0x20 v) s = .next { s with pkptr := v.extractLsb' 0 16 }) ∧
  (∀ (s : State) (v : Word),
    perform (.csrWrite 0x24 v) s = .next { s with sgptr := v.extractLsb' 0 16 }) ∧
  ∀ (s : State) (off : Nat) (v : Word),
    off ∉ [0x00, 0x14, 0x18, 0x1C, 0x20, 0x24] → perform (.csrWrite off v) s = .next s

/-- Host reads and host access to the memories (20_memory R56). What a read returns is appended to
`reads` (log entry 7); an access to DMEM at or above `DMEM_SIZE` is refused (log entry 8). -/
def Obligations.HostAccessesReadAndWriteSingleBytes : Prop :=
  (∀ (s : State) (off : Nat),
    perform (.csrRead off) s = .next { s with reads := s.reads ++ [s.csrRead off] }) ∧
  (∀ (s : State) (a : Nat), a < s.params.dmemSize →
    perform (.dmemRead a) s = .next { s with reads := s.reads ++ [(s.dmemByte a).setWidth 32] }) ∧
  (∀ (s : State) (a : BitVec 32), perform (.msgRead a) s =
    .next { s with reads := s.reads ++ [(s.msgByte a.toNat).setWidth 32] }) ∧
  (∀ (s : State) (a : Nat) (b : Byte), a < s.params.dmemSize → ∃ t : State,
    perform (.dmemWrite a b) s = .next t ∧ t = { s with dmem := t.dmem } ∧ t.dmemByte a = b ∧
      ∀ x : Nat, x ≠ a → t.dmemByte x = s.dmemByte x) ∧
  (∀ (s : State) (a : BitVec 32) (b : Byte), ∃ t : State,
    perform (.msgWrite a b) s = .next t ∧ t = { s with msg := t.msg } ∧ t.msgByte a.toNat = b ∧
      ∀ x : Nat, x ≠ a.toNat → t.msgByte x = s.msgByte x) ∧
  (∀ (s : State) (a : Nat), s.params.dmemSize ≤ a →
    perform (.dmemRead a) s = .refused .hostAccessOutsideDmem) ∧
  ∀ (s : State) (a : Nat) (b : Byte), s.params.dmemSize ≤ a →
    perform (.dmemWrite a b) s = .refused .hostAccessOutsideDmem

/-- The external reset brings every piece of the spec's state to its reset value, whatever it was
(70_reset_and_hazards R240, R241). That the parameters and the host's own data stay, and that the
memories hold unspecified bytes anew, is the model's (log entry 6). -/
def Obligations.ExternalResetGivesTheResetState : Prop :=
  ∀ s : State, perform .reset s = .next
    { State.reset with
      params := s.params, todo := s.todo, reads := s.reads, epoch := s.epoch + 1 }

/-! ### Byte strings, memories, registers -/

/-- 00_scope R12: `LE(b) = sum of b[i]·256^i`, its inverse, and where bit `j` lies. -/
def Obligations.LittleEndianBytesAndIntegers : Prop :=
  (∀ b : List Byte, leNat b = ∑ i : Fin b.length, b[i].toNat * 256 ^ i.val) ∧
  (∀ n v : Nat, v < 256 ^ n → (bytesLE n v).length = n ∧ leNat (bytesLE n v) = v) ∧
  (∀ b : List Byte, bytesLE b.length (leNat b) = b) ∧
  ∀ (b : List Byte) (j : Nat) (h : j / 8 < b.length),
    (leNat b).testBit j = (b[j / 8]).getLsbD (j % 8)

/-- `MemRead` and `MemWrite` (20_memory R53, R54): the check computed without wrap-around, the bytes
read, the bytes written and every other byte as it was. -/
def Obligations.MemReadAndMemWriteTouchExactlyTheirRange : Prop :=
  (∀ (s : State) (addr : Addr) (n : Nat),
    s.inDmem addr n = if addr.toNat + n ≤ s.params.dmemSize then .ok () else .error .addressRange) ∧
  (∀ (s : State) (addr : Addr) (n : Nat), (s.dmemRead addr n).length = n ∧
    ∀ i < n, (s.dmemRead addr n)[i]? = some (s.dmemByte (addr.toNat + i))) ∧
  (∀ (s : State) (addr : Addr) (v : List Byte),
    s.dmemWrite addr v = { s with dmem := (s.dmemWrite addr v).dmem }) ∧
  (∀ (s : State) (addr : Addr) (v : List Byte) (i : Nat) (h : i < v.length),
    (s.dmemWrite addr v).dmemByte (addr.toNat + i) = v[i]) ∧
  ∀ (s : State) (addr : Addr) (v : List Byte) (x : Nat),
    x < addr.toNat ∨ addr.toNat + v.length ≤ x → (s.dmemWrite addr v).dmemByte x = s.dmemByte x

/-- 00_scope section 5: a register write makes the register VALID with that value and changes nothing else. -/
def Obligations.RegisterWritesChangeOneRegister : Prop :=
  (∀ (s : State) (r q : FReg) (v : Fe), (s.setF r v).f.get q.toFin =
    if q = r then .valid v else s.f.get q.toFin) ∧
  (∀ (s : State) (r q : SReg) (v : BitVec 256), (s.setS r v).s.get q.toFin =
    if q = r then .valid v else s.s.get q.toFin) ∧
  (∀ (s : State) (r q : PReg) (v : PointCell), (s.setP r v).p.get q.toFin =
    if q = r then v else s.p.get q.toFin) ∧
  (∀ (s : State) (r : FReg) (v : Fe), s.setF r v = { s with f := (s.setF r v).f }) ∧
  (∀ (s : State) (r : SReg) (v : BitVec 256), s.setS r v = { s with s := (s.setS r v).s }) ∧
  ∀ (s : State) (r : PReg) (v : PointCell), s.setP r v = { s with p := (s.setP r v).p }

/-- `MsgRead` (20_memory R55): the `MLEN` bytes from address 0 on, and no command ever writes MSG. -/
def Obligations.MsgReadGivesTheMessage : Prop :=
  (∀ s : State, s.message.length = s.mlen.toNat ∧
    ∀ i < s.mlen.toNat, s.message[i]? = some (s.msgByte i)) ∧
  (∀ s : State, s.mlen = 0 → s.message = []) ∧
  ∀ (i : Instr) (s t : State), exec i s = .next t → t.msg = s.msg

/-- 10_state R25: each flag is written by one command, CLR and reset, and to which value; a faulting
command writes none, no command reads one, and the host reads them in the `FLAGS` CSR. -/
def Obligations.EachFlagHasOneWriter : Prop :=
  (∀ (i : Instr) (s t : State), exec i s = .next t →
    (i ≠ .verify → i ≠ .clr → t.flags.v = s.flags.v) ∧
    ((∀ (pd : PReg) (addr : Addr), i ≠ .pdec pd addr) → i ≠ .clr → t.flags.pv = s.flags.pv) ∧
    ((∀ r : SReg, i ≠ .schk r) → i ≠ .clr → t.flags.sc = s.flags.sc) ∧
    (s.err = false → t.err = true → t.flags = s.flags)) ∧
  (∀ (i : Instr) (s t : State) (g : Flags), exec i s = .next t →
    ∃ t' : State, exec i { s with flags := g } = .next t' ∧ { t' with flags := t.flags } = t) ∧
  State.reset.flags = ⟨false, false, false⟩ ∧
  (∀ s t : State, s.err = false → exec .clr s = .next t → t.flags = ⟨false, false, false⟩) ∧
  (∀ s t : State, s.err = false → exec .verify s = .next t → t.err = false →
    t.flags.v = verifySig Config.hash512 s.params.x0Sign1Reject (s.dmemRead s.sgptr 64)
      (s.dmemRead s.pkptr 32) s.message) ∧
  (∀ (pd : PReg) (addr : Addr) (s t : State), s.err = false → exec (.pdec pd addr) s = .next t →
    t.err = false → t.flags.pv = (ptDec s.params.x0Sign1Reject (s.dmemRead addr 32)).isSome) ∧
  (∀ (r : SReg) (a : BitVec 256) (s t : State), s.err = false → s.s.get r.toFin = .valid a →
    exec (.schk r) s = .next t → t.flags.sc = decide (a.toNat < groupOrder)) ∧
  ∀ s : State, (s.csrRead 0x10).toNat =
    s.flags.v.toNat + 2 * s.flags.pv.toNat + 4 * s.flags.sc.toNat

/-! ### System commands (45_system) -/

/-- R200, R201. -/
def Obligations.NopAndClrDoWhatTheirRulesSay : Prop :=
  opcodeMeans 0x00 0x00FFFFFF (fun _ => .nop) ∧
  opcodeMeans 0x01 0x00FFFFFF (fun _ => .clr) ∧
  (∀ s : State, exec .nop s = .next s) ∧
  (∀ s : State, perform (.csrWrite 0x00 0x00000000) s = .next { s with pc := s.pc + 1 }) ∧
  (∀ s : State, s.err = false → ∃ t : State, exec .clr s = .next t ∧
    (∀ r : FReg, t.f.get r.toFin = .empty) ∧ (∀ r : SReg, t.s.get r.toFin = .empty) ∧
    (∀ r : PReg, t.p.get r.toFin = .empty) ∧
    t = { s with f := t.f, s := t.s, p := t.p, flags := ⟨false, false, false⟩, hbuf := [] }) ∧
  ∀ s : State, s.err = true → exec .clr s = .next s

/-! ### Field commands (40_field) -/

/-- R104, R105, R106. -/
def Obligations.FaddFsubFmulDoWhatTheirRulesSay : Prop :=
  opcodeMeans 0x10 0x00000FFF
    (fun w => .fadd (w.extractLsb' 20 4) (w.extractLsb' 16 4) (w.extractLsb' 12 4)) ∧
  opcodeMeans 0x11 0x00000FFF
    (fun w => .fsub (w.extractLsb' 20 4) (w.extractLsb' 16 4) (w.extractLsb' 12 4)) ∧
  opcodeMeans 0x12 0x00000FFF
    (fun w => .fmul (w.extractLsb' 20 4) (w.extractLsb' 16 4) (w.extractLsb' 12 4)) ∧
  (∀ (fd fs1 fs2 : FReg) (s : State), s.err = false →
    s.f.get fs1.toFin = .empty ∨ s.f.get fs2.toFin = .empty →
      faultsWith (.fadd fd fs1 fs2) s .emptyRegister ∧
      faultsWith (.fsub fd fs1 fs2) s .emptyRegister ∧
      faultsWith (.fmul fd fs1 fs2) s .emptyRegister) ∧
  (∀ (fd fs1 fs2 : FReg) (a b : Fe) (s : State), s.err = false →
    s.f.get fs1.toFin = .valid a → s.f.get fs2.toFin = .valid b →
      ∃ v : Fe, v.val = (a.val + b.val) % P ∧
        exec (.fadd fd fs1 fs2) s = .next (s.setF fd v)) ∧
  (∀ (fd fs1 fs2 : FReg) (a b : Fe) (s : State), s.err = false →
    s.f.get fs1.toFin = .valid a → s.f.get fs2.toFin = .valid b →
      ∃ v : Fe, (v.val : Int) = ((a.val : Int) - (b.val : Int)) % (P : Int) ∧
        exec (.fsub fd fs1 fs2) s = .next (s.setF fd v)) ∧
  (∀ (fd fs1 fs2 : FReg) (a b : Fe) (s : State), s.err = false →
    s.f.get fs1.toFin = .valid a → s.f.get fs2.toFin = .valid b →
      ∃ v : Fe, v.val = a.val * b.val % P ∧
        exec (.fmul fd fs1 fs2) s = .next (s.setF fd v)) ∧
  ∀ x y : Fe, fSub (fAdd x y) y = x

/-- R107, R108, R109. -/
def Obligations.FsqrFinvFmovDoWhatTheirRulesSay : Prop :=
  opcodeMeans 0x13 0x0000FFFF (fun w => .fsqr (w.extractLsb' 20 4) (w.extractLsb' 16 4)) ∧
  opcodeMeans 0x14 0x0000FFFF (fun w => .finv (w.extractLsb' 20 4) (w.extractLsb' 16 4)) ∧
  opcodeMeans 0x15 0x0000FFFF (fun w => .fmov (w.extractLsb' 20 4) (w.extractLsb' 16 4)) ∧
  (∀ (fd fs1 : FReg) (s : State), s.err = false → s.f.get fs1.toFin = .empty →
    faultsWith (.fsqr fd fs1) s .emptyRegister ∧ faultsWith (.finv fd fs1) s .emptyRegister ∧
      faultsWith (.fmov fd fs1) s .emptyRegister) ∧
  (∀ (fd fs1 : FReg) (a : Fe) (s : State), s.err = false → s.f.get fs1.toFin = .valid a →
    (∃ v : Fe, v.val = a.val * a.val % P ∧ exec (.fsqr fd fs1) s = .next (s.setF fd v)) ∧
      exec (.fsqr fd fs1) s = exec (.fmul fd fs1 fs1) s) ∧
  (∀ (fd fs1 : FReg) (a : Fe) (s : State), s.err = false → s.f.get fs1.toFin = .valid a →
    ∃ v : Fe, v.val = a.val ^ (P - 2) % P ∧ exec (.finv fd fs1) s = .next (s.setF fd v)) ∧
  (∀ a : Fe, fInv (fInv a) = a) ∧
  (∀ (fd fs1 : FReg) (a : Fe) (s : State), s.err = false → s.f.get fs1.toFin = .valid a →
    exec (.fmov fd fs1) s = .next (s.setF fd a)) ∧
  ∀ (r : FReg) (a : Fe) (s : State), s.err = false → s.f.get r.toFin = .valid a →
    exec (.fmov r r) s = .next s

/-- R110, R111, R112. -/
def Obligations.FliFldFstDoWhatTheirRulesSay : Prop :=
  opcodeMeans 0x16 0x000F0000 (fun w => .fli (w.extractLsb' 20 4) (w.extractLsb' 0 16)) ∧
  opcodeMeans 0x17 0x000F0000 (fun w => .fld (w.extractLsb' 20 4) (w.extractLsb' 0 16)) ∧
  opcodeMeans 0x18 0x000F0000 (fun w => .fst (w.extractLsb' 20 4) (w.extractLsb' 0 16)) ∧
  (∀ (fd : FReg) (imm16 : BitVec 16) (s : State), s.err = false →
    ∃ v : Fe, v.val = imm16.toNat ∧ exec (.fli fd imm16) s = .next (s.setF fd v)) ∧
  (∀ (fd : FReg) (addr : Addr) (s : State), s.err = false →
    s.params.dmemSize < addr.toNat + 32 → faultsWith (.fld fd addr) s .addressRange) ∧
  (∀ (fd : FReg) (addr : Addr) (s : State), s.err = false →
    addr.toNat + 32 ≤ s.params.dmemSize →
      ∃ v : Fe, v.val = leNat (s.dmemRead addr 32) % P ∧
        exec (.fld fd addr) s = .next (s.setF fd v)) ∧
  (∀ (fs : FReg) (addr : Addr) (s : State), s.err = false → s.f.get fs.toFin = .empty →
    faultsWith (.fst fs addr) s .emptyRegister) ∧
  (∀ (fs : FReg) (addr : Addr) (v : Fe) (s : State), s.err = false →
    s.f.get fs.toFin = .valid v → s.params.dmemSize < addr.toNat + 32 →
      faultsWith (.fst fs addr) s .addressRange) ∧
  ∀ (fs : FReg) (addr : Addr) (v : Fe) (s : State), s.err = false →
    s.f.get fs.toFin = .valid v → addr.toNat + 32 ≤ s.params.dmemSize →
      ∃ b : List Byte, b.length = 32 ∧ leNat b = v.val ∧ (b[31]?.getD 0).getLsbD 7 = false ∧
        exec (.fst fs addr) s = .next (s.dmemWrite addr b)

/-! ### Scalar commands (41_scalar) -/

/-- R122, R123. -/
def Obligations.SaddSmulDoWhatTheirRulesSay : Prop :=
  opcodeMeans 0x20 0x00888FFF
    (fun w => .sadd (w.extractLsb' 20 3) (w.extractLsb' 16 3) (w.extractLsb' 12 3)) ∧
  opcodeMeans 0x21 0x00888FFF
    (fun w => .smul (w.extractLsb' 20 3) (w.extractLsb' 16 3) (w.extractLsb' 12 3)) ∧
  (∀ (sd ss1 ss2 : SReg) (s : State), s.err = false →
    s.s.get ss1.toFin = .empty ∨ s.s.get ss2.toFin = .empty →
      faultsWith (.sadd sd ss1 ss2) s .emptyRegister ∧
      faultsWith (.smul sd ss1 ss2) s .emptyRegister) ∧
  (∀ (sd ss1 ss2 : SReg) (a b : BitVec 256) (s : State), s.err = false →
    s.s.get ss1.toFin = .valid a → s.s.get ss2.toFin = .valid b →
      ∃ v : BitVec 256, v.toNat = (a.toNat + b.toNat) % groupOrder ∧
        exec (.sadd sd ss1 ss2) s = .next (s.setS sd v)) ∧
  (∀ (sd ss1 ss2 : SReg) (a b : BitVec 256) (s : State), s.err = false →
    s.s.get ss1.toFin = .valid a → s.s.get ss2.toFin = .valid b →
      ∃ v : BitVec 256, v.toNat = a.toNat * b.toNat % groupOrder ∧
        exec (.smul sd ss1 ss2) s = .next (s.setS sd v)) ∧
  (∀ a b : BitVec 256, sMul a b = sMul b a) ∧
  ∀ a b c : BitVec 256, sMul (sMul a b) c = sMul a (sMul b c)

/-- R124, R128, R129. -/
def Obligations.SmovSclampSchkDoWhatTheirRulesSay : Prop :=
  opcodeMeans 0x22 0x0088FFFF (fun w => .smov (w.extractLsb' 20 3) (w.extractLsb' 16 3)) ∧
  opcodeMeans 0x26 0x0088FFFF (fun w => .sclamp (w.extractLsb' 20 3) (w.extractLsb' 16 3)) ∧
  opcodeMeans 0x27 0x00F8FFFF (fun w => .schk (w.extractLsb' 16 3)) ∧
  (∀ (sd ss1 : SReg) (s : State), s.err = false → s.s.get ss1.toFin = .empty →
    faultsWith (.smov sd ss1) s .emptyRegister ∧ faultsWith (.sclamp sd ss1) s .emptyRegister ∧
      faultsWith (.schk ss1) s .emptyRegister) ∧
  (∀ (sd ss1 : SReg) (a : BitVec 256) (s : State), s.err = false → s.s.get ss1.toFin = .valid a →
    exec (.smov sd ss1) s = .next (s.setS sd a)) ∧
  (∀ (sd ss1 : SReg) (a : BitVec 256) (s : State), s.err = false → s.s.get ss1.toFin = .valid a →
    ∃ v : BitVec 256, v.toNat = (a.toNat &&& (2 ^ 255 - 8)) ||| 2 ^ 254 ∧
      exec (.sclamp sd ss1) s = .next (s.setS sd v)) ∧
  (∀ (ss1 : SReg) (a : BitVec 256) (s : State), s.err = false → s.s.get ss1.toFin = .valid a →
    exec (.schk ss1) s =
      .next { s with flags := { s.flags with sc := decide (a.toNat < groupOrder) } }) ∧
  ∀ a : BitVec 256, scalarCanonical (clamp a) = false

/-- R125, R126, R127. -/
def Obligations.SldSstSredDoWhatTheirRulesSay : Prop :=
  opcodeMeans 0x23 0x008F0000 (fun w => .sld (w.extractLsb' 20 3) (w.extractLsb' 0 16)) ∧
  opcodeMeans 0x24 0x008F0000 (fun w => .sst (w.extractLsb' 20 3) (w.extractLsb' 0 16)) ∧
  opcodeMeans 0x25 0x008F0000 (fun w => .sred (w.extractLsb' 20 3) (w.extractLsb' 0 16)) ∧
  (∀ (sd : SReg) (addr : Addr) (s : State), s.err = false →
    s.params.dmemSize < addr.toNat + 32 → faultsWith (.sld sd addr) s .addressRange) ∧
  (∀ (sd : SReg) (addr : Addr) (s : State), s.err = false →
    s.params.dmemSize < addr.toNat + 64 → faultsWith (.sred sd addr) s .addressRange) ∧
  (∀ (sd : SReg) (addr : Addr) (s : State), s.err = false →
    addr.toNat + 32 ≤ s.params.dmemSize →
      ∃ v : BitVec 256, v.toNat = leNat (s.dmemRead addr 32) ∧
        exec (.sld sd addr) s = .next (s.setS sd v)) ∧
  (∀ (sd : SReg) (addr : Addr) (s : State), s.err = false →
    addr.toNat + 64 ≤ s.params.dmemSize →
      ∃ v : BitVec 256, v.toNat = leNat (s.dmemRead addr 64) % groupOrder ∧
        exec (.sred sd addr) s = .next (s.setS sd v)) ∧
  (∀ (ss : SReg) (addr : Addr) (s : State), s.err = false → s.s.get ss.toFin = .empty →
    faultsWith (.sst ss addr) s .emptyRegister) ∧
  (∀ (ss : SReg) (addr : Addr) (v : BitVec 256) (s : State), s.err = false →
    s.s.get ss.toFin = .valid v → s.params.dmemSize < addr.toNat + 32 →
      faultsWith (.sst ss addr) s .addressRange) ∧
  (∀ (ss : SReg) (addr : Addr) (v : BitVec 256) (s : State), s.err = false →
    s.s.get ss.toFin = .valid v → addr.toNat + 32 ≤ s.params.dmemSize →
      ∃ b : List Byte, b.length = 32 ∧ leNat b = v.toNat ∧
        exec (.sst ss addr) s = .next (s.dmemWrite addr b)) ∧
  ∀ (r : SReg) (a1 a2 : Addr) (s : State), s.err = false → a1.toNat + 32 ≤ s.params.dmemSize →
    a2.toNat + 32 ≤ s.params.dmemSize → ∃ t : State, exec (.sld r a1) s = .next t ∧
      exec (.sst r a2) t = .next (t.dmemWrite a2 (s.dmemRead a1 32))

/-! ### Point commands (42_point section 4) -/

/-- R153, R154, R157, R158. -/
def Obligations.PaddPdblPmovPldbDoWhatTheirRulesSay : Prop :=
  opcodeMeans 0x30 0x00888FFF
    (fun w => .padd (w.extractLsb' 20 3) (w.extractLsb' 16 3) (w.extractLsb' 12 3)) ∧
  opcodeMeans 0x31 0x0088FFFF (fun w => .pdbl (w.extractLsb' 20 3) (w.extractLsb' 16 3)) ∧
  (∀ (pd ps1 ps2 : PReg) (s : State), s.err = false →
    s.p.get ps1.toFin = .empty ∨ s.p.get ps2.toFin = .empty →
      faultsWith (.padd pd ps1 ps2) s .emptyRegister) ∧
  (∀ (pd ps1 ps2 : PReg) (s : State), s.err = false →
    s.p.get ps1.toFin ≠ .empty → s.p.get ps2.toFin ≠ .empty →
      s.p.get ps1.toFin = .invalid ∨ s.p.get ps2.toFin = .invalid →
        faultsWith (.padd pd ps1 ps2) s .invalidPointOperand) ∧
  (∀ (pd ps1 ps2 : PReg) (q1 q2 : Point) (s : State), s.err = false →
    s.p.get ps1.toFin = .valid q1 → s.p.get ps2.toFin = .valid q2 →
      exec (.padd pd ps1 ps2) s = .next (s.setP pd (.valid (ptAdd q1 q2)))) ∧
  (∀ (pd ps1 : PReg) (s : State), s.err = false → s.p.get ps1.toFin = .empty →
    faultsWith (.pdbl pd ps1) s .emptyRegister) ∧
  (∀ (pd ps1 : PReg) (s : State), s.err = false → s.p.get ps1.toFin = .invalid →
    faultsWith (.pdbl pd ps1) s .invalidPointOperand) ∧
  (∀ (pd ps1 : PReg) (q : Point) (s : State), s.err = false → s.p.get ps1.toFin = .valid q →
    exec (.pdbl pd ps1) s = .next (s.setP pd (.valid (ptAdd q q))) ∧
      exec (.pdbl pd ps1) s = exec (.padd pd ps1 ps1) s) ∧
  opcodeMeans 0x34 0x0088FFFF (fun w => .pmov (w.extractLsb' 20 3) (w.extractLsb' 16 3)) ∧
  opcodeMeans 0x35 0x008FFFFF (fun w => .pldb (w.extractLsb' 20 3)) ∧
  (∀ (pd ps1 : PReg) (s : State), s.err = false → s.p.get ps1.toFin = .empty →
    faultsWith (.pmov pd ps1) s .emptyRegister) ∧
  (∀ (pd ps1 : PReg) (s : State), s.err = false → s.p.get ps1.toFin = .invalid →
    faultsWith (.pmov pd ps1) s .invalidPointOperand) ∧
  (∀ (pd ps1 : PReg) (q : Point) (s : State), s.err = false → s.p.get ps1.toFin = .valid q →
    exec (.pmov pd ps1) s = .next (s.setP pd (.valid q))) ∧
  (∀ (pd : PReg) (s : State), s.err = false →
    exec (.pldb pd) s = .next (s.setP pd (.valid basePoint))) ∧
  (∀ q : Point, ptAdd q idPoint = q) ∧
  (∀ q : Point, onCurve q = true → ptAdd q ⟨fSub (feOf 0) q.x, q.y⟩ = idPoint) ∧
  ptAdd basePoint ⟨feOf 0, feOf (P - 1)⟩ =
    ⟨fSub (feOf 0) basePoint.x, fSub (feOf 0) basePoint.y⟩ ∧
  ptAdd ⟨feOf 0, feOf (P - 1)⟩ ⟨feOf 0, feOf (P - 1)⟩ = idPoint ∧
  ptAdd ⟨sqrtM1, feOf 0⟩ ⟨sqrtM1, feOf 0⟩ = ⟨feOf 0, feOf (P - 1)⟩

/-- R155, R156. For every point of the curve (10_state R23: every VALID point register holds one, part
of `State.Inv`) the result is the `k`-fold sum of R144 by the whole 256-bit `k`; the command completes
for any pair of field elements. -/
def Obligations.PsmulPsmulbDoWhatTheirRulesSay : Prop :=
  opcodeMeans 0x32 0x00888FFF
    (fun w => .psmul (w.extractLsb' 20 3) (w.extractLsb' 16 3) (w.extractLsb' 12 3)) ∧
  opcodeMeans 0x33 0x008F8FFF (fun w => .psmulb (w.extractLsb' 20 3) (w.extractLsb' 12 3)) ∧
  (∀ (pd ps1 : PReg) (sk : SReg) (s : State), s.err = false →
    s.p.get ps1.toFin = .empty ∨ s.s.get sk.toFin = .empty →
      faultsWith (.psmul pd ps1 sk) s .emptyRegister) ∧
  (∀ (pd ps1 : PReg) (sk : SReg) (s : State), s.err = false →
    s.p.get ps1.toFin = .invalid → s.s.get sk.toFin ≠ .empty →
      faultsWith (.psmul pd ps1 sk) s .invalidPointOperand) ∧
  (∀ (pd ps1 : PReg) (sk : SReg) (q : Point) (k : BitVec 256) (s : State), s.err = false →
    s.p.get ps1.toFin = .valid q → s.s.get sk.toFin = .valid k →
      ∃ r : Point, exec (.psmul pd ps1 sk) s = .next (s.setP pd (.valid r)) ∧
        (onCurve q = true → r = ptSum k.toNat q)) ∧
  (∀ (pd : PReg) (sk : SReg) (s : State), s.err = false → s.s.get sk.toFin = .empty →
    faultsWith (.psmulb pd sk) s .emptyRegister) ∧
  (∀ (pd : PReg) (sk : SReg) (k : BitVec 256) (s : State), s.err = false →
    s.s.get sk.toFin = .valid k →
      exec (.psmulb pd sk) s = .next (s.setP pd (.valid (ptSum k.toNat basePoint))) ∧
      ∃ t : State, exec (.pldb pd) s = .next t ∧ exec (.psmul pd pd sk) t = exec (.psmulb pd sk) s) ∧
  (∀ k : Nat, ptSum k basePoint = ptSum (k % groupOrder) basePoint) ∧
  ptSum groupOrder ⟨feOf 0, feOf (P - 1)⟩ = ⟨feOf 0, feOf (P - 1)⟩

/-- R159, R160. -/
def Obligations.PdecPencDoWhatTheirRulesSay : Prop :=
  opcodeMeans 0x36 0x008F0000 (fun w => .pdec (w.extractLsb' 20 3) (w.extractLsb' 0 16)) ∧
  opcodeMeans 0x37 0x008F0000 (fun w => .penc (w.extractLsb' 20 3) (w.extractLsb' 0 16)) ∧
  (∀ (pd : PReg) (addr : Addr) (s : State), s.err = false →
    s.params.dmemSize < addr.toNat + 32 → faultsWith (.pdec pd addr) s .addressRange) ∧
  (∀ (pd : PReg) (addr : Addr) (s : State), s.err = false →
    addr.toNat + 32 ≤ s.params.dmemSize →
      ptDec s.params.x0Sign1Reject (s.dmemRead addr 32) = none →
        exec (.pdec pd addr) s =
          .next { s.setP pd .invalid with flags := { s.flags with pv := false } }) ∧
  (∀ (pd : PReg) (addr : Addr) (q : Point) (s : State), s.err = false →
    addr.toNat + 32 ≤ s.params.dmemSize →
      ptDec s.params.x0Sign1Reject (s.dmemRead addr 32) = some q →
        exec (.pdec pd addr) s =
          .next { s.setP pd (.valid q) with flags := { s.flags with pv := true } }) ∧
  (∀ (ps : PReg) (addr : Addr) (s : State), s.err = false → s.p.get ps.toFin = .empty →
    faultsWith (.penc ps addr) s .emptyRegister) ∧
  (∀ (ps : PReg) (addr : Addr) (s : State), s.err = false → s.p.get ps.toFin = .invalid →
    faultsWith (.penc ps addr) s .invalidPointOperand) ∧
  (∀ (ps : PReg) (addr : Addr) (q : Point) (s : State), s.err = false →
    s.p.get ps.toFin = .valid q → s.params.dmemSize < addr.toNat + 32 →
      faultsWith (.penc ps addr) s .addressRange) ∧
  ∀ (ps : PReg) (addr : Addr) (q : Point) (s : State), s.err = false →
    s.p.get ps.toFin = .valid q → addr.toNat + 32 ≤ s.params.dmemSize →
      ∃ b : List Byte, b.length = 32 ∧ leNat b = q.y.val + 2 ^ 255 * (q.x.val % 2) ∧
        leNat b % 2 ^ 255 < P ∧ exec (.penc ps addr) s = .next (s.dmemWrite addr b)

/-! ### Hash-port commands (43_hash_port) -/

/-- R171, R172, R173, R174, for every `hash512` (a constant with no body, log entry 2). -/
def Obligations.HashPortCommandsDoWhatTheirRulesSay : Prop :=
  opcodeMeans 0x40 0x00FFFFFF (fun _ => .hinit) ∧
  opcodeMeans 0x41 0x00FF0000 (fun w => .hupd (w.extractLsb' 0 16)) ∧
  opcodeMeans 0x42 0x00FFFFFF (fun _ => .hupdm) ∧
  opcodeMeans 0x43 0x00FF0000 (fun w => .hfin (w.extractLsb' 0 16)) ∧
  (∀ s : State, s.err = false → exec .hinit s = .next { s with hbuf := [] }) ∧
  (∀ (addr : Addr) (s : State), s.err = false → s.params.dmemSize < addr.toNat + 32 →
    faultsWith (.hupd addr) s .addressRange) ∧
  (∀ (addr : Addr) (s : State), s.err = false → addr.toNat + 32 ≤ s.params.dmemSize →
    exec (.hupd addr) s = .next { s with hbuf := s.hbuf ++ s.dmemRead addr 32 }) ∧
  (∀ s : State, s.err = false → exec .hupdm s = .next { s with hbuf := s.hbuf ++ s.message }) ∧
  (∀ s : State, s.err = false → s.mlen = 0 → exec .hupdm s = .next s) ∧
  (∀ (addr : Addr) (s : State), s.err = false → s.params.dmemSize < addr.toNat + 64 →
    faultsWith (.hfin addr) s .addressRange) ∧
  ∀ (addr : Addr) (s : State), s.err = false → addr.toNat + 64 ≤ s.params.dmemSize →
    ∃ t : State, exec (.hfin addr) s = .next t ∧
      t.dmemRead addr 64 = (Config.hash512 s.hbuf).toList ∧
      (∀ x : Nat, x < addr.toNat ∨ addr.toNat + 64 ≤ x → t.dmemByte x = s.dmemByte x) ∧
      t = { s with dmem := t.dmem, hbuf := [] }

/-! ### Pipeline commands (44_pipeline section 2) -/

/-- R184, R185. -/
def Obligations.KeyexpDeriveDoWhatTheirRulesSay : Prop :=
  opcodeMeans 0x50 0x008F0000 (fun w => .keyexp (w.extractLsb' 20 3) (w.extractLsb' 0 16)) ∧
  opcodeMeans 0x51 0x00FFFFFF (fun _ => .derive) ∧
  (∀ (sd : SReg) (addr : Addr) (s : State), s.err = false →
    s.params.dmemSize < s.skptr.toNat + 32 ∨ s.params.dmemSize < addr.toNat + 32 →
      faultsWith (.keyexp sd addr) s .addressRange) ∧
  (∀ (sd : SReg) (addr : Addr) (s : State), s.err = false →
    s.skptr.toNat + 32 ≤ s.params.dmemSize → addr.toNat + 32 ≤ s.params.dmemSize →
      ∃ t : State, exec (.keyexp sd addr) s = .next t ∧
        t = (s.setS sd (expandKey Config.hash512 (s.dmemRead s.skptr 32)).1).dmemWrite addr
          (expandKey Config.hash512 (s.dmemRead s.skptr 32)).2 ∧
        t.dmemRead addr 32 = (expandKey Config.hash512 (s.dmemRead s.skptr 32)).2) ∧
  (∀ s : State, s.err = false →
    s.params.dmemSize < s.skptr.toNat + 32 ∨ s.params.dmemSize < s.pkptr.toNat + 32 →
      faultsWith .derive s .addressRange) ∧
  ∀ s : State, s.err = false →
    s.skptr.toNat + 32 ≤ s.params.dmemSize → s.pkptr.toNat + 32 ≤ s.params.dmemSize →
      exec .derive s = .next (s.dmemWrite s.pkptr
        (derivePub Config.hash512 (s.dmemRead s.skptr 32)))

/-- R186, R187, and the six steps of signing (44_pipeline section 1) in the natural numbers. -/
def Obligations.SignVerifyDoWhatTheirRulesSay : Prop :=
  opcodeMeans 0x52 0x00FFFFFF (fun _ => .sign) ∧
  opcodeMeans 0x53 0x00FFFFFF (fun _ => .verify) ∧
  (∀ s : State, s.err = false →
    s.params.dmemSize < s.skptr.toNat + 32 ∨ s.params.dmemSize < s.pkptr.toNat + 32 ∨
      s.params.dmemSize < s.sgptr.toNat + 64 → faultsWith .sign s .addressRange) ∧
  (∀ s : State, s.err = false → s.skptr.toNat + 32 ≤ s.params.dmemSize →
    s.pkptr.toNat + 32 ≤ s.params.dmemSize → s.sgptr.toNat + 64 ≤ s.params.dmemSize →
      exec .sign s = .next (s.dmemWrite s.sgptr (signMsg Config.hash512
        (s.dmemRead s.pkptr 32) (s.dmemRead s.skptr 32) s.message))) ∧
  (∀ s : State, s.err = false →
    s.params.dmemSize < s.sgptr.toNat + 64 ∨ s.params.dmemSize < s.pkptr.toNat + 32 →
      faultsWith .verify s .addressRange) ∧
  (∀ s : State, s.err = false → s.sgptr.toNat + 64 ≤ s.params.dmemSize →
    s.pkptr.toNat + 32 ≤ s.params.dmemSize →
      exec .verify s = .next { s with flags := { s.flags with
        v := verifySig Config.hash512 s.params.x0Sign1Reject (s.dmemRead s.sgptr 64)
          (s.dmemRead s.pkptr 32) s.message } }) ∧
  ∀ (hash : HashFn) (pub sk m : List Byte),
    let a := (expandKey hash sk).1.toNat
    let b := (expandKey hash sk).2
    let r := leNat (hash (b ++ m)).toList % groupOrder
    let bigR := ptEnc (ptSum r basePoint)
    let sPre := leNat (hash (bigR ++ pub ++ m)).toList % groupOrder
    let bigS := (r + sPre * a) % groupOrder
    signMsg hash pub sk m = bigR ++ bytesLE 32 bigS ∧ (signMsg hash pub sk m).length = 64 ∧
      bigS < groupOrder

/-! ### Frames (10_state R38) -/

/-- The field commands write one field register, FST a DMEM range, and nothing else. -/
def Obligations.FieldCommandFrame : Prop :=
  (∀ (fd fs1 fs2 : FReg) (imm16 : BitVec 16) (addr : Addr) (i : Instr) (s t : State),
    i ∈ [.fadd fd fs1 fs2, .fsub fd fs1 fs2, .fmul fd fs1 fs2, .fsqr fd fs1, .finv fd fs1,
      .fmov fd fs1, .fli fd imm16, .fld fd addr] → exec i s = .next t →
      (∀ q : FReg, q ≠ fd → t.f.get q.toFin = s.f.get q.toFin) ∧ t.s = s.s ∧ t.p = s.p ∧
      t.flags = s.flags ∧ t.hbuf = s.hbuf ∧ memoryFrame i s t ∧ sameSettings s t ∧
      recordFrame s t) ∧
  ∀ (fs : FReg) (addr : Addr) (s t : State), exec (.fst fs addr) s = .next t →
    t.f = s.f ∧ t.s = s.s ∧ t.p = s.p ∧ t.flags = s.flags ∧ t.hbuf = s.hbuf ∧
    memoryFrame (.fst fs addr) s t ∧ sameSettings s t ∧ recordFrame s t

/-- The scalar commands write one scalar register, SST a DMEM range, SCHK the flag SC, and nothing
else. -/
def Obligations.ScalarCommandFrame : Prop :=
  (∀ (sd ss1 ss2 : SReg) (addr : Addr) (i : Instr) (s t : State),
    i ∈ [.sadd sd ss1 ss2, .smul sd ss1 ss2, .smov sd ss1, .sld sd addr, .sred sd addr,
      .sclamp sd ss1] → exec i s = .next t →
      (∀ q : SReg, q ≠ sd → t.s.get q.toFin = s.s.get q.toFin) ∧ t.f = s.f ∧ t.p = s.p ∧
      t.flags = s.flags ∧ t.hbuf = s.hbuf ∧ memoryFrame i s t ∧ sameSettings s t ∧
      recordFrame s t) ∧
  (∀ (ss : SReg) (addr : Addr) (s t : State), exec (.sst ss addr) s = .next t →
    t.f = s.f ∧ t.s = s.s ∧ t.p = s.p ∧ t.flags = s.flags ∧ t.hbuf = s.hbuf ∧
    memoryFrame (.sst ss addr) s t ∧ sameSettings s t ∧ recordFrame s t) ∧
  ∀ (ss1 : SReg) (s t : State), exec (.schk ss1) s = .next t →
    t.f = s.f ∧ t.s = s.s ∧ t.p = s.p ∧ t.flags.v = s.flags.v ∧ t.flags.pv = s.flags.pv ∧
    t.hbuf = s.hbuf ∧ memoryFrame (.schk ss1) s t ∧ sameSettings s t ∧ recordFrame s t

/-- The point commands write one point register, PDEC also the flag PV, PENC a DMEM range, and
nothing else. -/
def Obligations.PointCommandFrame : Prop :=
  (∀ (pd ps1 ps2 : PReg) (sk : SReg) (i : Instr) (s t : State),
    i ∈ [.padd pd ps1 ps2, .pdbl pd ps1, .psmul pd ps1 sk, .psmulb pd sk, .pmov pd ps1,
      .pldb pd] → exec i s = .next t →
      (∀ q : PReg, q ≠ pd → t.p.get q.toFin = s.p.get q.toFin) ∧ t.f = s.f ∧ t.s = s.s ∧
      t.flags = s.flags ∧ t.hbuf = s.hbuf ∧ memoryFrame i s t ∧ sameSettings s t ∧
      recordFrame s t) ∧
  (∀ (pd : PReg) (addr : Addr) (s t : State), exec (.pdec pd addr) s = .next t →
    (∀ q : PReg, q ≠ pd → t.p.get q.toFin = s.p.get q.toFin) ∧ t.f = s.f ∧ t.s = s.s ∧
    t.flags.v = s.flags.v ∧ t.flags.sc = s.flags.sc ∧ t.hbuf = s.hbuf ∧
    memoryFrame (.pdec pd addr) s t ∧ sameSettings s t ∧ recordFrame s t) ∧
  ∀ (ps : PReg) (addr : Addr) (s t : State), exec (.penc ps addr) s = .next t →
    t.f = s.f ∧ t.s = s.s ∧ t.p = s.p ∧ t.flags = s.flags ∧ t.hbuf = s.hbuf ∧
    memoryFrame (.penc ps addr) s t ∧ sameSettings s t ∧ recordFrame s t

/-- The system and hash-port commands: NOP writes nothing, CLR no memory, the hash-port commands only
`HBUF` and, HFIN, a DMEM range. -/
def Obligations.SystemAndHashPortCommandFrame : Prop :=
  (∀ s t : State, exec .nop s = .next t → t = s) ∧
  (∀ s t : State, exec .clr s = .next t →
    memoryFrame .clr s t ∧ sameSettings s t ∧ t.err = s.err ∧ t.cause = s.cause ∧
    t.errcmd = s.errcmd) ∧
  ∀ (addr : Addr) (i : Instr) (s t : State),
    i ∈ [.hinit, .hupd addr, .hupdm, .hfin addr] → exec i s = .next t →
      t.f = s.f ∧ t.s = s.s ∧ t.p = s.p ∧ t.flags = s.flags ∧ memoryFrame i s t ∧
      sameSettings s t ∧ recordFrame s t

/-- 44_pipeline R188: the pipeline commands write their one output, KEYEXP also its scalar register,
VERIFY only the flag V, and nothing else; and they do not read `f`, `s`, `p` or `HBUF`: with other
contents there, they do the same. -/
def Obligations.PipelineCommandsTouchOnlyWhatTheirRuleNames : Prop :=
  (∀ (sd : SReg) (addr : Addr) (s t : State), exec (.keyexp sd addr) s = .next t →
    (∀ q : SReg, q ≠ sd → t.s.get q.toFin = s.s.get q.toFin) ∧ t.f = s.f ∧ t.p = s.p ∧
    t.flags = s.flags ∧ t.hbuf = s.hbuf ∧ memoryFrame (.keyexp sd addr) s t ∧
    sameSettings s t ∧ recordFrame s t) ∧
  (∀ (i : Instr) (s t : State), i = .derive ∨ i = .sign → exec i s = .next t →
    t.f = s.f ∧ t.s = s.s ∧ t.p = s.p ∧ t.flags = s.flags ∧ t.hbuf = s.hbuf ∧
    memoryFrame i s t ∧ sameSettings s t ∧ recordFrame s t) ∧
  (∀ s t : State, exec .verify s = .next t →
    t.f = s.f ∧ t.s = s.s ∧ t.p = s.p ∧ t.flags.pv = s.flags.pv ∧ t.flags.sc = s.flags.sc ∧
    t.hbuf = s.hbuf ∧ memoryFrame .verify s t ∧ sameSettings s t ∧ recordFrame s t) ∧
  (∀ (i : Instr) (s t : State) (f : Vector (Tagged Fe) 16) (r : Vector (Tagged (BitVec 256)) 8)
      (p : Vector PointCell 8) (h : List Byte),
    i = .derive ∨ i = .sign ∨ i = .verify → exec i s = .next t →
      t.f = s.f ∧ t.s = s.s ∧ t.p = s.p ∧ t.hbuf = s.hbuf ∧
      exec i { s with f := f, s := r, p := p, hbuf := h } =
        .next { t with f := f, s := r, p := p, hbuf := h }) ∧
  ∀ (sd : SReg) (addr : Addr) (s t : State) (f : Vector (Tagged Fe) 16)
      (r : Vector (Tagged (BitVec 256)) 8) (p : Vector PointCell 8) (h : List Byte),
    exec (.keyexp sd addr) s = .next t →
      t.f = s.f ∧ t.p = s.p ∧ t.hbuf = s.hbuf ∧
      (∀ q : SReg, q ≠ sd → t.s.get q.toFin = s.s.get q.toFin) ∧
      ∃ r' : Vector (Tagged (BitVec 256)) 8,
        exec (.keyexp sd addr) { s with f := f, s := r, p := p, hbuf := h } =
          .next { t with f := f, s := r', p := p, hbuf := h } ∧
        (t.err = false → r'.get sd.toFin = t.s.get sd.toFin) ∧
        ∀ q : SReg, q ≠ sd → r'.get q.toFin = r.get q.toFin

/-! ### Functions of the field and of the scalars -/

/-- 40_field R100, R101: the field functions are arithmetic modulo `P`; and the laws of R113. -/
def Obligations.FieldFunctionsAreArithmeticModuloP : Prop :=
  P = 2 ^ 255 - 19 ∧ (∀ a : Fe, a.val < P) ∧
  (∀ a b : Fe, (fAdd a b).val = (a.val + b.val) % P) ∧
  (∀ a b : Fe, ((fSub a b).val : Int) = ((a.val : Int) - (b.val : Int)) % (P : Int)) ∧
  (∀ a b : Fe, (fMul a b).val = a.val * b.val % P) ∧
  (∀ a : Fe, (fInv a).val = a.val ^ (P - 2) % P) ∧
  fInv (feOf 0) = feOf 0 ∧
  (∀ a : Fe, a ≠ feOf 0 → fMul a (fInv a) = feOf 1) ∧
  (∀ a b : Fe, fAdd a b = fAdd b a ∧ fMul a b = fMul b a) ∧
  (∀ a b c : Fe, fAdd (fAdd a b) c = fAdd a (fAdd b c) ∧
    fMul (fMul a b) c = fMul a (fMul b c) ∧
    fMul a (fAdd b c) = fAdd (fMul a b) (fMul a c)) ∧
  (∀ a : Fe, fAdd a (feOf 0) = a ∧ fMul a (feOf 1) = a ∧ fAdd a (fSub (feOf 0) a) = feOf 0) ∧
  (∀ a b : Fe, fSub a b = fAdd a (fSub (feOf 0) b)) ∧
  (∀ a : Fe, fMul (fInv a) a = feOf 1 ↔ a ≠ feOf 0) ∧
  feOf 0 ≠ feOf 1

/-- 40_field R102, R103. -/
def Obligations.FieldBytesDecodeAndEncode : Prop :=
  (∀ b : List Byte, b.length = 32 → (fDec b).val = leNat b % P) ∧
  (∀ v : Fe, (fEnc v).length = 32 ∧ leNat (fEnc v) = v.val ∧
    ((fEnc v)[31]?.getD 0).getLsbD 7 = false ∧ fDec (fEnc v) = v) ∧
  ∀ b : List Byte, b.length = 32 → (fEnc (fDec b) = b ↔ leNat b < P)

/-- 41_scalar R120, R121: reduction; clamping as bits, as arithmetic and as bytes; and the scalar laws
of R130. -/
def Obligations.ScalarFunctionsAndTheirLaws : Prop :=
  groupOrder = 2 ^ 252 + 27742317777372353535851937790883648493 ∧
  (∀ v : Nat, (scRed v).toNat = v % groupOrder ∧ (scRed v).toNat < groupOrder) ∧
  groupOrder < 2 ^ 253 ∧
  (∀ v : BitVec 256, scalarCanonical v = true ↔ v.toNat < groupOrder) ∧
  (∀ v : BitVec 256, (clamp v).toNat = (v.toNat &&& (2 ^ 255 - 8)) ||| 2 ^ 254) ∧
  (∀ (v : BitVec 256) (i : Nat), i < 256 → (clamp v).getLsbD i =
    if i = 0 ∨ i = 1 ∨ i = 2 ∨ i = 255 then false else if i = 254 then true else v.getLsbD i) ∧
  (∀ v : BitVec 256, 2 ^ 254 ≤ (clamp v).toNat ∧ (clamp v).toNat ≤ 2 ^ 255 - 8 ∧
    (clamp v).toNat % 8 = 0 ∧ groupOrder ≤ (clamp v).toNat) ∧
  (∀ v : BitVec 256, clamp (clamp v) = clamp v) ∧
  (∀ (b0 b31 : Byte) (mid : List Byte), mid.length = 30 →
    scalarBytes (clamp (scalarOfBytes (b0 :: mid ++ [b31]))) =
      (b0 &&& 0xF8) :: mid ++ [(b31 &&& 0x7F) ||| 0x40]) ∧
  (∀ a b : BitVec 256, (sAdd a b).toNat = (a.toNat + b.toNat) % groupOrder ∧
    (sMul a b).toNat = a.toNat * b.toNat % groupOrder) ∧
  (∀ a b : BitVec 256, sAdd a b = sAdd (scRed a.toNat) (scRed b.toNat) ∧
    sMul a b = sMul (scRed a.toNat) (scRed b.toNat)) ∧
  (∀ r k a : BitVec 256, sAdd r (sMul k a) = sAdd r (sMul k (scRed a.toNat))) ∧
  (∀ a b : BitVec 256, sAdd a b = sAdd b a ∧ sMul a b = sMul b a) ∧
  ∀ a b c : BitVec 256, sAdd (sAdd a b) c = sAdd a (sAdd b c) ∧
    sMul (sMul a b) c = sMul a (sMul b c) ∧ sMul a (sAdd b c) = sAdd (sMul a b) (sMul a c)

/-! ### The curve -/

/-- 42_point R140, R142: the curve equation, the addition law, its denominators never zero on the
curve, closure, the neutral element, commutativity. The constant `D` is that of 00_scope R7. -/
def Obligations.PtAddIsTheCompleteAdditionLaw : Prop :=
  fMul curveD (feOf 121666) = fSub (feOf 0) (feOf 121665) ∧
  (∀ x y : Fe, onCurve ⟨x, y⟩ = true ↔
    ((y.val : Int) * y.val - (x.val : Int) * x.val - 1 -
      (curveD.val : Int) * x.val * x.val * y.val * y.val) % (P : Int) = 0) ∧
  (∀ x1 y1 x2 y2 t : Fe, t = fMul (fMul (fMul (fMul curveD x1) x2) y1) y2 →
    ptAdd ⟨x1, y1⟩ ⟨x2, y2⟩ =
      ⟨fMul (fAdd (fMul x1 y2) (fMul y1 x2)) (fInv (fAdd (feOf 1) t)),
        fMul (fAdd (fMul y1 y2) (fMul x1 x2)) (fInv (fSub (feOf 1) t))⟩) ∧
  (∀ x1 y1 x2 y2 t : Fe, t = fMul (fMul (fMul (fMul curveD x1) x2) y1) y2 →
    onCurve ⟨x1, y1⟩ = true → onCurve ⟨x2, y2⟩ = true →
      fAdd (feOf 1) t ≠ feOf 0 ∧ fSub (feOf 1) t ≠ feOf 0 ∧
        onCurve (ptAdd ⟨x1, y1⟩ ⟨x2, y2⟩) = true) ∧
  (∀ q : Point, ptAdd q idPoint = q) ∧
  ∀ a b : Point, ptAdd a b = ptAdd b a

/-- 42_point R141: the points of the curve are a commutative group of `8·L` elements, and the addition
law is complete because −1 is a square and `D` is not. -/
def Obligations.CurvePointsFormAGroupOfEightTimesLElements : Prop :=
  (∀ a b : Point, onCurve a = true → onCurve b = true → onCurve (ptAdd a b) = true) ∧
  (∀ a b c : Point, onCurve a = true → onCurve b = true → onCurve c = true →
    ptAdd (ptAdd a b) c = ptAdd a (ptAdd b c)) ∧
  (∀ a b : Point, ptAdd a b = ptAdd b a) ∧
  onCurve idPoint = true ∧ (∀ a : Point, ptAdd idPoint a = a) ∧
  (∀ a : Point, onCurve a = true → onCurve ⟨fSub (feOf 0) a.x, a.y⟩ = true ∧
    ptAdd a ⟨fSub (feOf 0) a.x, a.y⟩ = idPoint) ∧
  Nat.card { q : Point // onCurve q = true } = 8 * groupOrder ∧
  fMul sqrtM1 sqrtM1 = fSub (feOf 0) (feOf 1) ∧ (∀ x : Fe, fMul x x ≠ curveD) ∧
  ∀ x1 y1 x2 y2 : Fe, onCurve ⟨x1, y1⟩ = true → onCurve ⟨x2, y2⟩ = true →
    fAdd (feOf 1) (fMul (fMul (fMul (fMul curveD x1) x2) y1) y2) ≠ feOf 0 ∧
      fSub (feOf 1) (fMul (fMul (fMul (fMul curveD x1) x2) y1) y2) ≠ feOf 0

/-- 42_point R143: the base point, with the coordinates of 00_scope R7, is on the curve and has order
exactly `L`. -/
def Obligations.BasePointHasOrderL : Prop :=
  idPoint = ⟨feOf 0, feOf 1⟩ ∧
  basePoint.x.val =
    15112221349535400772501151409588531511454012693041857206046113283949847762202 ∧
  fMul (feOf 5) basePoint.y = feOf 4 ∧
  onCurve basePoint = true ∧ ptSum groupOrder basePoint = idPoint ∧
  (∀ k : Nat, 0 < k → k < groupOrder → ptSum k basePoint ≠ idPoint) ∧
  ptEnc basePoint = 0x58 :: List.replicate 31 0x66

/-- 42_point R144: `PtMul` is the `k`-fold sum, for every 256-bit `k` and every point of the curve,
never reduced modulo `L`; it repeats only modulo `8·L`. That the machine computes it with the ladder
of R148 is the model's (log entry 10). -/
def Obligations.PtMulIsTheKFoldSum : Prop :=
  (∀ q : Point, ptSum 0 q = idPoint) ∧
  (∀ (k : Nat) (q : Point), ptSum (k + 1) q = ptAdd (ptSum k q) q) ∧
  (∀ (k : BitVec 256) (q : Point), onCurve q = true → ptMul k q = ptSum k.toNat q) ∧
  (∀ k : Nat, ptSum k basePoint = ptSum (k % groupOrder) basePoint) ∧
  (∀ (k : Nat) (q : Point), onCurve q = true → ptSum k q = ptSum (k % (8 * groupOrder)) q) ∧
  ∃ q : Point, onCurve q = true ∧ ptSum groupOrder q ≠ ptSum (groupOrder % groupOrder) q

/-- 42_point R145 to R148: the reference datapath represents the group law and the `k`-fold sum. -/
def Obligations.ReferenceDatapathRepresentsTheGroupLaw : Prop :=
  ExtPoint.represents ⟨feOf 0, feOf 1, feOf 1, feOf 0⟩ idPoint ∧
  (∀ q : Point, ExtPoint.represents ⟨q.x, q.y, feOf 1, fMul q.x q.y⟩ q) ∧
  (∀ (e1 e2 : ExtPoint) (q1 q2 : Point), e1.represents q1 → e2.represents q2 →
    onCurve q1 = true → onCurve q2 = true → (extAdd e1 e2).represents (ptAdd q1 q2)) ∧
  (∀ (e : ExtPoint) (q : Point), e.represents q → onCurve q = true →
    (extDbl e).represents (ptAdd q q)) ∧
  ∀ (k : BitVec 256) (q : Point), onCurve q = true →
    (extLadder k.toNat ⟨q.x, q.y, feOf 1, fMul q.x q.y⟩ 256
      ⟨feOf 0, feOf 1, feOf 1, feOf 0⟩).represents (ptSum k.toNat q)

/-- 42_point R149: packed points, and that no two points share an encoding. -/
def Obligations.PtEncIsInjectiveOnTheCurve : Prop :=
  (∀ q : Point, (ptEnc q).length = 32 ∧
    leNat (ptEnc q) = q.y.val + 2 ^ 255 * (q.x.val % 2)) ∧
  (∀ q : Point, (ptEnc q).take 31 = (fEnc q.y).take 31 ∧
    ∀ j : Nat, j < 8 → ((ptEnc q)[31]?.getD 0).getLsbD j =
      if j = 7 then decide (q.x.val % 2 = 1) else ((fEnc q.y)[31]?.getD 0).getLsbD j) ∧
  (∀ a b : Point, onCurve a = true → onCurve b = true → (ptEnc a = ptEnc b ↔ a = b)) ∧
  ∀ y : Fe, leNat (ptEnc ⟨feOf 0, y⟩) < 2 ^ 255

/-- 42_point R150: decoding, whole. With `n = LE(b)`, `y` the low 255 bits reduced and the sign bit:
what is returned is on the curve, has that `y`, and its parity is the sign bit unless `x = 0`; INVALID
is answered exactly when the curve has no point with that `y`, or when `x = 0`, the sign bit is 1 and
`X0_SIGN1_REJECT` holds. Decoding
an encoding gives the point back, and encoding what was decoded gives the canonical strings back. -/
def Obligations.PtDecFindsThePointOrThereIsNone : Prop :=
  (∀ (reject : Bool) (b : List Byte) (q : Point), b.length = 32 → ptDec reject b = some q →
    onCurve q = true ∧ q.y.val = leNat b % 2 ^ 255 % P ∧
      (q.x ≠ feOf 0 → q.x.val % 2 = leNat b / 2 ^ 255)) ∧
  (∀ (reject : Bool) (b : List Byte), b.length = 32 → (ptDec reject b = none ↔
    (∀ x : Fe, onCurve ⟨x, feOf (leNat b % 2 ^ 255)⟩ = false) ∨
      (onCurve ⟨feOf 0, feOf (leNat b % 2 ^ 255)⟩ = true ∧ leNat b / 2 ^ 255 = 1 ∧
        reject = true))) ∧
  (∀ y : Fe, fAdd (fMul (fMul curveD y) y) (feOf 1) ≠ feOf 0) ∧
  (∀ (reject : Bool) (q : Point), onCurve q = true → ptDec reject (ptEnc q) = some q) ∧
  ∀ (b : List Byte) (q : Point), b.length = 32 → ptDec false b = some q →
    (ptEnc q = b ↔ leNat b % 2 ^ 255 < P ∧ ¬(q.x = feOf 0 ∧ leNat b / 2 ^ 255 = 1))

/-- 42_point R151: the square root of `u/v`. -/
def Obligations.SqrtRatioFindsARootOrThereIsNone : Prop :=
  (∀ u v c : Fe,
    c = fMul (fMul u (fMul (fMul v v) v))
      (fPow (fMul u (fMul (fMul (fMul (fMul v v) v) (fMul (fMul v v) v)) v)) ((P - 5) / 8)) →
    sqrtRatio u v = if fMul v (fMul c c) = u then some c
      else if fMul v (fMul c c) = fSub (feOf 0) u then some (fMul c sqrtM1) else none) ∧
  (∀ u v x0 : Fe, v ≠ feOf 0 → sqrtRatio u v = some x0 → fMul x0 x0 = fMul u (fInv v)) ∧
  (∀ u v : Fe, u ≠ feOf 0 → v ≠ feOf 0 →
    (sqrtRatio u v = none ↔ ∀ x : Fe, fMul x x ≠ fMul u (fInv v))) ∧
  ∀ u v x0 x : Fe, v ≠ feOf 0 → sqrtRatio u v = some x0 →
    (fMul x x = fMul u (fInv v) ↔ x = x0 ∨ x = fSub (feOf 0) x0)

/-- 42_point R152: the three inputs with `x = 0` and sign bit 1. -/
def Obligations.ThreeInputsHaveXZeroAndSignOne : Prop :=
  State.reset.params.x0Sign1Reject = false ∧
  (∀ y : Fe, onCurve ⟨feOf 0, y⟩ = true ↔ y = feOf 1 ∨ y = feOf (P - 1)) ∧
  (∀ b : List Byte, b.length = 32 →
    ((onCurve ⟨feOf 0, feOf (leNat b % 2 ^ 255)⟩ = true ∧ leNat b / 2 ^ 255 = 1) ↔
      b = 0x01 :: List.replicate 30 0x00 ++ [0x80] ∨ b = 0xEE :: List.replicate 31 0xFF ∨
        b = 0xEC :: List.replicate 31 0xFF)) ∧
  (∀ b : List Byte, b = 0x01 :: List.replicate 30 0x00 ++ [0x80] ∨
      b = 0xEE :: List.replicate 31 0xFF ∨ b = 0xEC :: List.replicate 31 0xFF →
    ptDec false b = some ⟨feOf 0, feOf (leNat b % 2 ^ 255)⟩ ∧ ptDec true b = none) ∧
  ∀ b : List Byte, b.length = 32 →
    ¬(onCurve ⟨feOf 0, feOf (leNat b % 2 ^ 255)⟩ = true ∧ leNat b / 2 ^ 255 = 1) →
      ptDec true b = ptDec false b

/-- 42_point R161: the small-order points. -/
def Obligations.SmallOrderPointsBehaveAsListed : Prop :=
  ptEnc idPoint = 0x01 :: List.replicate 31 0x00 ∧
  ptEnc ⟨feOf 0, feOf (P - 1)⟩ = 0xEC :: List.replicate 30 0xFF ++ [0x7F] ∧
  ptEnc ⟨sqrtM1, feOf 0⟩ = List.replicate 32 0x00 ∧
  ptEnc ⟨fSub (feOf 0) sqrtM1, feOf 0⟩ = List.replicate 31 0x00 ++ [0x80] ∧
  onCurve idPoint = true ∧ onCurve ⟨feOf 0, feOf (P - 1)⟩ = true ∧
  onCurve ⟨sqrtM1, feOf 0⟩ = true ∧ onCurve ⟨fSub (feOf 0) sqrtM1, feOf 0⟩ = true ∧
  ptSum 1 idPoint = idPoint ∧
  ptSum 2 ⟨feOf 0, feOf (P - 1)⟩ = idPoint ∧
  ptSum 2 ⟨sqrtM1, feOf 0⟩ = ⟨feOf 0, feOf (P - 1)⟩ ∧
  ptSum 4 ⟨sqrtM1, feOf 0⟩ = idPoint ∧
  ptSum 4 ⟨fSub (feOf 0) sqrtM1, feOf 0⟩ = idPoint ∧
  ptSum groupOrder ⟨feOf 0, feOf (P - 1)⟩ = ⟨feOf 0, feOf (P - 1)⟩ ∧
  ptSum groupOrder ⟨sqrtM1, feOf 0⟩ = ⟨sqrtM1, feOf 0⟩ ∧
  ptSum (groupOrder % groupOrder) ⟨feOf 0, feOf (P - 1)⟩ = idPoint ∧
  Nat.card { q : Point // onCurve q = true ∧ ptSum 8 q = idPoint } = 8

/-! ### The signature scheme, for every hash function -/

/-- 44_pipeline R180, R181. -/
def Obligations.KeyExpansionAndDerivation : Prop :=
  ∀ (hash : HashFn) (sk : List Byte),
    (expandKey hash sk).1.toNat =
      (leNat ((hash sk).toList.take 32) &&& (2 ^ 255 - 8)) ||| 2 ^ 254 ∧
    2 ^ 254 ≤ (expandKey hash sk).1.toNat ∧ (expandKey hash sk).1.toNat < 2 ^ 255 ∧
    (expandKey hash sk).1.toNat % 8 = 0 ∧
    (expandKey hash sk).2 = (hash sk).toList.drop 32 ∧ (expandKey hash sk).2.length = 32 ∧
    derivePub hash sk = ptEnc (ptSum (expandKey hash sk).1.toNat basePoint) ∧
    (derivePub hash sk).length = 32

/-- 44_pipeline R183: verification answers 1 exactly when both points decode, `S < L` and the
encodings are equal, equivalently the points are; the degenerate signature verifies. -/
def Obligations.VerificationAcceptsExactlyTheIdentity : Prop :=
  (∀ (hash : HashFn) (reject : Bool) (sig pub m : List Byte), sig.length = 64 →
    (verifySig hash reject sig pub m = true ↔ ∃ rp a : Point,
      ptDec reject (sig.take 32) = some rp ∧ ptDec reject pub = some a ∧
      leNat (sig.drop 32) < groupOrder ∧
      ptEnc (ptSum (leNat (sig.drop 32)) basePoint) =
        ptEnc (ptAdd rp
          (ptSum (leNat (hash (sig.take 32 ++ pub ++ m)).toList % groupOrder) a)))) ∧
  (∀ (hash : HashFn) (reject : Bool) (sig pub m : List Byte) (rp a : Point), sig.length = 64 →
    ptDec reject (sig.take 32) = some rp → ptDec reject pub = some a →
    leNat (sig.drop 32) < groupOrder →
      (verifySig hash reject sig pub m = true ↔
        ptSum (leNat (sig.drop 32)) basePoint =
          ptAdd rp (ptSum (leNat (hash (sig.take 32 ++ pub ++ m)).toList % groupOrder) a))) ∧
  ∀ (hash : HashFn) (reject : Bool) (m : List Byte),
    verifySig hash reject (ptEnc idPoint ++ bytesLE 32 0) (ptEnc idPoint) m = true

/-- Sign/verify correctness of the machine: from every legal state outside the error state whose three
buffers lie in DMEM and are disjoint (70_reset_and_hazards R250), DERIVE, then SIGN, then VERIFY
completes with V = 1 and no fault. -/
def Obligations.DeriveSignVerifyGivesVOne : Prop :=
  ∀ s : State, s.err = false →
    s.skptr.toNat + 32 ≤ s.params.dmemSize → s.pkptr.toNat + 32 ≤ s.params.dmemSize →
    s.sgptr.toNat + 64 ≤ s.params.dmemSize →
    rangesDisjoint s.skptr 32 s.pkptr 32 → rangesDisjoint s.pkptr 32 s.sgptr 64 →
      ∃ t : State, execAll [.derive, .sign, .verify] s = .next t ∧ t.err = false ∧
        t.flags.v = true

/-- Testable properties of 44_pipeline section 3. `S ≥ L`, an undecodable `R`, an undecodable public
key each give V = 0 and no fault. DERIVE and SIGN depend on nothing but the bytes of their inputs:
repeated with the same bytes they write the same bytes, whatever happened in between. -/
def Obligations.VerifyRejectsAndSigningIsDeterministic : Prop :=
  (∀ s : State, s.err = false → s.sgptr.toNat + 64 ≤ s.params.dmemSize →
    s.pkptr.toNat + 32 ≤ s.params.dmemSize →
    groupOrder ≤ leNat ((s.dmemRead s.sgptr 64).drop 32) ∨
      ptDec s.params.x0Sign1Reject ((s.dmemRead s.sgptr 64).take 32) = none ∨
      ptDec s.params.x0Sign1Reject (s.dmemRead s.pkptr 32) = none →
    ∃ t : State, exec .verify s = .next t ∧ t.err = false ∧ t.flags.v = false) ∧
  (∀ s1 s2 t1 t2 : State, s1.err = false → s2.err = false →
    s1.dmemRead s1.skptr 32 = s2.dmemRead s2.skptr 32 →
    exec .derive s1 = .next t1 → exec .derive s2 = .next t2 → t1.err = false → t2.err = false →
      t1.dmemRead t1.pkptr 32 = t2.dmemRead t2.pkptr 32) ∧
  ∀ s1 s2 t1 t2 : State, s1.err = false → s2.err = false →
    s1.dmemRead s1.skptr 32 = s2.dmemRead s2.skptr 32 →
    s1.dmemRead s1.pkptr 32 = s2.dmemRead s2.pkptr 32 → s1.message = s2.message →
    exec .sign s1 = .next t1 → exec .sign s2 = .next t2 → t1.err = false → t2.err = false →
      t1.dmemRead t1.sgptr 64 = t2.dmemRead t2.sgptr 64

/-- From 44_pipeline section 3 (the sequences of R189): DERIVE, KEYEXP and SIGN against their sequences
of primitive commands, with the scratch ranges in DMEM; for SIGN they are disjoint from the public key,
as R189 asks of the inputs. That the range of the last hash, `H3`, is disjoint from the signature being
built at `Sg` is the model's premise: R189 does not write it out, and without it `HFIN H3` can overwrite
`R` at `Sg`. -/
def Obligations.PipelineCommandsEqualTheirSequences : Prop :=
  (∀ (s : State) (h : Addr), s.err = false → s.params.wellFormed = true →
    s.skptr.toNat + 32 ≤ s.params.dmemSize → s.pkptr.toNat + 32 ≤ s.params.dmemSize →
    h.toNat + 64 ≤ s.params.dmemSize →
      ∃ t u : State, exec .derive s = .next t ∧ t.err = false ∧
        execAll [.hinit, .hupd s.skptr, .hfin h, .sld 0 h, .sclamp 0 0, .psmulb 0 0,
          .penc 0 s.pkptr] s = .next u ∧ u.err = false ∧
        t.dmemRead s.pkptr 32 = u.dmemRead s.pkptr 32) ∧
  (∀ (s : State) (h h2 : Addr), s.err = false → s.params.wellFormed = true →
    s.skptr.toNat + 32 ≤ s.params.dmemSize → h.toNat + 64 ≤ s.params.dmemSize →
    h2.toNat + 32 ≤ s.params.dmemSize →
      ∃ t u : State, exec (.keyexp 0 h2) s = .next t ∧ t.err = false ∧
        execAll [.hinit, .hupd s.skptr, .hfin h, .sld 0 h, .sclamp 0 0] s = .next u ∧
        u.err = false ∧ t.s.get 0 = u.s.get 0 ∧ t.dmemRead h2 32 = u.dmemRead (h + 32) 32) ∧
  ∀ (s : State) (h h2 h3 sg : Addr), s.err = false → s.params.wellFormed = true →
    s.skptr.toNat + 32 ≤ s.params.dmemSize → s.pkptr.toNat + 32 ≤ s.params.dmemSize →
    s.sgptr.toNat + 64 ≤ s.params.dmemSize → h.toNat + 64 ≤ s.params.dmemSize →
    h2.toNat + 32 ≤ s.params.dmemSize → h3.toNat + 64 ≤ s.params.dmemSize →
    sg.toNat + 64 ≤ s.params.dmemSize →
    rangesDisjoint h 64 s.pkptr 32 → rangesDisjoint h2 32 s.pkptr 32 →
    rangesDisjoint sg 64 s.pkptr 32 → rangesDisjoint h3 64 sg 64 →
      ∃ t u : State, exec .sign s = .next t ∧ t.err = false ∧
        execAll [.keyexp 0 h2, .hinit, .hupd h2, .hupdm, .hfin h, .sred 1 h, .psmulb 0 1,
          .penc 0 sg, .hinit, .hupd sg, .hupd s.pkptr, .hupdm, .hfin h3, .sred 2 h3,
          .smul 3 2 0, .sadd 3 3 1, .sst 3 (sg + 32)] s = .next u ∧ u.err = false ∧
        t.dmemRead s.sgptr 64 = u.dmemRead sg 64
end

