-- ==== Sys2Proof/Laws/State.lean ====
section
/-! SUPPORT. One lemma per field per update of the state, each true by `rfl`: no later proof unfolds a
record update. -/

namespace Sys2Proof.Machine

/-! ### setF -/

theorem State.setF_f (s : State) (r : FReg) (v : Fe) :
    (s.setF r v).f = s.f.set r.toNat (.valid v) r.isLt := rfl
@[simp] theorem State.setF_s (s : State) (r : FReg) (v : Fe) : (s.setF r v).s = s.s := rfl
@[simp] theorem State.setF_p (s : State) (r : FReg) (v : Fe) : (s.setF r v).p = s.p := rfl
@[simp] theorem State.setF_flags (s : State) (r : FReg) (v : Fe) :
    (s.setF r v).flags = s.flags := rfl
@[simp] theorem State.setF_err (s : State) (r : FReg) (v : Fe) : (s.setF r v).err = s.err := rfl
@[simp] theorem State.setF_cause (s : State) (r : FReg) (v : Fe) :
    (s.setF r v).cause = s.cause := rfl
@[simp] theorem State.setF_errcmd (s : State) (r : FReg) (v : Fe) :
    (s.setF r v).errcmd = s.errcmd := rfl
@[simp] theorem State.setF_mlen (s : State) (r : FReg) (v : Fe) : (s.setF r v).mlen = s.mlen := rfl
@[simp] theorem State.setF_skptr (s : State) (r : FReg) (v : Fe) :
    (s.setF r v).skptr = s.skptr := rfl
@[simp] theorem State.setF_pkptr (s : State) (r : FReg) (v : Fe) :
    (s.setF r v).pkptr = s.pkptr := rfl
@[simp] theorem State.setF_sgptr (s : State) (r : FReg) (v : Fe) :
    (s.setF r v).sgptr = s.sgptr := rfl
@[simp] theorem State.setF_hbuf (s : State) (r : FReg) (v : Fe) : (s.setF r v).hbuf = s.hbuf := rfl
@[simp] theorem State.setF_dmem (s : State) (r : FReg) (v : Fe) : (s.setF r v).dmem = s.dmem := rfl
@[simp] theorem State.setF_msg (s : State) (r : FReg) (v : Fe) : (s.setF r v).msg = s.msg := rfl
@[simp] theorem State.setF_pc (s : State) (r : FReg) (v : Fe) : (s.setF r v).pc = s.pc := rfl
@[simp] theorem State.setF_params (s : State) (r : FReg) (v : Fe) :
    (s.setF r v).params = s.params := rfl
@[simp] theorem State.setF_todo (s : State) (r : FReg) (v : Fe) : (s.setF r v).todo = s.todo := rfl
@[simp] theorem State.setF_reads (s : State) (r : FReg) (v : Fe) :
    (s.setF r v).reads = s.reads := rfl
@[simp] theorem State.setF_epoch (s : State) (r : FReg) (v : Fe) :
    (s.setF r v).epoch = s.epoch := rfl

/-! ### setS -/

@[simp] theorem State.setS_f (s : State) (r : SReg) (v : BitVec 256) : (s.setS r v).f = s.f := rfl
theorem State.setS_s (s : State) (r : SReg) (v : BitVec 256) :
    (s.setS r v).s = s.s.set r.toNat (.valid v) r.isLt := rfl
@[simp] theorem State.setS_p (s : State) (r : SReg) (v : BitVec 256) : (s.setS r v).p = s.p := rfl
@[simp] theorem State.setS_flags (s : State) (r : SReg) (v : BitVec 256) :
    (s.setS r v).flags = s.flags := rfl
@[simp] theorem State.setS_err (s : State) (r : SReg) (v : BitVec 256) :
    (s.setS r v).err = s.err := rfl
@[simp] theorem State.setS_cause (s : State) (r : SReg) (v : BitVec 256) :
    (s.setS r v).cause = s.cause := rfl
@[simp] theorem State.setS_errcmd (s : State) (r : SReg) (v : BitVec 256) :
    (s.setS r v).errcmd = s.errcmd := rfl
@[simp] theorem State.setS_mlen (s : State) (r : SReg) (v : BitVec 256) :
    (s.setS r v).mlen = s.mlen := rfl
@[simp] theorem State.setS_skptr (s : State) (r : SReg) (v : BitVec 256) :
    (s.setS r v).skptr = s.skptr := rfl
@[simp] theorem State.setS_pkptr (s : State) (r : SReg) (v : BitVec 256) :
    (s.setS r v).pkptr = s.pkptr := rfl
@[simp] theorem State.setS_sgptr (s : State) (r : SReg) (v : BitVec 256) :
    (s.setS r v).sgptr = s.sgptr := rfl
@[simp] theorem State.setS_hbuf (s : State) (r : SReg) (v : BitVec 256) :
    (s.setS r v).hbuf = s.hbuf := rfl
@[simp] theorem State.setS_dmem (s : State) (r : SReg) (v : BitVec 256) :
    (s.setS r v).dmem = s.dmem := rfl
@[simp] theorem State.setS_msg (s : State) (r : SReg) (v : BitVec 256) :
    (s.setS r v).msg = s.msg := rfl
@[simp] theorem State.setS_pc (s : State) (r : SReg) (v : BitVec 256) :
    (s.setS r v).pc = s.pc := rfl
@[simp] theorem State.setS_params (s : State) (r : SReg) (v : BitVec 256) :
    (s.setS r v).params = s.params := rfl
@[simp] theorem State.setS_todo (s : State) (r : SReg) (v : BitVec 256) :
    (s.setS r v).todo = s.todo := rfl
@[simp] theorem State.setS_reads (s : State) (r : SReg) (v : BitVec 256) :
    (s.setS r v).reads = s.reads := rfl
@[simp] theorem State.setS_epoch (s : State) (r : SReg) (v : BitVec 256) :
    (s.setS r v).epoch = s.epoch := rfl

/-! ### setP -/

@[simp] theorem State.setP_f (s : State) (r : PReg) (v : PointCell) : (s.setP r v).f = s.f := rfl
@[simp] theorem State.setP_s (s : State) (r : PReg) (v : PointCell) : (s.setP r v).s = s.s := rfl
theorem State.setP_p (s : State) (r : PReg) (v : PointCell) :
    (s.setP r v).p = s.p.set r.toNat v r.isLt := rfl
@[simp] theorem State.setP_flags (s : State) (r : PReg) (v : PointCell) :
    (s.setP r v).flags = s.flags := rfl
@[simp] theorem State.setP_err (s : State) (r : PReg) (v : PointCell) :
    (s.setP r v).err = s.err := rfl
@[simp] theorem State.setP_cause (s : State) (r : PReg) (v : PointCell) :
    (s.setP r v).cause = s.cause := rfl
@[simp] theorem State.setP_errcmd (s : State) (r : PReg) (v : PointCell) :
    (s.setP r v).errcmd = s.errcmd := rfl
@[simp] theorem State.setP_mlen (s : State) (r : PReg) (v : PointCell) :
    (s.setP r v).mlen = s.mlen := rfl
@[simp] theorem State.setP_skptr (s : State) (r : PReg) (v : PointCell) :
    (s.setP r v).skptr = s.skptr := rfl
@[simp] theorem State.setP_pkptr (s : State) (r : PReg) (v : PointCell) :
    (s.setP r v).pkptr = s.pkptr := rfl
@[simp] theorem State.setP_sgptr (s : State) (r : PReg) (v : PointCell) :
    (s.setP r v).sgptr = s.sgptr := rfl
@[simp] theorem State.setP_hbuf (s : State) (r : PReg) (v : PointCell) :
    (s.setP r v).hbuf = s.hbuf := rfl
@[simp] theorem State.setP_dmem (s : State) (r : PReg) (v : PointCell) :
    (s.setP r v).dmem = s.dmem := rfl
@[simp] theorem State.setP_msg (s : State) (r : PReg) (v : PointCell) :
    (s.setP r v).msg = s.msg := rfl
@[simp] theorem State.setP_pc (s : State) (r : PReg) (v : PointCell) : (s.setP r v).pc = s.pc := rfl
@[simp] theorem State.setP_params (s : State) (r : PReg) (v : PointCell) :
    (s.setP r v).params = s.params := rfl
@[simp] theorem State.setP_todo (s : State) (r : PReg) (v : PointCell) :
    (s.setP r v).todo = s.todo := rfl
@[simp] theorem State.setP_reads (s : State) (r : PReg) (v : PointCell) :
    (s.setP r v).reads = s.reads := rfl
@[simp] theorem State.setP_epoch (s : State) (r : PReg) (v : PointCell) :
    (s.setP r v).epoch = s.epoch := rfl

/-! ### setHbuf -/

@[simp] theorem State.setHbuf_f (s : State) (b : List Byte) : (s.setHbuf b).f = s.f := rfl
@[simp] theorem State.setHbuf_s (s : State) (b : List Byte) : (s.setHbuf b).s = s.s := rfl
@[simp] theorem State.setHbuf_p (s : State) (b : List Byte) : (s.setHbuf b).p = s.p := rfl
@[simp] theorem State.setHbuf_flags (s : State) (b : List Byte) :
    (s.setHbuf b).flags = s.flags := rfl
@[simp] theorem State.setHbuf_err (s : State) (b : List Byte) : (s.setHbuf b).err = s.err := rfl
@[simp] theorem State.setHbuf_cause (s : State) (b : List Byte) :
    (s.setHbuf b).cause = s.cause := rfl
@[simp] theorem State.setHbuf_errcmd (s : State) (b : List Byte) :
    (s.setHbuf b).errcmd = s.errcmd := rfl
@[simp] theorem State.setHbuf_mlen (s : State) (b : List Byte) : (s.setHbuf b).mlen = s.mlen := rfl
@[simp] theorem State.setHbuf_skptr (s : State) (b : List Byte) :
    (s.setHbuf b).skptr = s.skptr := rfl
@[simp] theorem State.setHbuf_pkptr (s : State) (b : List Byte) :
    (s.setHbuf b).pkptr = s.pkptr := rfl
@[simp] theorem State.setHbuf_sgptr (s : State) (b : List Byte) :
    (s.setHbuf b).sgptr = s.sgptr := rfl
@[simp] theorem State.setHbuf_hbuf (s : State) (b : List Byte) : (s.setHbuf b).hbuf = b := rfl
@[simp] theorem State.setHbuf_dmem (s : State) (b : List Byte) : (s.setHbuf b).dmem = s.dmem := rfl
@[simp] theorem State.setHbuf_msg (s : State) (b : List Byte) : (s.setHbuf b).msg = s.msg := rfl
@[simp] theorem State.setHbuf_pc (s : State) (b : List Byte) : (s.setHbuf b).pc = s.pc := rfl
@[simp] theorem State.setHbuf_params (s : State) (b : List Byte) :
    (s.setHbuf b).params = s.params := rfl
@[simp] theorem State.setHbuf_todo (s : State) (b : List Byte) : (s.setHbuf b).todo = s.todo := rfl
@[simp] theorem State.setHbuf_reads (s : State) (b : List Byte) :
    (s.setHbuf b).reads = s.reads := rfl
@[simp] theorem State.setHbuf_epoch (s : State) (b : List Byte) :
    (s.setHbuf b).epoch = s.epoch := rfl

/-! ### dmemWrite -/

@[simp] theorem State.dmemWrite_f (s : State) (a : Addr) (b : List Byte) :
    (s.dmemWrite a b).f = s.f := rfl
@[simp] theorem State.dmemWrite_s (s : State) (a : Addr) (b : List Byte) :
    (s.dmemWrite a b).s = s.s := rfl
@[simp] theorem State.dmemWrite_p (s : State) (a : Addr) (b : List Byte) :
    (s.dmemWrite a b).p = s.p := rfl
@[simp] theorem State.dmemWrite_flags (s : State) (a : Addr) (b : List Byte) :
    (s.dmemWrite a b).flags = s.flags := rfl
@[simp] theorem State.dmemWrite_err (s : State) (a : Addr) (b : List Byte) :
    (s.dmemWrite a b).err = s.err := rfl
@[simp] theorem State.dmemWrite_cause (s : State) (a : Addr) (b : List Byte) :
    (s.dmemWrite a b).cause = s.cause := rfl
@[simp] theorem State.dmemWrite_errcmd (s : State) (a : Addr) (b : List Byte) :
    (s.dmemWrite a b).errcmd = s.errcmd := rfl
@[simp] theorem State.dmemWrite_mlen (s : State) (a : Addr) (b : List Byte) :
    (s.dmemWrite a b).mlen = s.mlen := rfl
@[simp] theorem State.dmemWrite_skptr (s : State) (a : Addr) (b : List Byte) :
    (s.dmemWrite a b).skptr = s.skptr := rfl
@[simp] theorem State.dmemWrite_pkptr (s : State) (a : Addr) (b : List Byte) :
    (s.dmemWrite a b).pkptr = s.pkptr := rfl
@[simp] theorem State.dmemWrite_sgptr (s : State) (a : Addr) (b : List Byte) :
    (s.dmemWrite a b).sgptr = s.sgptr := rfl
@[simp] theorem State.dmemWrite_hbuf (s : State) (a : Addr) (b : List Byte) :
    (s.dmemWrite a b).hbuf = s.hbuf := rfl
@[simp] theorem State.dmemWrite_dmem (s : State) (a : Addr) (b : List Byte) :
    (s.dmemWrite a b).dmem = s.dmem.putAll a.toNat b := rfl
@[simp] theorem State.dmemWrite_msg (s : State) (a : Addr) (b : List Byte) :
    (s.dmemWrite a b).msg = s.msg := rfl
@[simp] theorem State.dmemWrite_pc (s : State) (a : Addr) (b : List Byte) :
    (s.dmemWrite a b).pc = s.pc := rfl
@[simp] theorem State.dmemWrite_params (s : State) (a : Addr) (b : List Byte) :
    (s.dmemWrite a b).params = s.params := rfl
@[simp] theorem State.dmemWrite_todo (s : State) (a : Addr) (b : List Byte) :
    (s.dmemWrite a b).todo = s.todo := rfl
@[simp] theorem State.dmemWrite_reads (s : State) (a : Addr) (b : List Byte) :
    (s.dmemWrite a b).reads = s.reads := rfl
@[simp] theorem State.dmemWrite_epoch (s : State) (a : Addr) (b : List Byte) :
    (s.dmemWrite a b).epoch = s.epoch := rfl

/-! ### setV -/

@[simp] theorem State.setV_f (s : State) (b : Bool) : (s.setV b).f = s.f := rfl
@[simp] theorem State.setV_s (s : State) (b : Bool) : (s.setV b).s = s.s := rfl
@[simp] theorem State.setV_p (s : State) (b : Bool) : (s.setV b).p = s.p := rfl
@[simp] theorem State.setV_flags (s : State) (b : Bool) :
    (s.setV b).flags = { s.flags with v := b } := rfl
@[simp] theorem State.setV_err (s : State) (b : Bool) : (s.setV b).err = s.err := rfl
@[simp] theorem State.setV_cause (s : State) (b : Bool) : (s.setV b).cause = s.cause := rfl
@[simp] theorem State.setV_errcmd (s : State) (b : Bool) : (s.setV b).errcmd = s.errcmd := rfl
@[simp] theorem State.setV_mlen (s : State) (b : Bool) : (s.setV b).mlen = s.mlen := rfl
@[simp] theorem State.setV_skptr (s : State) (b : Bool) : (s.setV b).skptr = s.skptr := rfl
@[simp] theorem State.setV_pkptr (s : State) (b : Bool) : (s.setV b).pkptr = s.pkptr := rfl
@[simp] theorem State.setV_sgptr (s : State) (b : Bool) : (s.setV b).sgptr = s.sgptr := rfl
@[simp] theorem State.setV_hbuf (s : State) (b : Bool) : (s.setV b).hbuf = s.hbuf := rfl
@[simp] theorem State.setV_dmem (s : State) (b : Bool) : (s.setV b).dmem = s.dmem := rfl
@[simp] theorem State.setV_msg (s : State) (b : Bool) : (s.setV b).msg = s.msg := rfl
@[simp] theorem State.setV_pc (s : State) (b : Bool) : (s.setV b).pc = s.pc := rfl
@[simp] theorem State.setV_params (s : State) (b : Bool) : (s.setV b).params = s.params := rfl
@[simp] theorem State.setV_todo (s : State) (b : Bool) : (s.setV b).todo = s.todo := rfl
@[simp] theorem State.setV_reads (s : State) (b : Bool) : (s.setV b).reads = s.reads := rfl
@[simp] theorem State.setV_epoch (s : State) (b : Bool) : (s.setV b).epoch = s.epoch := rfl

/-! ### setPV -/

@[simp] theorem State.setPV_f (s : State) (b : Bool) : (s.setPV b).f = s.f := rfl
@[simp] theorem State.setPV_s (s : State) (b : Bool) : (s.setPV b).s = s.s := rfl
@[simp] theorem State.setPV_p (s : State) (b : Bool) : (s.setPV b).p = s.p := rfl
@[simp] theorem State.setPV_flags (s : State) (b : Bool) :
    (s.setPV b).flags = { s.flags with pv := b } := rfl
@[simp] theorem State.setPV_err (s : State) (b : Bool) : (s.setPV b).err = s.err := rfl
@[simp] theorem State.setPV_cause (s : State) (b : Bool) : (s.setPV b).cause = s.cause := rfl
@[simp] theorem State.setPV_errcmd (s : State) (b : Bool) : (s.setPV b).errcmd = s.errcmd := rfl
@[simp] theorem State.setPV_mlen (s : State) (b : Bool) : (s.setPV b).mlen = s.mlen := rfl
@[simp] theorem State.setPV_skptr (s : State) (b : Bool) : (s.setPV b).skptr = s.skptr := rfl
@[simp] theorem State.setPV_pkptr (s : State) (b : Bool) : (s.setPV b).pkptr = s.pkptr := rfl
@[simp] theorem State.setPV_sgptr (s : State) (b : Bool) : (s.setPV b).sgptr = s.sgptr := rfl
@[simp] theorem State.setPV_hbuf (s : State) (b : Bool) : (s.setPV b).hbuf = s.hbuf := rfl
@[simp] theorem State.setPV_dmem (s : State) (b : Bool) : (s.setPV b).dmem = s.dmem := rfl
@[simp] theorem State.setPV_msg (s : State) (b : Bool) : (s.setPV b).msg = s.msg := rfl
@[simp] theorem State.setPV_pc (s : State) (b : Bool) : (s.setPV b).pc = s.pc := rfl
@[simp] theorem State.setPV_params (s : State) (b : Bool) : (s.setPV b).params = s.params := rfl
@[simp] theorem State.setPV_todo (s : State) (b : Bool) : (s.setPV b).todo = s.todo := rfl
@[simp] theorem State.setPV_reads (s : State) (b : Bool) : (s.setPV b).reads = s.reads := rfl
@[simp] theorem State.setPV_epoch (s : State) (b : Bool) : (s.setPV b).epoch = s.epoch := rfl

/-! ### setSC -/

@[simp] theorem State.setSC_f (s : State) (b : Bool) : (s.setSC b).f = s.f := rfl
@[simp] theorem State.setSC_s (s : State) (b : Bool) : (s.setSC b).s = s.s := rfl
@[simp] theorem State.setSC_p (s : State) (b : Bool) : (s.setSC b).p = s.p := rfl
@[simp] theorem State.setSC_flags (s : State) (b : Bool) :
    (s.setSC b).flags = { s.flags with sc := b } := rfl
@[simp] theorem State.setSC_err (s : State) (b : Bool) : (s.setSC b).err = s.err := rfl
@[simp] theorem State.setSC_cause (s : State) (b : Bool) : (s.setSC b).cause = s.cause := rfl
@[simp] theorem State.setSC_errcmd (s : State) (b : Bool) : (s.setSC b).errcmd = s.errcmd := rfl
@[simp] theorem State.setSC_mlen (s : State) (b : Bool) : (s.setSC b).mlen = s.mlen := rfl
@[simp] theorem State.setSC_skptr (s : State) (b : Bool) : (s.setSC b).skptr = s.skptr := rfl
@[simp] theorem State.setSC_pkptr (s : State) (b : Bool) : (s.setSC b).pkptr = s.pkptr := rfl
@[simp] theorem State.setSC_sgptr (s : State) (b : Bool) : (s.setSC b).sgptr = s.sgptr := rfl
@[simp] theorem State.setSC_hbuf (s : State) (b : Bool) : (s.setSC b).hbuf = s.hbuf := rfl
@[simp] theorem State.setSC_dmem (s : State) (b : Bool) : (s.setSC b).dmem = s.dmem := rfl
@[simp] theorem State.setSC_msg (s : State) (b : Bool) : (s.setSC b).msg = s.msg := rfl
@[simp] theorem State.setSC_pc (s : State) (b : Bool) : (s.setSC b).pc = s.pc := rfl
@[simp] theorem State.setSC_params (s : State) (b : Bool) : (s.setSC b).params = s.params := rfl
@[simp] theorem State.setSC_todo (s : State) (b : Bool) : (s.setSC b).todo = s.todo := rfl
@[simp] theorem State.setSC_reads (s : State) (b : Bool) : (s.setSC b).reads = s.reads := rfl
@[simp] theorem State.setSC_epoch (s : State) (b : Bool) : (s.setSC b).epoch = s.epoch := rfl

/-! ### raise -/

@[simp] theorem State.raise_f (s : State) (c : Cause) (w : Word) : (s.raise c w).f = s.f := rfl
@[simp] theorem State.raise_s (s : State) (c : Cause) (w : Word) : (s.raise c w).s = s.s := rfl
@[simp] theorem State.raise_p (s : State) (c : Cause) (w : Word) : (s.raise c w).p = s.p := rfl
@[simp] theorem State.raise_flags (s : State) (c : Cause) (w : Word) :
    (s.raise c w).flags = s.flags := rfl
@[simp] theorem State.raise_err (s : State) (c : Cause) (w : Word) : (s.raise c w).err = true := rfl
@[simp] theorem State.raise_cause (s : State) (c : Cause) (w : Word) :
    (s.raise c w).cause = c := rfl
@[simp] theorem State.raise_errcmd (s : State) (c : Cause) (w : Word) :
    (s.raise c w).errcmd = w := rfl
@[simp] theorem State.raise_mlen (s : State) (c : Cause) (w : Word) :
    (s.raise c w).mlen = s.mlen := rfl
@[simp] theorem State.raise_skptr (s : State) (c : Cause) (w : Word) :
    (s.raise c w).skptr = s.skptr := rfl
@[simp] theorem State.raise_pkptr (s : State) (c : Cause) (w : Word) :
    (s.raise c w).pkptr = s.pkptr := rfl
@[simp] theorem State.raise_sgptr (s : State) (c : Cause) (w : Word) :
    (s.raise c w).sgptr = s.sgptr := rfl
@[simp] theorem State.raise_hbuf (s : State) (c : Cause) (w : Word) :
    (s.raise c w).hbuf = s.hbuf := rfl
@[simp] theorem State.raise_dmem (s : State) (c : Cause) (w : Word) :
    (s.raise c w).dmem = s.dmem := rfl
@[simp] theorem State.raise_msg (s : State) (c : Cause) (w : Word) :
    (s.raise c w).msg = s.msg := rfl
@[simp] theorem State.raise_pc (s : State) (c : Cause) (w : Word) : (s.raise c w).pc = s.pc := rfl
@[simp] theorem State.raise_params (s : State) (c : Cause) (w : Word) :
    (s.raise c w).params = s.params := rfl
@[simp] theorem State.raise_todo (s : State) (c : Cause) (w : Word) :
    (s.raise c w).todo = s.todo := rfl
@[simp] theorem State.raise_reads (s : State) (c : Cause) (w : Word) :
    (s.raise c w).reads = s.reads := rfl
@[simp] theorem State.raise_epoch (s : State) (c : Cause) (w : Word) :
    (s.raise c w).epoch = s.epoch := rfl

/-! ### clearFault -/

@[simp] theorem State.clearFault_f (s : State) : (s.clearFault).f = s.f := rfl
@[simp] theorem State.clearFault_s (s : State) : (s.clearFault).s = s.s := rfl
@[simp] theorem State.clearFault_p (s : State) : (s.clearFault).p = s.p := rfl
@[simp] theorem State.clearFault_flags (s : State) : (s.clearFault).flags = s.flags := rfl
@[simp] theorem State.clearFault_err (s : State) : (s.clearFault).err = false := rfl
@[simp] theorem State.clearFault_cause (s : State) : (s.clearFault).cause = .none := rfl
@[simp] theorem State.clearFault_errcmd (s : State) : (s.clearFault).errcmd = 0 := rfl
@[simp] theorem State.clearFault_mlen (s : State) : (s.clearFault).mlen = s.mlen := rfl
@[simp] theorem State.clearFault_skptr (s : State) : (s.clearFault).skptr = s.skptr := rfl
@[simp] theorem State.clearFault_pkptr (s : State) : (s.clearFault).pkptr = s.pkptr := rfl
@[simp] theorem State.clearFault_sgptr (s : State) : (s.clearFault).sgptr = s.sgptr := rfl
@[simp] theorem State.clearFault_hbuf (s : State) : (s.clearFault).hbuf = s.hbuf := rfl
@[simp] theorem State.clearFault_dmem (s : State) : (s.clearFault).dmem = s.dmem := rfl
@[simp] theorem State.clearFault_msg (s : State) : (s.clearFault).msg = s.msg := rfl
@[simp] theorem State.clearFault_pc (s : State) : (s.clearFault).pc = s.pc := rfl
@[simp] theorem State.clearFault_params (s : State) : (s.clearFault).params = s.params := rfl
@[simp] theorem State.clearFault_todo (s : State) : (s.clearFault).todo = s.todo := rfl
@[simp] theorem State.clearFault_reads (s : State) : (s.clearFault).reads = s.reads := rfl
@[simp] theorem State.clearFault_epoch (s : State) : (s.clearFault).epoch = s.epoch := rfl

/-! ### clearWorking -/

theorem State.clearWorking_f (s : State) :
    (s.clearWorking).f = Vector.replicate 16 .empty := rfl
theorem State.clearWorking_s (s : State) :
    (s.clearWorking).s = Vector.replicate 8 .empty := rfl
theorem State.clearWorking_p (s : State) :
    (s.clearWorking).p = Vector.replicate 8 .empty := rfl
@[simp] theorem State.clearWorking_flags (s : State) :
    (s.clearWorking).flags = { v := false, pv := false, sc := false } := rfl
@[simp] theorem State.clearWorking_err (s : State) : (s.clearWorking).err = s.err := rfl
@[simp] theorem State.clearWorking_cause (s : State) : (s.clearWorking).cause = s.cause := rfl
@[simp] theorem State.clearWorking_errcmd (s : State) : (s.clearWorking).errcmd = s.errcmd := rfl
@[simp] theorem State.clearWorking_mlen (s : State) : (s.clearWorking).mlen = s.mlen := rfl
@[simp] theorem State.clearWorking_skptr (s : State) : (s.clearWorking).skptr = s.skptr := rfl
@[simp] theorem State.clearWorking_pkptr (s : State) : (s.clearWorking).pkptr = s.pkptr := rfl
@[simp] theorem State.clearWorking_sgptr (s : State) : (s.clearWorking).sgptr = s.sgptr := rfl
@[simp] theorem State.clearWorking_hbuf (s : State) : (s.clearWorking).hbuf = [] := rfl
@[simp] theorem State.clearWorking_dmem (s : State) : (s.clearWorking).dmem = s.dmem := rfl
@[simp] theorem State.clearWorking_msg (s : State) : (s.clearWorking).msg = s.msg := rfl
@[simp] theorem State.clearWorking_pc (s : State) : (s.clearWorking).pc = s.pc := rfl
@[simp] theorem State.clearWorking_params (s : State) : (s.clearWorking).params = s.params := rfl
@[simp] theorem State.clearWorking_todo (s : State) : (s.clearWorking).todo = s.todo := rfl
@[simp] theorem State.clearWorking_reads (s : State) : (s.clearWorking).reads = s.reads := rfl
@[simp] theorem State.clearWorking_epoch (s : State) : (s.clearWorking).epoch = s.epoch := rfl

/-! ### advance -/

@[simp] theorem State.advance_f (s : State) : (s.advance).f = s.f := rfl
@[simp] theorem State.advance_s (s : State) : (s.advance).s = s.s := rfl
@[simp] theorem State.advance_p (s : State) : (s.advance).p = s.p := rfl
@[simp] theorem State.advance_flags (s : State) : (s.advance).flags = s.flags := rfl
@[simp] theorem State.advance_err (s : State) : (s.advance).err = s.err := rfl
@[simp] theorem State.advance_cause (s : State) : (s.advance).cause = s.cause := rfl
@[simp] theorem State.advance_errcmd (s : State) : (s.advance).errcmd = s.errcmd := rfl
@[simp] theorem State.advance_mlen (s : State) : (s.advance).mlen = s.mlen := rfl
@[simp] theorem State.advance_skptr (s : State) : (s.advance).skptr = s.skptr := rfl
@[simp] theorem State.advance_pkptr (s : State) : (s.advance).pkptr = s.pkptr := rfl
@[simp] theorem State.advance_sgptr (s : State) : (s.advance).sgptr = s.sgptr := rfl
@[simp] theorem State.advance_hbuf (s : State) : (s.advance).hbuf = s.hbuf := rfl
@[simp] theorem State.advance_dmem (s : State) : (s.advance).dmem = s.dmem := rfl
@[simp] theorem State.advance_msg (s : State) : (s.advance).msg = s.msg := rfl
@[simp] theorem State.advance_pc (s : State) : (s.advance).pc = s.pc + 1 := rfl
@[simp] theorem State.advance_params (s : State) : (s.advance).params = s.params := rfl
@[simp] theorem State.advance_todo (s : State) : (s.advance).todo = s.todo := rfl
@[simp] theorem State.advance_reads (s : State) : (s.advance).reads = s.reads := rfl
@[simp] theorem State.advance_epoch (s : State) : (s.advance).epoch = s.epoch := rfl

/-! ### receive -/

@[simp] theorem State.receive_f (s : State) (v : Word) : (s.receive v).f = s.f := rfl
@[simp] theorem State.receive_s (s : State) (v : Word) : (s.receive v).s = s.s := rfl
@[simp] theorem State.receive_p (s : State) (v : Word) : (s.receive v).p = s.p := rfl
@[simp] theorem State.receive_flags (s : State) (v : Word) : (s.receive v).flags = s.flags := rfl
@[simp] theorem State.receive_err (s : State) (v : Word) : (s.receive v).err = s.err := rfl
@[simp] theorem State.receive_cause (s : State) (v : Word) : (s.receive v).cause = s.cause := rfl
@[simp] theorem State.receive_errcmd (s : State) (v : Word) : (s.receive v).errcmd = s.errcmd := rfl
@[simp] theorem State.receive_mlen (s : State) (v : Word) : (s.receive v).mlen = s.mlen := rfl
@[simp] theorem State.receive_skptr (s : State) (v : Word) : (s.receive v).skptr = s.skptr := rfl
@[simp] theorem State.receive_pkptr (s : State) (v : Word) : (s.receive v).pkptr = s.pkptr := rfl
@[simp] theorem State.receive_sgptr (s : State) (v : Word) : (s.receive v).sgptr = s.sgptr := rfl
@[simp] theorem State.receive_hbuf (s : State) (v : Word) : (s.receive v).hbuf = s.hbuf := rfl
@[simp] theorem State.receive_dmem (s : State) (v : Word) : (s.receive v).dmem = s.dmem := rfl
@[simp] theorem State.receive_msg (s : State) (v : Word) : (s.receive v).msg = s.msg := rfl
@[simp] theorem State.receive_pc (s : State) (v : Word) : (s.receive v).pc = s.pc := rfl
@[simp] theorem State.receive_params (s : State) (v : Word) : (s.receive v).params = s.params := rfl
@[simp] theorem State.receive_todo (s : State) (v : Word) : (s.receive v).todo = s.todo := rfl
@[simp] theorem State.receive_reads (s : State) (v : Word) :
    (s.receive v).reads = s.reads ++ [v] := rfl
@[simp] theorem State.receive_epoch (s : State) (v : Word) : (s.receive v).epoch = s.epoch := rfl

/-! ### Reading a register file after a write -/

theorem get_eq_getElem16 {α : Type} (v : Vector α 16) (q : BitVec 4) :
    v.get q.toFin = v[q.toNat]'q.isLt := rfl

theorem get_eq_getElem8 {α : Type} (v : Vector α 8) (q : BitVec 3) :
    v.get q.toFin = v[q.toNat]'q.isLt := rfl

theorem vector_get_set {α : Type} {n w : Nat} (v : Vector α n) (i j : BitVec w)
    (x : α) (hi : i.toNat < n) (hj : j.toNat < n) :
    (v.set i.toNat x hi)[j.toNat] = if j = i then x else v[j.toNat] := by
  rw [Vector.getElem_set]
  by_cases h : j = i
  · subst h; simp
  · have : i.toNat ≠ j.toNat := fun e => h (BitVec.eq_of_toNat_eq e.symm)
    simp [h, this]

/-- Reading a field register after `f[r] <- v` (00_scope R13). -/
@[simp] theorem State.setF_get (s : State) (r q : FReg) (v : Fe) :
    (s.setF r v).f.get q.toFin = if q = r then .valid v else s.f.get q.toFin := by
  rw [State.setF_f, get_eq_getElem16, get_eq_getElem16]
  exact vector_get_set s.f r q (.valid v) r.isLt q.isLt

/-- Reading a scalar register after `s[r] <- v` (00_scope R13). -/
@[simp] theorem State.setS_get (s : State) (r q : SReg) (v : BitVec 256) :
    (s.setS r v).s.get q.toFin = if q = r then .valid v else s.s.get q.toFin := by
  rw [State.setS_s, get_eq_getElem8, get_eq_getElem8]
  exact vector_get_set s.s r q (.valid v) r.isLt q.isLt

/-- Reading a point register after `p[r] <- v` (00_scope R13). -/
@[simp] theorem State.setP_get (s : State) (r q : PReg) (v : PointCell) :
    (s.setP r v).p.get q.toFin = if q = r then v else s.p.get q.toFin := by
  rw [State.setP_p, get_eq_getElem8, get_eq_getElem8]
  exact vector_get_set s.p r q v r.isLt q.isLt

@[simp] theorem State.clearWorking_f_get (s : State) (q : FReg) :
    s.clearWorking.f.get q.toFin = .empty := by
  simp [State.clearWorking_f, Vector.get]

@[simp] theorem State.clearWorking_s_get (s : State) (q : SReg) :
    s.clearWorking.s.get q.toFin = .empty := by
  simp [State.clearWorking_s, Vector.get]

@[simp] theorem State.clearWorking_p_get (s : State) (q : PReg) :
    s.clearWorking.p.get q.toFin = .empty := by
  simp [State.clearWorking_p, Vector.get]

end Sys2Proof.Machine
end

