-- ==== Sys2Proof/Laws/Ops.lean ====
section
/-! SUPPORT. What each shared operation can do, said once: reads of operands, range checks, the frame
`State.command` of every legal command, fault entry, and the host's step. -/

namespace Sys2Proof.Machine

/-! ### Reads of operands -/

theorem State.fieldAt_eq_ok (s : State) (r : FReg) (v : Fe) :
    s.fieldAt r = .ok v ↔ s.f.get r.toFin = .valid v := by
  unfold State.fieldAt
  split <;> simp_all

theorem State.scalarAt_eq_ok (s : State) (r : SReg) (v : BitVec 256) :
    s.scalarAt r = .ok v ↔ s.s.get r.toFin = .valid v := by
  unfold State.scalarAt
  split <;> simp_all

theorem State.pointAt_eq_ok (s : State) (r : PReg) (q : Point) :
    s.pointAt r = .ok q ↔ s.p.get r.toFin = .valid q := by
  unfold State.pointAt
  split <;> simp_all

/-- A field register's read faults only on EMPTY (60_exceptions R213). -/
theorem State.fieldAt_eq_error (s : State) (r : FReg) (c : Cause) :
    s.fieldAt r = .error c ↔ s.f.get r.toFin = .empty ∧ c = .emptyRegister := by
  unfold State.fieldAt
  split <;> simp_all [eq_comm]

/-- A scalar register's read faults only on EMPTY (60_exceptions R213). -/
theorem State.scalarAt_eq_error (s : State) (r : SReg) (c : Cause) :
    s.scalarAt r = .error c ↔ s.s.get r.toFin = .empty ∧ c = .emptyRegister := by
  unfold State.scalarAt
  split <;> simp_all [eq_comm]

/-- A point register's read faults on EMPTY and on INVALID (60_exceptions R213, R214). -/
theorem State.pointAt_eq_error (s : State) (r : PReg) (c : Cause) :
    s.pointAt r = .error c ↔
      (s.p.get r.toFin = .empty ∧ c = .emptyRegister) ∨
        (s.p.get r.toFin = .invalid ∧ c = .invalidPointOperand) := by
  unfold State.pointAt
  cases s.p.get r.toFin <;> simp [eq_comm]

theorem State.inDmem_eq_ok (s : State) (a : Addr) (n : Nat) (u : Unit) :
    s.inDmem a n = .ok u ↔ s.rangeOk a n = true := by
  unfold State.inDmem
  split <;> simp_all

theorem State.inDmem_eq_error (s : State) (a : Addr) (n : Nat) (c : Cause) :
    s.inDmem a n = .error c ↔ s.rangeOk a n = false ∧ c = .addressRange := by
  unfold State.inDmem
  cases s.rangeOk a n <;> simp [eq_comm]

theorem State.present_eq_ok (s : State) (l : List Source) (u : Unit) :
    s.present l = .ok u ↔ l.any s.sourceEmpty = false := by
  unfold State.present
  split <;> simp_all

theorem State.present_eq_error (s : State) (l : List Source) (c : Cause) :
    s.present l = .error c ↔ l.any s.sourceEmpty = true ∧ c = .emptyRegister := by
  unfold State.present
  cases l.any s.sourceEmpty <;> simp [eq_comm]

theorem State.rangeOk_iff (s : State) (a : Addr) (n : Nat) :
    s.rangeOk a n = true ↔ a.toNat + n ≤ s.params.dmemSize := by
  simp [State.rangeOk]

/-! ### Sequencing of checks and reads -/

@[simp] theorem Except.ok_bind_eq {ε α β : Type} (a : α) (f : α → Except ε β) :
    (Except.ok a >>= f) = f a := rfl

@[simp] theorem Except.error_bind_eq {ε α β : Type} (e : ε) (f : α → Except ε β) :
    ((Except.error e : Except ε α) >>= f) = .error e := rfl

@[simp] theorem Except.pure_eq_ok {ε α : Type} (a : α) : (pure a : Except ε α) = .ok a := rfl

theorem Except.bind_ok_iff {ε α β : Type} (x : Except ε α) (f : α → Except ε β) (b : β) :
    (x >>= f) = .ok b ↔ ∃ a, x = .ok a ∧ f a = .ok b := by
  cases x <;> simp

theorem Except.bind_error_iff {ε α β : Type} (x : Except ε α) (f : α → Except ε β) (e : ε) :
    (x >>= f) = .error e ↔ x = .error e ∨ ∃ a, x = .ok a ∧ f a = .error e := by
  cases x <;> simp

/-! ### The frame of a command (30_encoding R78) -/

/-- In the error state a command is dropped (60_exceptions R219). -/
theorem State.command_dropped (s : State) (i : Instr) (b : Except Cause State)
    (h : s.err = true) : s.command i b = .next s := by
  simp [State.command, h]

/-- Outside the error state a command whose checks pass completes. -/
theorem State.command_completes (s : State) (i : Instr) {b : Except Cause State} {t : State}
    (h : s.err = false) (hb : b = .ok t) : s.command i b = .next t := by
  simp [State.command, h, hb]

/-- Outside the error state a fault is entered (60_exceptions R216). -/
theorem State.command_faults (s : State) (i : Instr) {b : Except Cause State} {c : Cause}
    (h : s.err = false) (hb : b = .error c) : s.command i b = .next (s.raise c (encode i)) := by
  simp [State.command, h, hb]

/-- Everything a command can do: it is dropped, it completes, or it faults. -/
theorem State.command_cases {s t : State} {i : Instr} {b : Except Cause State}
    (h : s.command i b = .next t) :
    (s.err = true ∧ t = s) ∨ (s.err = false ∧ b = .ok t) ∨
      (s.err = false ∧ ∃ c, b = .error c ∧ t = s.raise c (encode i)) := by
  unfold State.command at h
  cases he : s.err <;> cases b <;> simp only [he, if_true, if_false, Bool.false_eq_true] at h <;>
    injection h with h <;> simp [h]

/-- A command answers a next state, whatever its checks find. -/
theorem State.command_next (s : State) (i : Instr) (b : Except Cause State) :
    ∃ t, s.command i b = .next t := by
  unfold State.command
  split
  · exact ⟨_, rfl⟩
  · split <;> exact ⟨_, rfl⟩

/-! ### Bytes of the state under updates that leave the memories alone -/

theorem State.dmemByte_congr {s t : State} (hd : t.dmem = s.dmem) (he : t.epoch = s.epoch) (a : Nat) :
    t.dmemByte a = s.dmemByte a := by
  simp [State.dmemByte, hd, he]

theorem State.msgByte_congr {s t : State} (hm : t.msg = s.msg) (he : t.epoch = s.epoch) (a : Nat) :
    t.msgByte a = s.msgByte a := by
  simp [State.msgByte, hm, he]

theorem State.dmemRead_congr {s t : State} (hd : t.dmem = s.dmem) (he : t.epoch = s.epoch) (a : Addr)
    (n : Nat) : t.dmemRead a n = s.dmemRead a n := by
  simp [State.dmemRead, funext (State.dmemByte_congr hd he)]

theorem State.message_congr {s t : State} (hm : t.msg = s.msg) (he : t.epoch = s.epoch)
    (hl : t.mlen = s.mlen) : t.message = s.message := by
  simp [State.message, funext (State.msgByte_congr hm he), hl]

/-! ### The host's step -/

theorem hostStep_idle {s : State} (h : s.todo = []) : hostStep s = .next s := by
  simp [hostStep, h]

theorem hostStep_cons {s : State} {a : HostAction} {rest : List HostAction}
    (h : s.todo = a :: rest) : hostStep s = perform a { s with todo := rest } := by
  simp [hostStep, h]

theorem advancePc_eq_next {r : Result} {t : State} :
    advancePc r = .next t ↔ ∃ u, r = .next u ∧ t = u.advance := by
  cases r <;> simp [advancePc, eq_comm]

end Sys2Proof.Machine
end

