-- ==== Sys2Proof/Laws/Commands.lean ====
section
/-! SUPPORT. Everything a command can do, said once per command: it is dropped, it faults and changes
nothing but the fault record, or its checks have passed and it has its effect (30_encoding R78). -/

namespace Sys2Proof.Machine

/-- The command is dropped: the error state (60_exceptions R219). -/
def Dropped (s t : State) : Prop := s.err = true ∧ t = s

/-- The command has faulted (60_exceptions R216). -/
def Faulted (i : Instr) (s t : State) : Prop :=
  s.err = false ∧ ∃ c : Cause, c ≠ .none ∧ t = s.raise c (encode i)

/-- The frame of a command with the cause that its body never raises ruled out. -/
theorem command_inversion {i : Instr} {s t : State} {b : Except Cause State}
    (h : s.command i b = .next t) (hn : b ≠ .error .none) :
    Dropped s t ∨ Faulted i s t ∨ (s.err = false ∧ b = .ok t) := by
  obtain h | h | ⟨he, c, hc, ht⟩ := State.command_cases h
  · exact .inl h
  · exact .inr (.inr h)
  · exact .inr (.inl ⟨he, c, fun e => hn (e ▸ hc), ht⟩)

theorem execNop_cases {s t : State}
    (h : exec .nop s = .next t) :
    Dropped s t ∨ Faulted .nop s t ∨
      (s.err = false ∧ t = s) := by
  have h : execNop s = .next t := h
  unfold execNop at h
  obtain h | h | ⟨he, h⟩ := command_inversion h nofun
  · exact .inl h
  · exact .inr (.inl h)
  · injection h with h
    exact .inr (.inr ⟨he, h.symm⟩)

theorem execClr_cases {s t : State}
    (h : exec .clr s = .next t) :
    Dropped s t ∨ Faulted .clr s t ∨
      (s.err = false ∧ t = s.clearWorking) := by
  have h : execClr s = .next t := h
  unfold execClr at h
  obtain h | h | ⟨he, h⟩ := command_inversion h nofun
  · exact .inl h
  · exact .inr (.inl h)
  · injection h with h
    exact .inr (.inr ⟨he, h.symm⟩)

theorem execFadd_cases {fd fs1 fs2 : FReg} {s t : State}
    (h : exec (.fadd fd fs1 fs2) s = .next t) :
    Dropped s t ∨ Faulted (.fadd fd fs1 fs2) s t ∨
      (∃ a b : Fe,
        s.err = false ∧ s.f.get fs1.toFin = .valid a ∧ s.f.get fs2.toFin = .valid b ∧
        t = s.setF fd (fAdd a b)) := by
  have h : execFadd fd fs1 fs2 s = .next t := h
  unfold execFadd at h
  obtain h | h | ⟨he, h⟩ := command_inversion h (by
    simp [Except.bind_error_iff, State.fieldAt_eq_error])
  · exact .inl h
  · exact .inr (.inl h)
  · simp only [Except.bind_ok_iff, State.fieldAt_eq_ok, Except.pure_eq_ok,
      Except.ok.injEq] at h
    obtain ⟨a, h0, b, h1, e⟩ := h
    exact .inr (.inr ⟨a, b, he, h0, h1, e.symm⟩)

theorem execFsub_cases {fd fs1 fs2 : FReg} {s t : State}
    (h : exec (.fsub fd fs1 fs2) s = .next t) :
    Dropped s t ∨ Faulted (.fsub fd fs1 fs2) s t ∨
      (∃ a b : Fe,
        s.err = false ∧ s.f.get fs1.toFin = .valid a ∧ s.f.get fs2.toFin = .valid b ∧
        t = s.setF fd (fSub a b)) := by
  have h : execFsub fd fs1 fs2 s = .next t := h
  unfold execFsub at h
  obtain h | h | ⟨he, h⟩ := command_inversion h (by
    simp [Except.bind_error_iff, State.fieldAt_eq_error])
  · exact .inl h
  · exact .inr (.inl h)
  · simp only [Except.bind_ok_iff, State.fieldAt_eq_ok, Except.pure_eq_ok,
      Except.ok.injEq] at h
    obtain ⟨a, h0, b, h1, e⟩ := h
    exact .inr (.inr ⟨a, b, he, h0, h1, e.symm⟩)

theorem execFmul_cases {fd fs1 fs2 : FReg} {s t : State}
    (h : exec (.fmul fd fs1 fs2) s = .next t) :
    Dropped s t ∨ Faulted (.fmul fd fs1 fs2) s t ∨
      (∃ a b : Fe,
        s.err = false ∧ s.f.get fs1.toFin = .valid a ∧ s.f.get fs2.toFin = .valid b ∧
        t = s.setF fd (fMul a b)) := by
  have h : execFmul fd fs1 fs2 s = .next t := h
  unfold execFmul at h
  obtain h | h | ⟨he, h⟩ := command_inversion h (by
    simp [Except.bind_error_iff, State.fieldAt_eq_error])
  · exact .inl h
  · exact .inr (.inl h)
  · simp only [Except.bind_ok_iff, State.fieldAt_eq_ok, Except.pure_eq_ok,
      Except.ok.injEq] at h
    obtain ⟨a, h0, b, h1, e⟩ := h
    exact .inr (.inr ⟨a, b, he, h0, h1, e.symm⟩)

theorem execFsqr_cases {fd fs1 : FReg} {s t : State}
    (h : exec (.fsqr fd fs1) s = .next t) :
    Dropped s t ∨ Faulted (.fsqr fd fs1) s t ∨
      (∃ a : Fe,
        s.err = false ∧ s.f.get fs1.toFin = .valid a ∧ t = s.setF fd (fMul a a)) := by
  have h : execFsqr fd fs1 s = .next t := h
  unfold execFsqr at h
  obtain h | h | ⟨he, h⟩ := command_inversion h (by
    simp [Except.bind_error_iff, State.fieldAt_eq_error])
  · exact .inl h
  · exact .inr (.inl h)
  · simp only [Except.bind_ok_iff, State.fieldAt_eq_ok, Except.pure_eq_ok,
      Except.ok.injEq] at h
    obtain ⟨a, h0, e⟩ := h
    exact .inr (.inr ⟨a, he, h0, e.symm⟩)

theorem execFinv_cases {fd fs1 : FReg} {s t : State}
    (h : exec (.finv fd fs1) s = .next t) :
    Dropped s t ∨ Faulted (.finv fd fs1) s t ∨
      (∃ a : Fe,
        s.err = false ∧ s.f.get fs1.toFin = .valid a ∧ t = s.setF fd (fInv a)) := by
  have h : execFinv fd fs1 s = .next t := h
  unfold execFinv at h
  obtain h | h | ⟨he, h⟩ := command_inversion h (by
    simp [Except.bind_error_iff, State.fieldAt_eq_error])
  · exact .inl h
  · exact .inr (.inl h)
  · simp only [Except.bind_ok_iff, State.fieldAt_eq_ok, Except.pure_eq_ok,
      Except.ok.injEq] at h
    obtain ⟨a, h0, e⟩ := h
    exact .inr (.inr ⟨a, he, h0, e.symm⟩)

theorem execFmov_cases {fd fs1 : FReg} {s t : State}
    (h : exec (.fmov fd fs1) s = .next t) :
    Dropped s t ∨ Faulted (.fmov fd fs1) s t ∨
      (∃ a : Fe,
        s.err = false ∧ s.f.get fs1.toFin = .valid a ∧ t = s.setF fd a) := by
  have h : execFmov fd fs1 s = .next t := h
  unfold execFmov at h
  obtain h | h | ⟨he, h⟩ := command_inversion h (by
    simp [Except.bind_error_iff, State.fieldAt_eq_error])
  · exact .inl h
  · exact .inr (.inl h)
  · simp only [Except.bind_ok_iff, State.fieldAt_eq_ok, Except.pure_eq_ok,
      Except.ok.injEq] at h
    obtain ⟨a, h0, e⟩ := h
    exact .inr (.inr ⟨a, he, h0, e.symm⟩)

theorem execFli_cases {fd : FReg} {imm16 : BitVec 16} {s t : State}
    (h : exec (.fli fd imm16) s = .next t) :
    Dropped s t ∨ Faulted (.fli fd imm16) s t ∨
      (s.err = false ∧ t = s.setF fd (feOf imm16.toNat)) := by
  have h : execFli fd imm16 s = .next t := h
  unfold execFli at h
  obtain h | h | ⟨he, h⟩ := command_inversion h nofun
  · exact .inl h
  · exact .inr (.inl h)
  · injection h with h
    exact .inr (.inr ⟨he, h.symm⟩)

theorem execFld_cases {fd : FReg} {addr : Addr} {s t : State}
    (h : exec (.fld fd addr) s = .next t) :
    Dropped s t ∨ Faulted (.fld fd addr) s t ∨
      (s.err = false ∧ s.rangeOk addr 32 = true ∧ t = s.setF fd (fDec (s.dmemRead addr 32))) := by
  have h : execFld fd addr s = .next t := h
  unfold execFld at h
  obtain h | h | ⟨he, h⟩ := command_inversion h (by
    simp [Except.bind_error_iff, State.inDmem_eq_error])
  · exact .inl h
  · exact .inr (.inl h)
  · simp only [Except.bind_ok_iff, State.inDmem_eq_ok, Except.pure_eq_ok,
      Except.ok.injEq] at h
    obtain ⟨-, r0, e⟩ := h
    exact .inr (.inr ⟨he, r0, e.symm⟩)

theorem execFst_cases {fs : FReg} {addr : Addr} {s t : State}
    (h : exec (.fst fs addr) s = .next t) :
    Dropped s t ∨ Faulted (.fst fs addr) s t ∨
      (∃ v : Fe,
        s.err = false ∧ s.f.get fs.toFin = .valid v ∧ s.rangeOk addr 32 = true ∧
        t = s.dmemWrite addr (fEnc v)) := by
  have h : execFst fs addr s = .next t := h
  unfold execFst at h
  obtain h | h | ⟨he, h⟩ := command_inversion h (by
    simp [Except.bind_error_iff, State.fieldAt_eq_error, State.inDmem_eq_error])
  · exact .inl h
  · exact .inr (.inl h)
  · simp only [Except.bind_ok_iff, State.fieldAt_eq_ok, State.inDmem_eq_ok, Except.pure_eq_ok,
      Except.ok.injEq] at h
    obtain ⟨v, h0, -, r0, e⟩ := h
    exact .inr (.inr ⟨v, he, h0, r0, e.symm⟩)

theorem execSadd_cases {sd ss1 ss2 : SReg} {s t : State}
    (h : exec (.sadd sd ss1 ss2) s = .next t) :
    Dropped s t ∨ Faulted (.sadd sd ss1 ss2) s t ∨
      (∃ a b : BitVec 256,
        s.err = false ∧ s.s.get ss1.toFin = .valid a ∧ s.s.get ss2.toFin = .valid b ∧
        t = s.setS sd (sAdd a b)) := by
  have h : execSadd sd ss1 ss2 s = .next t := h
  unfold execSadd at h
  obtain h | h | ⟨he, h⟩ := command_inversion h (by
    simp [Except.bind_error_iff, State.scalarAt_eq_error])
  · exact .inl h
  · exact .inr (.inl h)
  · simp only [Except.bind_ok_iff, State.scalarAt_eq_ok, Except.pure_eq_ok,
      Except.ok.injEq] at h
    obtain ⟨a, h0, b, h1, e⟩ := h
    exact .inr (.inr ⟨a, b, he, h0, h1, e.symm⟩)

theorem execSmul_cases {sd ss1 ss2 : SReg} {s t : State}
    (h : exec (.smul sd ss1 ss2) s = .next t) :
    Dropped s t ∨ Faulted (.smul sd ss1 ss2) s t ∨
      (∃ a b : BitVec 256,
        s.err = false ∧ s.s.get ss1.toFin = .valid a ∧ s.s.get ss2.toFin = .valid b ∧
        t = s.setS sd (sMul a b)) := by
  have h : execSmul sd ss1 ss2 s = .next t := h
  unfold execSmul at h
  obtain h | h | ⟨he, h⟩ := command_inversion h (by
    simp [Except.bind_error_iff, State.scalarAt_eq_error])
  · exact .inl h
  · exact .inr (.inl h)
  · simp only [Except.bind_ok_iff, State.scalarAt_eq_ok, Except.pure_eq_ok,
      Except.ok.injEq] at h
    obtain ⟨a, h0, b, h1, e⟩ := h
    exact .inr (.inr ⟨a, b, he, h0, h1, e.symm⟩)

theorem execSmov_cases {sd ss1 : SReg} {s t : State}
    (h : exec (.smov sd ss1) s = .next t) :
    Dropped s t ∨ Faulted (.smov sd ss1) s t ∨
      (∃ a : BitVec 256,
        s.err = false ∧ s.s.get ss1.toFin = .valid a ∧ t = s.setS sd a) := by
  have h : execSmov sd ss1 s = .next t := h
  unfold execSmov at h
  obtain h | h | ⟨he, h⟩ := command_inversion h (by
    simp [Except.bind_error_iff, State.scalarAt_eq_error])
  · exact .inl h
  · exact .inr (.inl h)
  · simp only [Except.bind_ok_iff, State.scalarAt_eq_ok, Except.pure_eq_ok,
      Except.ok.injEq] at h
    obtain ⟨a, h0, e⟩ := h
    exact .inr (.inr ⟨a, he, h0, e.symm⟩)

theorem execSld_cases {sd : SReg} {addr : Addr} {s t : State}
    (h : exec (.sld sd addr) s = .next t) :
    Dropped s t ∨ Faulted (.sld sd addr) s t ∨
      (s.err = false ∧ s.rangeOk addr 32 = true ∧
        t = s.setS sd (scalarOfBytes (s.dmemRead addr 32))) := by
  have h : execSld sd addr s = .next t := h
  unfold execSld at h
  obtain h | h | ⟨he, h⟩ := command_inversion h (by
    simp [Except.bind_error_iff, State.inDmem_eq_error])
  · exact .inl h
  · exact .inr (.inl h)
  · simp only [Except.bind_ok_iff, State.inDmem_eq_ok, Except.pure_eq_ok,
      Except.ok.injEq] at h
    obtain ⟨-, r0, e⟩ := h
    exact .inr (.inr ⟨he, r0, e.symm⟩)

theorem execSst_cases {ss : SReg} {addr : Addr} {s t : State}
    (h : exec (.sst ss addr) s = .next t) :
    Dropped s t ∨ Faulted (.sst ss addr) s t ∨
      (∃ v : BitVec 256,
        s.err = false ∧ s.s.get ss.toFin = .valid v ∧ s.rangeOk addr 32 = true ∧
        t = s.dmemWrite addr (scalarBytes v)) := by
  have h : execSst ss addr s = .next t := h
  unfold execSst at h
  obtain h | h | ⟨he, h⟩ := command_inversion h (by
    simp [Except.bind_error_iff, State.scalarAt_eq_error, State.inDmem_eq_error])
  · exact .inl h
  · exact .inr (.inl h)
  · simp only [Except.bind_ok_iff, State.scalarAt_eq_ok, State.inDmem_eq_ok, Except.pure_eq_ok,
      Except.ok.injEq] at h
    obtain ⟨v, h0, -, r0, e⟩ := h
    exact .inr (.inr ⟨v, he, h0, r0, e.symm⟩)

theorem execSred_cases {sd : SReg} {addr : Addr} {s t : State}
    (h : exec (.sred sd addr) s = .next t) :
    Dropped s t ∨ Faulted (.sred sd addr) s t ∨
      (s.err = false ∧ s.rangeOk addr 64 = true ∧
        t = s.setS sd (scRed (leNat (s.dmemRead addr 64)))) := by
  have h : execSred sd addr s = .next t := h
  unfold execSred at h
  obtain h | h | ⟨he, h⟩ := command_inversion h (by
    simp [Except.bind_error_iff, State.inDmem_eq_error])
  · exact .inl h
  · exact .inr (.inl h)
  · simp only [Except.bind_ok_iff, State.inDmem_eq_ok, Except.pure_eq_ok,
      Except.ok.injEq] at h
    obtain ⟨-, r0, e⟩ := h
    exact .inr (.inr ⟨he, r0, e.symm⟩)

theorem execSclamp_cases {sd ss1 : SReg} {s t : State}
    (h : exec (.sclamp sd ss1) s = .next t) :
    Dropped s t ∨ Faulted (.sclamp sd ss1) s t ∨
      (∃ a : BitVec 256,
        s.err = false ∧ s.s.get ss1.toFin = .valid a ∧ t = s.setS sd (clamp a)) := by
  have h : execSclamp sd ss1 s = .next t := h
  unfold execSclamp at h
  obtain h | h | ⟨he, h⟩ := command_inversion h (by
    simp [Except.bind_error_iff, State.scalarAt_eq_error])
  · exact .inl h
  · exact .inr (.inl h)
  · simp only [Except.bind_ok_iff, State.scalarAt_eq_ok, Except.pure_eq_ok,
      Except.ok.injEq] at h
    obtain ⟨a, h0, e⟩ := h
    exact .inr (.inr ⟨a, he, h0, e.symm⟩)

theorem execSchk_cases {ss1 : SReg} {s t : State}
    (h : exec (.schk ss1) s = .next t) :
    Dropped s t ∨ Faulted (.schk ss1) s t ∨
      (∃ a : BitVec 256,
        s.err = false ∧ s.s.get ss1.toFin = .valid a ∧ t = s.setSC (scalarCanonical a)) := by
  have h : execSchk ss1 s = .next t := h
  unfold execSchk at h
  obtain h | h | ⟨he, h⟩ := command_inversion h (by
    simp [Except.bind_error_iff, State.scalarAt_eq_error])
  · exact .inl h
  · exact .inr (.inl h)
  · simp only [Except.bind_ok_iff, State.scalarAt_eq_ok, Except.pure_eq_ok,
      Except.ok.injEq] at h
    obtain ⟨a, h0, e⟩ := h
    exact .inr (.inr ⟨a, he, h0, e.symm⟩)

theorem execPadd_cases {pd ps1 ps2 : PReg} {s t : State}
    (h : exec (.padd pd ps1 ps2) s = .next t) :
    Dropped s t ∨ Faulted (.padd pd ps1 ps2) s t ∨
      (∃ q1 q2 : Point,
        s.err = false ∧ s.p.get ps1.toFin = .valid q1 ∧ s.p.get ps2.toFin = .valid q2 ∧
        t = s.setP pd (.valid (ptAdd q1 q2))) := by
  have h : execPadd pd ps1 ps2 s = .next t := h
  unfold execPadd at h
  obtain h | h | ⟨he, h⟩ := command_inversion h (by
    simp [Except.bind_error_iff, State.pointAt_eq_error, State.present_eq_error])
  · exact .inl h
  · exact .inr (.inl h)
  · simp only [Except.bind_ok_iff, State.pointAt_eq_ok, State.present_eq_ok, Except.pure_eq_ok,
      Except.ok.injEq] at h
    obtain ⟨-, -, q1, h0, q2, h1, e⟩ := h
    exact .inr (.inr ⟨q1, q2, he, h0, h1, e.symm⟩)

theorem execPdbl_cases {pd ps1 : PReg} {s t : State}
    (h : exec (.pdbl pd ps1) s = .next t) :
    Dropped s t ∨ Faulted (.pdbl pd ps1) s t ∨
      (∃ q : Point,
        s.err = false ∧ s.p.get ps1.toFin = .valid q ∧ t = s.setP pd (.valid (ptAdd q q))) := by
  have h : execPdbl pd ps1 s = .next t := h
  unfold execPdbl at h
  obtain h | h | ⟨he, h⟩ := command_inversion h (by
    simp [Except.bind_error_iff, State.pointAt_eq_error])
  · exact .inl h
  · exact .inr (.inl h)
  · simp only [Except.bind_ok_iff, State.pointAt_eq_ok, Except.pure_eq_ok,
      Except.ok.injEq] at h
    obtain ⟨q, h0, e⟩ := h
    exact .inr (.inr ⟨q, he, h0, e.symm⟩)

theorem execPsmul_cases {pd ps1 : PReg} {sk : SReg} {s t : State}
    (h : exec (.psmul pd ps1 sk) s = .next t) :
    Dropped s t ∨ Faulted (.psmul pd ps1 sk) s t ∨
      (∃ q : Point, ∃ k : BitVec 256,
        s.err = false ∧ s.p.get ps1.toFin = .valid q ∧ s.s.get sk.toFin = .valid k ∧
        t = s.setP pd (.valid (ptMul k q))) := by
  have h : execPsmul pd ps1 sk s = .next t := h
  unfold execPsmul at h
  obtain h | h | ⟨he, h⟩ := command_inversion h (by
    simp [Except.bind_error_iff, State.scalarAt_eq_error, State.pointAt_eq_error, State.present_eq_error])
  · exact .inl h
  · exact .inr (.inl h)
  · simp only [Except.bind_ok_iff, State.scalarAt_eq_ok, State.pointAt_eq_ok, State.present_eq_ok, Except.pure_eq_ok,
      Except.ok.injEq] at h
    obtain ⟨-, -, q, h0, k, h1, e⟩ := h
    exact .inr (.inr ⟨q, k, he, h0, h1, e.symm⟩)

theorem execPsmulb_cases {pd : PReg} {sk : SReg} {s t : State}
    (h : exec (.psmulb pd sk) s = .next t) :
    Dropped s t ∨ Faulted (.psmulb pd sk) s t ∨
      (∃ k : BitVec 256,
        s.err = false ∧ s.s.get sk.toFin = .valid k ∧ t = s.setP pd (.valid (ptMul k basePoint))) := by
  have h : execPsmulb pd sk s = .next t := h
  unfold execPsmulb at h
  obtain h | h | ⟨he, h⟩ := command_inversion h (by
    simp [Except.bind_error_iff, State.scalarAt_eq_error])
  · exact .inl h
  · exact .inr (.inl h)
  · simp only [Except.bind_ok_iff, State.scalarAt_eq_ok, Except.pure_eq_ok,
      Except.ok.injEq] at h
    obtain ⟨k, h0, e⟩ := h
    exact .inr (.inr ⟨k, he, h0, e.symm⟩)

theorem execPmov_cases {pd ps1 : PReg} {s t : State}
    (h : exec (.pmov pd ps1) s = .next t) :
    Dropped s t ∨ Faulted (.pmov pd ps1) s t ∨
      (∃ q : Point,
        s.err = false ∧ s.p.get ps1.toFin = .valid q ∧ t = s.setP pd (.valid q)) := by
  have h : execPmov pd ps1 s = .next t := h
  unfold execPmov at h
  obtain h | h | ⟨he, h⟩ := command_inversion h (by
    simp [Except.bind_error_iff, State.pointAt_eq_error])
  · exact .inl h
  · exact .inr (.inl h)
  · simp only [Except.bind_ok_iff, State.pointAt_eq_ok, Except.pure_eq_ok,
      Except.ok.injEq] at h
    obtain ⟨q, h0, e⟩ := h
    exact .inr (.inr ⟨q, he, h0, e.symm⟩)

theorem execPldb_cases {pd : PReg} {s t : State}
    (h : exec (.pldb pd) s = .next t) :
    Dropped s t ∨ Faulted (.pldb pd) s t ∨
      (s.err = false ∧ t = s.setP pd (.valid basePoint)) := by
  have h : execPldb pd s = .next t := h
  unfold execPldb at h
  obtain h | h | ⟨he, h⟩ := command_inversion h nofun
  · exact .inl h
  · exact .inr (.inl h)
  · injection h with h
    exact .inr (.inr ⟨he, h.symm⟩)

theorem execPdec_cases {pd : PReg} {addr : Addr} {s t : State}
    (h : exec (.pdec pd addr) s = .next t) :
    Dropped s t ∨ Faulted (.pdec pd addr) s t ∨
      (∃ r : Option Point,
        s.err = false ∧ r = ptDec s.params.x0Sign1Reject (s.dmemRead addr 32) ∧
        s.rangeOk addr 32 = true ∧ t = (s.setP pd (decodedCell r)).setPV r.isSome) := by
  have h : execPdec pd addr s = .next t := h
  unfold execPdec at h
  obtain h | h | ⟨he, h⟩ := command_inversion h (by
    simp [Except.bind_error_iff, State.inDmem_eq_error])
  · exact .inl h
  · exact .inr (.inl h)
  · simp only [Except.bind_ok_iff, State.inDmem_eq_ok, Except.pure_eq_ok,
      Except.ok.injEq] at h
    obtain ⟨-, r0, e⟩ := h
    exact .inr (.inr ⟨_, he, rfl, r0, e.symm⟩)

theorem execPenc_cases {ps : PReg} {addr : Addr} {s t : State}
    (h : exec (.penc ps addr) s = .next t) :
    Dropped s t ∨ Faulted (.penc ps addr) s t ∨
      (∃ q : Point,
        s.err = false ∧ s.p.get ps.toFin = .valid q ∧ s.rangeOk addr 32 = true ∧
        t = s.dmemWrite addr (ptEnc q)) := by
  have h : execPenc ps addr s = .next t := h
  unfold execPenc at h
  obtain h | h | ⟨he, h⟩ := command_inversion h (by
    simp [Except.bind_error_iff, State.pointAt_eq_error, State.inDmem_eq_error])
  · exact .inl h
  · exact .inr (.inl h)
  · simp only [Except.bind_ok_iff, State.pointAt_eq_ok, State.inDmem_eq_ok, Except.pure_eq_ok,
      Except.ok.injEq] at h
    obtain ⟨q, h0, -, r0, e⟩ := h
    exact .inr (.inr ⟨q, he, h0, r0, e.symm⟩)

theorem execHinit_cases {s t : State}
    (h : exec .hinit s = .next t) :
    Dropped s t ∨ Faulted .hinit s t ∨
      (s.err = false ∧ t = s.setHbuf []) := by
  have h : execHinit s = .next t := h
  unfold execHinit at h
  obtain h | h | ⟨he, h⟩ := command_inversion h nofun
  · exact .inl h
  · exact .inr (.inl h)
  · injection h with h
    exact .inr (.inr ⟨he, h.symm⟩)

theorem execHupd_cases {addr : Addr} {s t : State}
    (h : exec (.hupd addr) s = .next t) :
    Dropped s t ∨ Faulted (.hupd addr) s t ∨
      (s.err = false ∧ s.rangeOk addr 32 = true ∧ t = s.setHbuf (s.hbuf ++ s.dmemRead addr 32)) := by
  have h : execHupd addr s = .next t := h
  unfold execHupd at h
  obtain h | h | ⟨he, h⟩ := command_inversion h (by
    simp [Except.bind_error_iff, State.inDmem_eq_error])
  · exact .inl h
  · exact .inr (.inl h)
  · simp only [Except.bind_ok_iff, State.inDmem_eq_ok, Except.pure_eq_ok,
      Except.ok.injEq] at h
    obtain ⟨-, r0, e⟩ := h
    exact .inr (.inr ⟨he, r0, e.symm⟩)

theorem execHupdm_cases {s t : State}
    (h : exec .hupdm s = .next t) :
    Dropped s t ∨ Faulted .hupdm s t ∨
      (s.err = false ∧ t = s.setHbuf (s.hbuf ++ s.message)) := by
  have h : execHupdm s = .next t := h
  unfold execHupdm at h
  obtain h | h | ⟨he, h⟩ := command_inversion h nofun
  · exact .inl h
  · exact .inr (.inl h)
  · injection h with h
    exact .inr (.inr ⟨he, h.symm⟩)

theorem execHfin_cases {addr : Addr} {s t : State}
    (h : exec (.hfin addr) s = .next t) :
    Dropped s t ∨ Faulted (.hfin addr) s t ∨
      (s.err = false ∧ s.rangeOk addr 64 = true ∧
        t = (s.dmemWrite addr (Config.hash512 s.hbuf).toList).setHbuf []) := by
  have h : execHfin addr s = .next t := h
  unfold execHfin at h
  obtain h | h | ⟨he, h⟩ := command_inversion h (by
    simp [Except.bind_error_iff, State.inDmem_eq_error])
  · exact .inl h
  · exact .inr (.inl h)
  · simp only [Except.bind_ok_iff, State.inDmem_eq_ok, Except.pure_eq_ok,
      Except.ok.injEq] at h
    obtain ⟨-, r0, e⟩ := h
    exact .inr (.inr ⟨he, r0, e.symm⟩)

theorem execKeyexp_cases {sd : SReg} {addr : Addr} {s t : State}
    (h : exec (.keyexp sd addr) s = .next t) :
    Dropped s t ∨ Faulted (.keyexp sd addr) s t ∨
      (s.err = false ∧ s.rangeOk s.skptr 32 = true ∧ s.rangeOk addr 32 = true ∧
        t = (s.setS sd (expandKey Config.hash512 (s.dmemRead s.skptr 32)).1).dmemWrite addr
        (expandKey Config.hash512 (s.dmemRead s.skptr 32)).2) := by
  have h : execKeyexp sd addr s = .next t := h
  unfold execKeyexp at h
  obtain h | h | ⟨he, h⟩ := command_inversion h (by
    simp [Except.bind_error_iff, State.inDmem_eq_error])
  · exact .inl h
  · exact .inr (.inl h)
  · simp only [Except.bind_ok_iff, State.inDmem_eq_ok, Except.pure_eq_ok,
      Except.ok.injEq] at h
    obtain ⟨-, r0, -, r1, e⟩ := h
    exact .inr (.inr ⟨he, r0, r1, e.symm⟩)

theorem execDerive_cases {s t : State}
    (h : exec .derive s = .next t) :
    Dropped s t ∨ Faulted .derive s t ∨
      (s.err = false ∧ s.rangeOk s.skptr 32 = true ∧ s.rangeOk s.pkptr 32 = true ∧
        t = s.dmemWrite s.pkptr (derivePub Config.hash512 (s.dmemRead s.skptr 32))) := by
  have h : execDerive s = .next t := h
  unfold execDerive at h
  obtain h | h | ⟨he, h⟩ := command_inversion h (by
    simp [Except.bind_error_iff, State.inDmem_eq_error])
  · exact .inl h
  · exact .inr (.inl h)
  · simp only [Except.bind_ok_iff, State.inDmem_eq_ok, Except.pure_eq_ok,
      Except.ok.injEq] at h
    obtain ⟨-, r0, -, r1, e⟩ := h
    exact .inr (.inr ⟨he, r0, r1, e.symm⟩)

theorem execSign_cases {s t : State}
    (h : exec .sign s = .next t) :
    Dropped s t ∨ Faulted .sign s t ∨
      (s.err = false ∧ s.rangeOk s.skptr 32 = true ∧ s.rangeOk s.pkptr 32 = true ∧
        s.rangeOk s.sgptr 64 = true ∧
        t = s.dmemWrite s.sgptr (signMsg Config.hash512 (s.dmemRead s.pkptr 32)
        (s.dmemRead s.skptr 32) s.message)) := by
  have h : execSign s = .next t := h
  unfold execSign at h
  obtain h | h | ⟨he, h⟩ := command_inversion h (by
    simp [Except.bind_error_iff, State.inDmem_eq_error])
  · exact .inl h
  · exact .inr (.inl h)
  · simp only [Except.bind_ok_iff, State.inDmem_eq_ok, Except.pure_eq_ok,
      Except.ok.injEq] at h
    obtain ⟨-, r0, -, r1, -, r2, e⟩ := h
    exact .inr (.inr ⟨he, r0, r1, r2, e.symm⟩)

theorem execVerify_cases {s t : State}
    (h : exec .verify s = .next t) :
    Dropped s t ∨ Faulted .verify s t ∨
      (∃ b : Bool,
        s.err = false ∧
        b = verifySig Config.hash512 s.params.x0Sign1Reject (s.dmemRead s.sgptr 64)
        (s.dmemRead s.pkptr 32) s.message ∧
        s.rangeOk s.sgptr 64 = true ∧ s.rangeOk s.pkptr 32 = true ∧ t = s.setV b) := by
  have h : execVerify s = .next t := h
  unfold execVerify at h
  generalize verifySig Config.hash512 s.params.x0Sign1Reject (s.dmemRead s.sgptr 64)
    (s.dmemRead s.pkptr 32) s.message = b at h ⊢
  obtain h | h | ⟨he, h⟩ := command_inversion h (by
    simp [Except.bind_error_iff, State.inDmem_eq_error])
  · exact .inl h
  · exact .inr (.inl h)
  · simp only [Except.bind_ok_iff, State.inDmem_eq_ok, Except.pure_eq_ok,
      Except.ok.injEq] at h
    obtain ⟨-, r0, -, r1, e⟩ := h
    exact .inr (.inr ⟨b, he, rfl, r0, r1, e.symm⟩)

end Sys2Proof.Machine
end

