-- ==== Sys2Proof/Laws/Edwards.lean ====
section
/-! SUPPORT. The twisted-Edwards group law over any field, for the curve `−x² + y² = 1 + d·x²·y²`
with −1 a square and `d` not: completeness, closure, commutativity and associativity (42_point R140
to R142), and the extended-coordinate formulas (R145 to R147). -/

namespace Sys2Proof.Laws.Edwards

variable {F : Type} [Field F]

/-- The curve equation (R140). -/
def On {R : Type} [CommRing R] (d x y : R) : Prop := y ^ 2 - x ^ 2 - 1 - d * x ^ 2 * y ^ 2 = 0

/-- The affine law's `t` (R142). -/
def tee (d x1 y1 x2 y2 : F) : F := d * x1 * x2 * y1 * y2
/-- The x-coordinate of a sum (R142). -/
def addX (d x1 y1 x2 y2 : F) : F := (x1 * y2 + y1 * x2) / (1 + tee d x1 y1 x2 y2)
/-- The y-coordinate of a sum (R142). -/
def addY (d x1 y1 x2 y2 : F) : F := (y1 * y2 + x1 * x2) / (1 - tee d x1 y1 x2 y2)

/-- What makes the law complete (R141): −1 is a square, `d` is not, and 2 is not 0. -/
structure Complete (d : F) : Prop where
  two : (2 : F) ≠ 0
  imag : ∃ i : F, i ^ 2 = -1
  nonsquare : ∀ z : F, z ^ 2 ≠ d

/-- A denominator that vanished would make `d` a square: with `t² = 1` and `e = ±1`,
`(i·x1 + e·t·y1)² = d·(x1·y1·(i·x2 + e·y2))²`. -/
theorem tee_sq_ne_one {d x1 y1 x2 y2 : F} (hd : Complete d) (h1 : On d x1 y1) (h2 : On d x2 y2) :
    tee d x1 y1 x2 y2 ^ 2 ≠ 1 := by
  intro ht
  obtain ⟨i, hi⟩ := hd.imag
  unfold On at h1 h2
  have hx1 : x1 ≠ 0 := by rintro rfl; simp [tee] at ht
  have hy1 : y1 ≠ 0 := by rintro rfl; simp [tee] at ht
  have hy2 : y2 ≠ 0 := by rintro rfl; simp [tee] at ht
  obtain ⟨t, hteq⟩ : ∃ t, tee d x1 y1 x2 y2 = t := ⟨_, rfl⟩
  rw [hteq] at ht
  have hprod : d * x1 * x2 * y1 * y2 = t := hteq
  have key : ∀ e : F, e ^ 2 = 1 →
      (i * x1 + e * t * y1) ^ 2 = d * (x1 * y1 * (i * x2 + e * y2)) ^ 2 := by
    intro e he
    have hlhs : (i * x1 + e * t * y1) ^ 2 = 1 + d * x1 ^ 2 * y1 ^ 2 + 2 * i * e * t * x1 * y1 := by
      linear_combination x1 ^ 2 * hi + t ^ 2 * y1 ^ 2 * he + y1 ^ 2 * ht + h1
    have hsq : d ^ 2 * x1 ^ 2 * y1 ^ 2 * x2 ^ 2 * y2 ^ 2 = 1 := by rw [← ht, ← hprod]; ring
    rw [hlhs]
    linear_combination
      -(d * x1 ^ 2 * y1 ^ 2 * x2 ^ 2) * hi - d * x1 ^ 2 * y1 ^ 2 * y2 ^ 2 * he
        - d * x1 ^ 2 * y1 ^ 2 * h2 - hsq - 2 * i * e * x1 * y1 * hprod
  have none : ∀ e : F, e ^ 2 = 1 → i * x2 + e * y2 = 0 := by
    intro e he
    by_contra hne
    apply hd.nonsquare ((i * x1 + e * t * y1) / (x1 * y1 * (i * x2 + e * y2)))
    rw [div_pow, key e he, mul_div_assoc, div_self, mul_one]
    exact pow_ne_zero 2 (mul_ne_zero (mul_ne_zero hx1 hy1) hne)
  have hp := none 1 (by ring)
  have hm := none (-1) (by ring)
  have : (2 : F) * y2 = 0 := by linear_combination hp - hm
  exact mul_ne_zero hd.two hy2 this

theorem one_add_tee_ne_zero {d x1 y1 x2 y2 : F} (hd : Complete d) (h1 : On d x1 y1)
    (h2 : On d x2 y2) : 1 + tee d x1 y1 x2 y2 ≠ 0 := fun h =>
  tee_sq_ne_one hd h1 h2 (by linear_combination (tee d x1 y1 x2 y2 - 1) * h)

theorem one_sub_tee_ne_zero {d x1 y1 x2 y2 : F} (hd : Complete d) (h1 : On d x1 y1)
    (h2 : On d x2 y2) : 1 - tee d x1 y1 x2 y2 ≠ 0 := fun h =>
  tee_sq_ne_one hd h1 h2 (by linear_combination (-tee d x1 y1 x2 y2 - 1) * h)

/-- The sum of two points of the curve is on the curve (R141). -/
theorem add_on {d x1 y1 x2 y2 : F} (hd : Complete d) (h1 : On d x1 y1) (h2 : On d x2 y2) :
    On d (addX d x1 y1 x2 y2) (addY d x1 y1 x2 y2) := by
  have hp := one_add_tee_ne_zero hd h1 h2
  have hm := one_sub_tee_ne_zero hd h1 h2
  unfold On addX addY
  field_simp
  unfold tee On at *
  linear_combination
    (d^3 * x1^2 * y1^2 * x2^4 * y2^4 - d^2 * x1^2 * x2^4 * y2^4 + d^2 * y1^2 * x2^4 * y2^4 - d^2
    * x2^4 * y2^4 - d * x1^2 * x2^4 * y2^2 + d * x1^2 * x2^2 * y2^4 + d * y1^2 * x2^4 * y2^2 - d
    * y1^2 * x2^2 * y2^4 - 2 * d * x2^4 * y2^4 - 2 * d * x2^2 * y2^2 - 2 * x2^4 * y2^2 + x2^4 +
    2 * x2^2 * y2^4 - 4 * x2^2 * y2^2 + y2^4) * h1
    + (d * x1^4 * x2^2 * y2^2 + 2 * d * x1^2 * x2^2 * y2^2 + d * y1^4 * x2^2 * y2^2 - 2 * d * y1^2
    * x2^2 * y2^2 + d * x2^2 * y2^2 + 2 * x1^2 * x2^2 * y2^2 - x1^2 * x2^2 + x1^2 * y2^2 - 2 *
    y1^2 * x2^2 * y2^2 + y1^2 * x2^2 - y1^2 * y2^2 + 2 * x2^2 * y2^2 - x2^2 + y2^2 + 1) * h2

theorem addX_comm (d x1 y1 x2 y2 : F) : addX d x1 y1 x2 y2 = addX d x2 y2 x1 y1 := by
  unfold addX tee; congr 1 <;> ring

theorem addY_comm (d x1 y1 x2 y2 : F) : addY d x1 y1 x2 y2 = addY d x2 y2 x1 y1 := by
  unfold addY tee; congr 1 <;> ring

section Assoc

variable {d x1 y1 x2 y2 x3 y3 : F}

/-- A sum of which one term is given by fractions (x). -/
theorem addX_frac {n1 n2 D1 D2 : F} (h1 : D1 ≠ 0) (h2 : D2 ≠ 0) (x y : F) :
    addX d (n1 / D1) (n2 / D2) x y =
      (n1 * D2 * y + n2 * D1 * x) / (D1 * D2 + d * n1 * n2 * x * y) := by
  have hden : 1 + tee d (n1 / D1) (n2 / D2) x y =
      (D1 * D2 + d * n1 * n2 * x * y) / (D1 * D2) := by unfold tee; field_simp
  unfold addX
  rw [hden, div_div_eq_mul_div]
  congr 1
  field_simp

/-- A sum of which one term is given by fractions (y). -/
theorem addY_frac {n1 n2 D1 D2 : F} (h1 : D1 ≠ 0) (h2 : D2 ≠ 0) (x y : F) :
    addY d (n1 / D1) (n2 / D2) x y =
      (n2 * D1 * y + n1 * D2 * x) / (D1 * D2 - d * n1 * n2 * x * y) := by
  have hden : 1 - tee d (n1 / D1) (n2 / D2) x y =
      (D1 * D2 - d * n1 * n2 * x * y) / (D1 * D2) := by unfold tee; field_simp
  unfold addY
  rw [hden, div_div_eq_mul_div]
  congr 1
  field_simp

/-- The fraction form's denominators do not vanish where the sum's do not. -/
theorem frac_den_ne {n1 n2 D1 D2 : F} (h1 : D1 ≠ 0) (h2 : D2 ≠ 0) {x y : F}
    (hp : 1 + tee d (n1 / D1) (n2 / D2) x y ≠ 0) (hm : 1 - tee d (n1 / D1) (n2 / D2) x y ≠ 0) :
    D1 * D2 + d * n1 * n2 * x * y ≠ 0 ∧ D1 * D2 - d * n1 * n2 * x * y ≠ 0 := by
  constructor
  · intro h
    apply hp
    have : 1 + tee d (n1 / D1) (n2 / D2) x y =
      (D1 * D2 + d * n1 * n2 * x * y) / (D1 * D2) := by unfold tee; field_simp
    rw [this, h, zero_div]
  · intro h
    apply hm
    have : 1 - tee d (n1 / D1) (n2 / D2) x y =
      (D1 * D2 - d * n1 * n2 * x * y) / (D1 * D2) := by unfold tee; field_simp
    rw [this, h, zero_div]

/-- The addition law is associative (R141). -/
theorem add_assoc (hd : Complete d) (h1 : On d x1 y1) (h2 : On d x2 y2) (h3 : On d x3 y3) :
    addX d (addX d x1 y1 x2 y2) (addY d x1 y1 x2 y2) x3 y3 =
      addX d x1 y1 (addX d x2 y2 x3 y3) (addY d x2 y2 x3 y3) ∧
    addY d (addX d x1 y1 x2 y2) (addY d x1 y1 x2 y2) x3 y3 =
      addY d x1 y1 (addX d x2 y2 x3 y3) (addY d x2 y2 x3 y3) := by
  have hp := one_add_tee_ne_zero hd h1 h2
  have hm := one_sub_tee_ne_zero hd h1 h2
  have kp := one_add_tee_ne_zero hd h2 h3
  have km := one_sub_tee_ne_zero hd h2 h3
  have h12 := add_on hd h1 h2
  have h23 := add_on hd h2 h3
  obtain ⟨ap, am⟩ := frac_den_ne hp hm (one_add_tee_ne_zero hd h12 h3) (one_sub_tee_ne_zero hd h12 h3)
  obtain ⟨bp, bm⟩ := frac_den_ne kp km (one_add_tee_ne_zero hd h23 h1) (one_sub_tee_ne_zero hd h23 h1)
  rw [addX_comm d x1 y1 (addX d x2 y2 x3 y3), addY_comm d x1 y1 (addX d x2 y2 x3 y3)]
  have e1 : addX d x1 y1 x2 y2 = (x1 * y2 + y1 * x2) / (1 + tee d x1 y1 x2 y2) := rfl
  have e2 : addY d x1 y1 x2 y2 = (y1 * y2 + x1 * x2) / (1 - tee d x1 y1 x2 y2) := rfl
  have e3 : addX d x2 y2 x3 y3 = (x2 * y3 + y2 * x3) / (1 + tee d x2 y2 x3 y3) := rfl
  have e4 : addY d x2 y2 x3 y3 = (y2 * y3 + x2 * x3) / (1 - tee d x2 y2 x3 y3) := rfl
  rw [e1, e2, e3, e4, addX_frac hp hm, addY_frac hp hm, addX_frac kp km, addY_frac kp km,
    div_eq_div_iff ap bp, div_eq_div_iff am bm]
  clear e1 e2 e3 e4 ap am bp bm h12 h23 hp hm kp km
  unfold On at h1 h2 h3
  unfold tee
  constructor
  · linear_combination
      (-d^2 * x1 * x2^4 * y2^3 * x3^2 * y3 - d^2 * x1 * x2^3 * y2^4 * x3 * y3^2 + d^2 * y1 * x2^4 *
    y2^3 * x3 * y3^2 + d^2 * y1 * x2^3 * y2^4 * x3^2 * y3 - d * x1 * x2^4 * y2 * x3^2 * y3 - d *
    x1 * x2^3 * y2^2 * x3^3 - d * x1 * x2^3 * y2^2 * x3 + d * x1 * x2^2 * y2^3 * y3^3 - d * x1 *
    x2^2 * y2^3 * y3 + d * x1 * x2 * y2^4 * x3 * y3^2 + d * y1 * x2^4 * y2 * x3 * y3^2 + d * y1
    * x2^3 * y2^2 * y3^3 - d * y1 * x2^3 * y2^2 * y3 - d * y1 * x2^2 * y2^3 * x3^3 - d * y1 *
    x2^2 * y2^3 * x3 - d * y1 * x2 * y2^4 * x3^2 * y3) * h1
      + (d^2 * x1^2 * y1 * x2^2 * y2 * x3^3 * y3^2 - d^2 * x1^2 * y1 * x2 * y2^2 * x3^2 * y3^3 - d^2
    * x1 * y1^2 * x2^2 * y2 * x3^2 * y3^3 + d^2 * x1 * y1^2 * x2 * y2^2 * x3^3 * y3^2 + d * x1^3
    * x2^2 * y2 * x3^2 * y3 + d * x1^3 * x2 * y2^2 * x3 * y3^2 + d * x1^3 * x2 * x3^3 * y3^2 + d
    * x1^3 * y2 * x3^2 * y3^3 - d * x1^2 * y1 * x2^2 * y2 * x3 * y3^2 - d * x1^2 * y1 * x2 *
    y2^2 * x3^2 * y3 + d * x1^2 * y1 * x2 * x3^2 * y3^3 + d * x1^2 * y1 * y2 * x3^3 * y3^2 - d *
    x1 * y1^2 * x2^2 * y2 * x3^2 * y3 - d * x1 * y1^2 * x2 * y2^2 * x3 * y3^2 - d * x1 * y1^2 *
    x2 * x3^3 * y3^2 - d * x1 * y1^2 * y2 * x3^2 * y3^3 + d * x1 * x2^2 * y2 * x3^2 * y3 + d *
    x1 * x2 * y2^2 * x3 * y3^2 + d * x1 * x2 * x3^3 * y3^2 + d * x1 * y2 * x3^2 * y3^3 + d *
    y1^3 * x2^2 * y2 * x3 * y3^2 + d * y1^3 * x2 * y2^2 * x3^2 * y3 - d * y1^3 * x2 * x3^2 *
    y3^3 - d * y1^3 * y2 * x3^3 * y3^2 - d * y1 * x2^2 * y2 * x3 * y3^2 - d * y1 * x2 * y2^2 *
    x3^2 * y3 + d * y1 * x2 * x3^2 * y3^3 + d * y1 * y2 * x3^3 * y3^2 + x1^3 * x2 * x3^3 - x1^3
    * x2 * x3 * y3^2 + x1^3 * x2 * x3 + x1^3 * y2 * x3^2 * y3 - x1^3 * y2 * y3^3 + x1^3 * y2 *
    y3 + x1^2 * y1 * x2 * x3^2 * y3 - x1^2 * y1 * x2 * y3^3 + x1^2 * y1 * x2 * y3 + x1^2 * y1 *
    y2 * x3^3 - x1^2 * y1 * y2 * x3 * y3^2 + x1^2 * y1 * y2 * x3 - x1 * y1^2 * x2 * x3^3 + x1 *
    y1^2 * x2 * x3 * y3^2 - x1 * y1^2 * x2 * x3 - x1 * y1^2 * y2 * x3^2 * y3 + x1 * y1^2 * y2 *
    y3^3 - x1 * y1^2 * y2 * y3 + x1 * x2 * x3^3 - x1 * x2 * x3 * y3^2 + x1 * x2 * x3 + x1 * y2 *
    x3^2 * y3 - x1 * y2 * y3^3 + x1 * y2 * y3 - y1^3 * x2 * x3^2 * y3 + y1^3 * x2 * y3^3 - y1^3
    * x2 * y3 - y1^3 * y2 * x3^3 + y1^3 * y2 * x3 * y3^2 - y1^3 * y2 * x3 + y1 * x2 * x3^2 * y3
    - y1 * x2 * y3^3 + y1 * x2 * y3 + y1 * y2 * x3^3 - y1 * y2 * x3 * y3^2 + y1 * y2 * x3) * h2
      + (-d * x1^2 * y1 * x2^2 * y2 * x3 + d * x1^2 * y1 * x2 * y2^2 * y3 + d * x1 * y1^2 * x2^2 * y2
    * y3 - d * x1 * y1^2 * x2 * y2^2 * x3 - x1^3 * x2^3 * x3 - x1^3 * x2^2 * y2 * y3 + x1^3 * x2
    * y2^2 * x3 - x1^3 * x2 * x3 + x1^3 * y2^3 * y3 - x1^3 * y2 * y3 - x1^2 * y1 * x2^3 * y3 -
    x1^2 * y1 * x2^2 * y2 * x3 + x1^2 * y1 * x2 * y2^2 * y3 - x1^2 * y1 * x2 * y3 + x1^2 * y1 *
    y2^3 * x3 - x1^2 * y1 * y2 * x3 + x1 * y1^2 * x2^3 * x3 + x1 * y1^2 * x2^2 * y2 * y3 - x1 *
    y1^2 * x2 * y2^2 * x3 + x1 * y1^2 * x2 * x3 - x1 * y1^2 * y2^3 * y3 + x1 * y1^2 * y2 * y3 -
    x1 * x2^3 * x3 - x1 * x2^2 * y2 * y3 + x1 * x2 * y2^2 * x3 - x1 * x2 * x3 + x1 * y2^3 * y3 -
    x1 * y2 * y3 + y1^3 * x2^3 * y3 + y1^3 * x2^2 * y2 * x3 - y1^3 * x2 * y2^2 * y3 + y1^3 * x2
    * y3 - y1^3 * y2^3 * x3 + y1^3 * y2 * x3 - y1 * x2^3 * y3 - y1 * x2^2 * y2 * x3 + y1 * x2 *
    y2^2 * y3 - y1 * x2 * y3 + y1 * y2^3 * x3 - y1 * y2 * x3) * h3
  · linear_combination
      (d^2 * x1 * x2^4 * y2^3 * x3 * y3^2 + d^2 * x1 * x2^3 * y2^4 * x3^2 * y3 - d^2 * y1 * x2^4 *
    y2^3 * x3^2 * y3 - d^2 * y1 * x2^3 * y2^4 * x3 * y3^2 + d * x1 * x2^4 * y2 * x3 * y3^2 + d *
    x1 * x2^3 * y2^2 * y3^3 - d * x1 * x2^3 * y2^2 * y3 - d * x1 * x2^2 * y2^3 * x3^3 - d * x1 *
    x2^2 * y2^3 * x3 - d * x1 * x2 * y2^4 * x3^2 * y3 - d * y1 * x2^4 * y2 * x3^2 * y3 - d * y1
    * x2^3 * y2^2 * x3^3 - d * y1 * x2^3 * y2^2 * x3 + d * y1 * x2^2 * y2^3 * y3^3 - d * y1 *
    x2^2 * y2^3 * y3 + d * y1 * x2 * y2^4 * x3 * y3^2) * h1
      + (d^2 * x1^2 * y1 * x2^2 * y2 * x3^2 * y3^3 - d^2 * x1^2 * y1 * x2 * y2^2 * x3^3 * y3^2 - d^2
    * x1 * y1^2 * x2^2 * y2 * x3^3 * y3^2 + d^2 * x1 * y1^2 * x2 * y2^2 * x3^2 * y3^3 - d * x1^3
    * x2^2 * y2 * x3 * y3^2 - d * x1^3 * x2 * y2^2 * x3^2 * y3 + d * x1^3 * x2 * x3^2 * y3^3 + d
    * x1^3 * y2 * x3^3 * y3^2 + d * x1^2 * y1 * x2^2 * y2 * x3^2 * y3 + d * x1^2 * y1 * x2 *
    y2^2 * x3 * y3^2 + d * x1^2 * y1 * x2 * x3^3 * y3^2 + d * x1^2 * y1 * y2 * x3^2 * y3^3 + d *
    x1 * y1^2 * x2^2 * y2 * x3 * y3^2 + d * x1 * y1^2 * x2 * y2^2 * x3^2 * y3 - d * x1 * y1^2 *
    x2 * x3^2 * y3^3 - d * x1 * y1^2 * y2 * x3^3 * y3^2 - d * x1 * x2^2 * y2 * x3 * y3^2 - d *
    x1 * x2 * y2^2 * x3^2 * y3 + d * x1 * x2 * x3^2 * y3^3 + d * x1 * y2 * x3^3 * y3^2 - d *
    y1^3 * x2^2 * y2 * x3^2 * y3 - d * y1^3 * x2 * y2^2 * x3 * y3^2 - d * y1^3 * x2 * x3^3 *
    y3^2 - d * y1^3 * y2 * x3^2 * y3^3 + d * y1 * x2^2 * y2 * x3^2 * y3 + d * y1 * x2 * y2^2 *
    x3 * y3^2 + d * y1 * x2 * x3^3 * y3^2 + d * y1 * y2 * x3^2 * y3^3 + x1^3 * x2 * x3^2 * y3 -
    x1^3 * x2 * y3^3 + x1^3 * x2 * y3 + x1^3 * y2 * x3^3 - x1^3 * y2 * x3 * y3^2 + x1^3 * y2 *
    x3 + x1^2 * y1 * x2 * x3^3 - x1^2 * y1 * x2 * x3 * y3^2 + x1^2 * y1 * x2 * x3 + x1^2 * y1 *
    y2 * x3^2 * y3 - x1^2 * y1 * y2 * y3^3 + x1^2 * y1 * y2 * y3 - x1 * y1^2 * x2 * x3^2 * y3 +
    x1 * y1^2 * x2 * y3^3 - x1 * y1^2 * x2 * y3 - x1 * y1^2 * y2 * x3^3 + x1 * y1^2 * y2 * x3 *
    y3^2 - x1 * y1^2 * y2 * x3 + x1 * x2 * x3^2 * y3 - x1 * x2 * y3^3 + x1 * x2 * y3 + x1 * y2 *
    x3^3 - x1 * y2 * x3 * y3^2 + x1 * y2 * x3 - y1^3 * x2 * x3^3 + y1^3 * x2 * x3 * y3^2 - y1^3
    * x2 * x3 - y1^3 * y2 * x3^2 * y3 + y1^3 * y2 * y3^3 - y1^3 * y2 * y3 + y1 * x2 * x3^3 - y1
    * x2 * x3 * y3^2 + y1 * x2 * x3 + y1 * y2 * x3^2 * y3 - y1 * y2 * y3^3 + y1 * y2 * y3) * h2
      + (-d * x1^2 * y1 * x2^2 * y2 * y3 + d * x1^2 * y1 * x2 * y2^2 * x3 + d * x1 * y1^2 * x2^2 * y2
    * x3 - d * x1 * y1^2 * x2 * y2^2 * y3 - x1^3 * x2^3 * y3 - x1^3 * x2^2 * y2 * x3 + x1^3 * x2
    * y2^2 * y3 - x1^3 * x2 * y3 + x1^3 * y2^3 * x3 - x1^3 * y2 * x3 - x1^2 * y1 * x2^3 * x3 -
    x1^2 * y1 * x2^2 * y2 * y3 + x1^2 * y1 * x2 * y2^2 * x3 - x1^2 * y1 * x2 * x3 + x1^2 * y1 *
    y2^3 * y3 - x1^2 * y1 * y2 * y3 + x1 * y1^2 * x2^3 * y3 + x1 * y1^2 * x2^2 * y2 * x3 - x1 *
    y1^2 * x2 * y2^2 * y3 + x1 * y1^2 * x2 * y3 - x1 * y1^2 * y2^3 * x3 + x1 * y1^2 * y2 * x3 -
    x1 * x2^3 * y3 - x1 * x2^2 * y2 * x3 + x1 * x2 * y2^2 * y3 - x1 * x2 * y3 + x1 * y2^3 * x3 -
    x1 * y2 * x3 + y1^3 * x2^3 * x3 + y1^3 * x2^2 * y2 * y3 - y1^3 * x2 * y2^2 * x3 + y1^3 * x2
    * x3 - y1^3 * y2^3 * y3 + y1^3 * y2 * y3 - y1 * x2^3 * x3 - y1 * x2^2 * y2 * y3 + y1 * x2 *
    y2^2 * x3 - y1 * x2 * x3 + y1 * y2^3 * y3 - y1 * y2 * y3) * h3

end Assoc

section Extended

variable {d x1 y1 x2 y2 : F}

/-- A quadruple represents an affine point (R145). -/
structure Rep (X Y Z T x y : F) : Prop where
  nz : Z ≠ 0
  xeq : X = x * Z
  yeq : Y = y * Z
  teq : T = x * y * Z

/-- The addition formulas of R146 represent the affine sum, with a non-zero `Z`. -/
theorem ext_add {X1 Y1 Z1 T1 X2 Y2 Z2 T2 : F} (hd : Complete d) (h1 : On d x1 y1) (h2 : On d x2 y2)
    (r1 : Rep X1 Y1 Z1 T1 x1 y1) (r2 : Rep X2 Y2 Z2 T2 x2 y2) {E H Ff G : F}
    (hE : E = (Y1 + X1) * (Y2 + X2) - (Y1 - X1) * (Y2 - X2))
    (hH : H = (Y1 + X1) * (Y2 + X2) + (Y1 - X1) * (Y2 - X2))
    (hF : Ff = Z1 * 2 * Z2 - T1 * (2 * d) * T2) (hG : G = Z1 * 2 * Z2 + T1 * (2 * d) * T2) :
    Rep (E * Ff) (G * H) (Ff * G) (E * H) (addX d x1 y1 x2 y2) (addY d x1 y1 x2 y2) := by
  have hp := one_add_tee_ne_zero hd h1 h2
  have hm := one_sub_tee_ne_zero hd h1 h2
  have hF' : Ff = 2 * Z1 * Z2 * (1 - tee d x1 y1 x2 y2) := by rw [hF, r1.teq, r2.teq]; unfold tee; ring
  have hG' : G = 2 * Z1 * Z2 * (1 + tee d x1 y1 x2 y2) := by rw [hG, r1.teq, r2.teq]; unfold tee; ring
  have hE' : E = 2 * Z1 * Z2 * (x1 * y2 + y1 * x2) := by rw [hE, r1.xeq, r2.xeq, r1.yeq, r2.yeq]; ring
  have hH' : H = 2 * Z1 * Z2 * (y1 * y2 + x1 * x2) := by rw [hH, r1.xeq, r2.xeq, r1.yeq, r2.yeq]; ring
  have hz : 2 * Z1 * Z2 ≠ 0 := mul_ne_zero (mul_ne_zero hd.two r1.nz) r2.nz
  refine ⟨?_, ?_, ?_, ?_⟩
  · rw [hF', hG']; exact mul_ne_zero (mul_ne_zero hz hm) (mul_ne_zero hz hp)
  all_goals
    simp only [hE', hF', hG', hH', addX, addY]
    field_simp

/-- The doubling formulas of R147 represent the affine double, with a non-zero `Z`. -/
theorem ext_dbl {X Y Z T x y : F} (hd : Complete d) (h : On d x y) (r : Rep X Y Z T x y)
    {E H Ff G : F} (hE : E = X * X + Y * Y - (X + Y) * (X + Y)) (hH : H = X * X + Y * Y)
    (hG : G = X * X - Y * Y) (hF : Ff = 2 * (Z * Z) + (X * X - Y * Y)) :
    Rep (E * Ff) (G * H) (Ff * G) (E * H) (addX d x y x y) (addY d x y x y) := by
  have hp := one_add_tee_ne_zero hd h h
  have hm := one_sub_tee_ne_zero hd h h
  unfold On at h
  have hF' : Ff = Z * Z * (1 - tee d x y x y) := by
    rw [hF, r.xeq, r.yeq]; unfold tee; linear_combination (-Z ^ 2) * h
  have hG' : G = -(Z * Z * (1 + tee d x y x y)) := by
    rw [hG, r.xeq, r.yeq]; unfold tee; linear_combination (-Z ^ 2) * h
  have hE' : E = -(Z * Z * (x * y + y * x)) := by rw [hE, r.xeq, r.yeq]; ring
  have hH' : H = Z * Z * (y * y + x * x) := by rw [hH, r.xeq, r.yeq]; ring
  have hz : Z * Z ≠ 0 := mul_ne_zero r.nz r.nz
  refine ⟨?_, ?_, ?_, ?_⟩
  · rw [hF', hG']; exact mul_ne_zero (mul_ne_zero hz hm) (neg_ne_zero.2 (mul_ne_zero hz hp))
  all_goals
    simp only [hE', hF', hG', hH', addX, addY]
    field_simp

end Extended

end Sys2Proof.Laws.Edwards
end

