-- ==== Sys2Proof/Laws/PrimeP.lean ====
section
/-! SUPPORT. `P = 2^255 - 19` is prime (00_scope R7), by a certificate checked in the kernel. -/

namespace Sys2Proof.Laws

/-- `a^e mod m` from the `n` low bits of `e`, highest first. -/
def powModLoop (m a e : Nat) : Nat → Nat → Nat
  | 0, acc => acc
  | n + 1, acc => powModLoop m a e n (if e.testBit n then acc * acc % m * a % m else acc * acc % m)

/-- `a^e mod m` for `e < 2^256`. -/
def powMod (m a e : Nat) : Nat := powModLoop m a e 256 1

/-- One more bit of an exponent: the step of squaring and multiplying. -/
theorem div_two_pow_step (e n : Nat) :
    e / 2 ^ n = 2 * (e / 2 ^ (n + 1)) + (if e.testBit n then 1 else 0) := by
  have h1 : e / 2 ^ (n + 1) = e / 2 ^ n / 2 := by rw [pow_succ, Nat.div_div_eq_div_mul]
  have h2 : e.testBit n = decide (e / 2 ^ n % 2 = 1) := Nat.testBit_eq_decide_div_mod_eq
  rw [h1, h2]
  by_cases h : e / 2 ^ n % 2 = 1 <;> simp [h] <;> omega

theorem powModLoop_cast (m a e : Nat) (n acc : Nat)
    (h : (acc : ZMod m) = (a : ZMod m) ^ (e / 2 ^ n)) :
    (powModLoop m a e n acc : ZMod m) = (a : ZMod m) ^ e := by
  induction n generalizing acc with
  | zero => simpa [powModLoop] using h
  | succ n ih =>
    apply ih
    rw [div_two_pow_step e n]
    split <;> simp [h] <;> ring

theorem powMod_cast (m a e : Nat) (he : e < 2 ^ 256) :
    (powMod m a e : ZMod m) = (a : ZMod m) ^ e :=
  powModLoop_cast m a e 256 1 (by rw [Nat.div_eq_of_lt he, pow_zero, Nat.cast_one])

theorem powModLoop_lt {m : Nat} (hm : 1 < m) (a e n acc : Nat) (h : acc < m) :
    powModLoop m a e n acc < m := by
  induction n generalizing acc with
  | zero => exact h
  | succ n ih => exact ih _ (by split <;> exact Nat.mod_lt _ (by omega))

theorem pow_eq_one_iff_powMod {m : Nat} (hm : 1 < m) (a e : Nat) (he : e < 2 ^ 256) :
    (a : ZMod m) ^ e = 1 ↔ powMod m a e = 1 := by
  rw [← powMod_cast m a e he]
  have hlt : powMod m a e < m := powModLoop_lt hm a e 256 1 hm
  have h1 : ((1 : Nat) : ZMod m) = 1 := Nat.cast_one
  rw [← h1, ZMod.natCast_eq_natCast_iff]
  unfold Nat.ModEq
  rw [Nat.mod_eq_of_lt hlt, Nat.mod_eq_of_lt hm]

/-- Lucas' criterion with the prime factors of `p - 1` as a list. -/
theorem prime_of_factors {p : Nat} (a : Nat) (fs : List Nat) (hp : 1 < p) (hb : p < 2 ^ 256)
    (hprime : ∀ q ∈ fs, q.Prime) (hprod : fs.prod = p - 1) (h1 : powMod p a (p - 1) = 1)
    (hq : ∀ q ∈ fs, powMod p a ((p - 1) / q) ≠ 1) : p.Prime := by
  apply lucas_primality p (a : ZMod p)
  · rwa [pow_eq_one_iff_powMod hp _ _ (by omega)]
  · intro q hqp hdvd
    rw [← hprod, hqp.prime.dvd_prod_iff] at hdvd
    obtain ⟨f, hf, hqf⟩ := hdvd
    obtain rfl := (Nat.prime_dvd_prime_iff_eq hqp (hprime f hf)).1 hqf
    rw [Ne, pow_eq_one_iff_powMod hp _ _ (lt_of_le_of_lt (Nat.div_le_self _ _) (by omega))]
    exact hq q hf

theorem prime_2773320623 : Nat.Prime 2773320623 :=
  prime_of_factors 5 [2, 2437, 569003] (by norm_num) (by norm_num)
    (by intro q hq; simp at hq; rcases hq with rfl | rfl | rfl <;> norm_num)
    (by norm_num) (by decide +kernel) (by decide +kernel)

theorem prime_72106336199 : Nat.Prime 72106336199 :=
  prime_of_factors 7 [2, 13, 2773320623] (by norm_num) (by norm_num)
    (by
      intro q hq
      simp at hq
      rcases hq with rfl | rfl | rfl
      · norm_num
      · norm_num
      · exact prime_2773320623)
    (by norm_num) (by decide +kernel) (by decide +kernel)

theorem prime_1919519569386763 : Nat.Prime 1919519569386763 :=
  prime_of_factors 2 [2, 3, 7, 19, 47, 47, 127, 8574133] (by norm_num) (by norm_num)
    (by
      intro q hq
      simp at hq
      rcases hq with rfl | rfl | rfl | rfl | rfl | rfl | rfl <;> norm_num)
    (by norm_num) (by decide +kernel) (by decide +kernel)

theorem prime_31757755568855353 : Nat.Prime 31757755568855353 :=
  prime_of_factors 10 [2, 2, 2, 3, 31, 107, 223, 4153, 430751] (by norm_num) (by norm_num)
    (by
      intro q hq
      simp at hq
      rcases hq with rfl | rfl | rfl | rfl | rfl | rfl | rfl <;> norm_num)
    (by norm_num) (by decide +kernel) (by decide +kernel)

theorem prime_75445702479781427272750846543864801 :
    Nat.Prime 75445702479781427272750846543864801 :=
  prime_of_factors 7 [2, 2, 2, 2, 2, 3, 3, 5, 5, 75707, 72106336199, 1919519569386763]
    (by norm_num) (by norm_num)
    (by
      intro q hq
      simp at hq
      rcases hq with rfl | rfl | rfl | rfl | rfl | rfl
      · norm_num
      · norm_num
      · norm_num
      · norm_num
      · exact prime_72106336199
      · exact prime_1919519569386763)
    (by norm_num) (by decide +kernel) (by decide +kernel)

theorem prime_factor_of_P_sub_one :
    Nat.Prime 74058212732561358302231226437062788676166966415465897661863160754340907 :=
  prime_of_factors 2
    [2, 3, 353, 57467, 132049, 1923133, 31757755568855353, 75445702479781427272750846543864801]
    (by norm_num) (by norm_num)
    (by
      intro q hq
      simp at hq
      rcases hq with rfl | rfl | rfl | rfl | rfl | rfl | rfl | rfl
      · norm_num
      · norm_num
      · norm_num
      · norm_num
      · norm_num
      · norm_num
      · exact prime_31757755568855353
      · exact prime_75445702479781427272750846543864801)
    (by norm_num) (by decide +kernel) (by decide +kernel)

/-- The field prime is prime. -/
theorem prime_P : Nat.Prime P :=
  prime_of_factors 2
    [2, 2, 3, 65147, 74058212732561358302231226437062788676166966415465897661863160754340907]
    (by norm_num [P]) (by norm_num [P])
    (by
      intro q hq
      simp at hq
      rcases hq with rfl | rfl | rfl | rfl
      · norm_num
      · norm_num
      · norm_num
      · exact prime_factor_of_P_sub_one)
    (by norm_num [P]) (by decide +kernel) (by decide +kernel)

end Sys2Proof.Laws
end

