-- ==== Sys2Proof/Laws/FieldLaws.lean ====
section
/-! SUPPORT. The machine's field functions are arithmetic modulo `P` (40_field R100, R101, R113): the
map `toZ` to `ZMod P` turns each into the library's operation. -/

namespace Sys2Proof.Laws

open Sys2Proof.Machine

theorem fact_prime_P : Fact P.Prime := ⟨prime_P⟩

theorem P_pos : 0 < P := by decide

/-- A field element as an element of `ZMod P`. -/
def toZ (a : Fe) : ZMod P := (a.val : ZMod P)

theorem toZ_inj {a b : Fe} : toZ a = toZ b ↔ a = b := by
  constructor
  · intro h
    have h' := (ZMod.natCast_eq_natCast_iff _ _ _).1 h
    unfold Nat.ModEq at h'
    rw [Nat.mod_eq_of_lt a.isLt, Nat.mod_eq_of_lt b.isLt] at h'
    exact Fin.ext h'
  · rintro rfl; rfl

@[simp] theorem feOf_val (n : Nat) : (feOf n).val = n % P := rfl

@[simp] theorem toZ_feOf (n : Nat) : toZ (feOf n) = (n : ZMod P) := by
  unfold toZ feOf
  exact ZMod.natCast_mod n P

@[simp] theorem feOf_self (a : Fe) : feOf a.val = a := Fin.ext (Nat.mod_eq_of_lt a.isLt)

@[simp] theorem toZ_fAdd (a b : Fe) : toZ (fAdd a b) = toZ a + toZ b := by
  simp [fAdd, toZ]

@[simp] theorem toZ_fSub (a b : Fe) : toZ (fSub a b) = toZ a - toZ b := by
  unfold fSub
  rw [toZ_feOf, Nat.cast_add, Nat.cast_sub b.isLt.le, ZMod.natCast_self]
  unfold toZ
  ring

@[simp] theorem toZ_fMul (a b : Fe) : toZ (fMul a b) = toZ a * toZ b := by
  simp [fMul, toZ]

theorem toZ_fPowLoop (a : Fe) (e n : Nat) (acc : Fe) (h : toZ acc = toZ a ^ (e / 2 ^ n)) :
    toZ (fPowLoop a e n acc) = toZ a ^ e := by
  induction n generalizing acc with
  | zero => simpa [fPowLoop] using h
  | succ n ih =>
    apply ih
    rw [div_two_pow_step e n]
    split <;> simp [h] <;> ring

/-- `fPow` is exponentiation, for exponents of at most 256 bits. -/
theorem toZ_fPow (a : Fe) {e : Nat} (he : e < 2 ^ 256) : toZ (fPow a e) = toZ a ^ e :=
  toZ_fPowLoop a e 256 _ (by rw [Nat.div_eq_of_lt he, pow_zero, toZ_feOf, Nat.cast_one])

/-- `inv` is the field inverse, with `inv(0) = 0` (R101, R113). -/
theorem toZ_fInv [Fact P.Prime] (a : Fe) : toZ (fInv a) = (toZ a)⁻¹ := by
  unfold fInv
  rw [toZ_fPow a (by decide)]
  by_cases h : toZ a = 0
  · rw [h, inv_zero, zero_pow (by decide)]
  · apply eq_inv_of_mul_eq_one_left
    rw [← pow_succ, show P - 2 + 1 = P - 1 by decide]
    exact ZMod.pow_card_sub_one_eq_one h

end Sys2Proof.Laws
end

