-- ==== Sys2Proof/Laws/CurveLaws.lean ====
section
/-! SUPPORT. The machine's curve operations obey the group law (42_point R141, R142, R144), and the
reference datapath computes the `k`-fold sum (R145 to R148). -/

namespace Sys2Proof.Laws

open Sys2Proof.Machine

/-! ### Constants (95_test_vectors section 2) -/

theorem sqrtM1_sq : fMul sqrtM1 sqrtM1 = feOf (P - 1) := by decide +kernel

theorem curveD_not_square : fPow curveD ((P - 1) / 2) = feOf (P - 1) := by decide +kernel

theorem curveD2_eq : curveD2 = fMul (feOf 2) curveD := by decide +kernel

theorem toZ_neg_one : toZ (feOf (P - 1)) = -1 := by
  rw [toZ_feOf, Nat.cast_sub (by decide : 1 ≤ P), ZMod.natCast_self]
  ring

theorem one_ne_neg_one_Z : (1 : ZMod P) ≠ -1 := by
  rw [← toZ_neg_one, show (1 : ZMod P) = toZ (feOf 1) by rw [toZ_feOf, Nat.cast_one], Ne, toZ_inj]
  decide +kernel

/-- The addition law of the machine's curve is complete (R141). -/
theorem complete_curveD [Fact P.Prime] : Edwards.Complete (toZ curveD) where
  two := by
    intro h
    apply one_ne_neg_one_Z
    linear_combination h
  imag := ⟨toZ sqrtM1, by rw [pow_two, ← toZ_fMul, sqrtM1_sq, toZ_neg_one]⟩
  nonsquare := by
    intro z hz
    have h1 : toZ curveD ^ ((P - 1) / 2) = -1 := by
      rw [← toZ_fPow _ (by decide), curveD_not_square, toZ_neg_one]
    rw [← hz, ← pow_mul, show 2 * ((P - 1) / 2) = P - 1 by decide] at h1
    by_cases h0 : z = 0
    · rw [h0, zero_pow (by decide)] at h1
      exact one_ne_zero (α := ZMod P) (by linear_combination h1)
    · rw [ZMod.pow_card_sub_one_eq_one h0] at h1
      exact one_ne_neg_one_Z h1

/-! ### The curve and the addition law -/

theorem onCurve_iff (q : Point) :
    onCurve q = true ↔ Edwards.On (toZ curveD) (toZ q.x) (toZ q.y) := by
  unfold onCurve Edwards.On
  rw [beq_iff_eq, ← toZ_inj]
  simp only [toZ_fSub, toZ_fMul, toZ_feOf, Nat.cast_one, Nat.cast_zero]
  constructor <;> intro h <;> linear_combination h

theorem toZ_ptAdd_x [Fact P.Prime] (q1 q2 : Point) :
    toZ (ptAdd q1 q2).x = Edwards.addX (toZ curveD) (toZ q1.x) (toZ q1.y) (toZ q2.x) (toZ q2.y) := by
  simp only [ptAdd, Edwards.addX, Edwards.tee, toZ_fMul, toZ_fAdd, toZ_fInv, toZ_feOf, Nat.cast_one,
    div_eq_mul_inv]

theorem toZ_ptAdd_y [Fact P.Prime] (q1 q2 : Point) :
    toZ (ptAdd q1 q2).y = Edwards.addY (toZ curveD) (toZ q1.x) (toZ q1.y) (toZ q2.x) (toZ q2.y) := by
  simp only [ptAdd, Edwards.addY, Edwards.tee, toZ_fMul, toZ_fAdd, toZ_fSub, toZ_fInv, toZ_feOf,
    Nat.cast_one, div_eq_mul_inv]

theorem point_ext_toZ {a b : Point} (hx : toZ a.x = toZ b.x) (hy : toZ a.y = toZ b.y) : a = b := by
  cases a; cases b
  rw [toZ_inj] at hx hy
  cases hx; cases hy; rfl

theorem onCurve_id : onCurve idPoint = true := by decide +kernel

theorem onCurve_base : onCurve basePoint = true := by decide +kernel

/-- The sum of two points of `E` is in `E` (R141). -/
theorem onCurve_ptAdd {a b : Point} (ha : onCurve a = true) (hb : onCurve b = true) :
    onCurve (ptAdd a b) = true := by
  have := fact_prime_P
  rw [onCurve_iff] at *
  rw [toZ_ptAdd_x, toZ_ptAdd_y]
  exact Edwards.add_on complete_curveD ha hb

/-- `PtAdd(P, Q) = PtAdd(Q, P)` (R142). -/
theorem ptAdd_comm (a b : Point) : ptAdd a b = ptAdd b a := by
  have := fact_prime_P
  apply point_ext_toZ
  · rw [toZ_ptAdd_x, toZ_ptAdd_x, Edwards.addX_comm]
  · rw [toZ_ptAdd_y, toZ_ptAdd_y, Edwards.addY_comm]

/-- The addition law is associative on `E` (R141). -/
theorem ptAdd_assoc {a b c : Point} (ha : onCurve a = true) (hb : onCurve b = true)
    (hc : onCurve c = true) : ptAdd (ptAdd a b) c = ptAdd a (ptAdd b c) := by
  have := fact_prime_P
  rw [onCurve_iff] at ha hb hc
  have h := Edwards.add_assoc complete_curveD ha hb hc
  apply point_ext_toZ
  · rw [toZ_ptAdd_x, toZ_ptAdd_x, toZ_ptAdd_x, toZ_ptAdd_y, toZ_ptAdd_x, toZ_ptAdd_y]
    exact h.1
  · rw [toZ_ptAdd_y, toZ_ptAdd_y, toZ_ptAdd_x, toZ_ptAdd_y, toZ_ptAdd_x, toZ_ptAdd_y]
    exact h.2

/-- `PtAdd(ID, Q) = Q` (R142); it needs no curve membership. -/
theorem ptAdd_id_left (q : Point) : ptAdd idPoint q = q := by
  have := fact_prime_P
  apply point_ext_toZ
  · rw [toZ_ptAdd_x]
    simp [Edwards.addX, Edwards.tee, idPoint]
  · rw [toZ_ptAdd_y]
    simp [Edwards.addY, Edwards.tee, idPoint]

/-- `PtAdd(Q, ID) = Q` (R142). -/
theorem ptAdd_id_right (q : Point) : ptAdd q idPoint = q := by rw [ptAdd_comm, ptAdd_id_left]

/-! ### The k-fold sum (R144) -/

theorem onCurve_ptSum {q : Point} (hq : onCurve q = true) (k : Nat) : onCurve (ptSum k q) = true := by
  induction k with
  | zero => exact onCurve_id
  | succ k ih => exact onCurve_ptAdd ih hq

theorem ptSum_one (q : Point) : ptSum 1 q = q := ptAdd_id_left q

/-- `PtMul(m + n, Q) = PtMul(m, Q) + PtMul(n, Q)`. -/
theorem ptSum_add {q : Point} (hq : onCurve q = true) (m n : Nat) :
    ptSum (m + n) q = ptAdd (ptSum m q) (ptSum n q) := by
  induction n with
  | zero => exact (ptAdd_id_right _).symm
  | succ n ih =>
    show ptAdd (ptSum (m + n) q) q = ptAdd (ptSum m q) (ptAdd (ptSum n q) q)
    rw [ih, ptAdd_assoc (onCurve_ptSum hq m) (onCurve_ptSum hq n) hq]

theorem ptSum_id (k : Nat) : ptSum k idPoint = idPoint := by
  induction k with
  | zero => rfl
  | succ k ih => show ptAdd (ptSum k idPoint) idPoint = idPoint; rw [ih, ptAdd_id_left]

/-- `PtMul(m · n, Q) = PtMul(m, PtMul(n, Q))`. -/
theorem ptSum_mul {q : Point} (hq : onCurve q = true) (m n : Nat) :
    ptSum (m * n) q = ptSum m (ptSum n q) := by
  induction m with
  | zero => rw [Nat.zero_mul]; rfl
  | succ m ih =>
    rw [Nat.succ_mul, ptSum_add hq, ih]
    rfl

/-! ### The reference datapath -/

/-- The quadruple `e` represents the affine point `q` (R145). -/
def Represents [Fact P.Prime] (e : ExtPoint) (q : Point) : Prop :=
  Edwards.Rep (toZ e.X) (toZ e.Y) (toZ e.Z) (toZ e.T) (toZ q.x) (toZ q.y)

theorem represents_ofPoint [Fact P.Prime] (q : Point) : Represents (ExtPoint.ofPoint q) q where
  nz := by simp [ExtPoint.ofPoint]
  xeq := by simp [ExtPoint.ofPoint]
  yeq := by simp [ExtPoint.ofPoint]
  teq := by simp [ExtPoint.ofPoint]

theorem represents_id [Fact P.Prime] : Represents ExtPoint.id idPoint where
  nz := by simp [ExtPoint.id]
  xeq := by simp [ExtPoint.id, idPoint]
  yeq := by simp [ExtPoint.id, idPoint]
  teq := by simp [ExtPoint.id, idPoint]

/-- The point a quadruple represents is what `toPoint` computes. -/
theorem toPoint_of_represents [Fact P.Prime] {e : ExtPoint} {q : Point} (h : Represents e q) :
    e.toPoint = q := by
  apply point_ext_toZ
  · simp only [ExtPoint.toPoint, toZ_fMul, toZ_fInv]
    rw [h.xeq, mul_assoc, mul_inv_cancel₀ h.nz, mul_one]
  · simp only [ExtPoint.toPoint, toZ_fMul, toZ_fInv]
    rw [h.yeq, mul_assoc, mul_inv_cancel₀ h.nz, mul_one]

/-- R146: `ExtAdd` represents `PtAdd`. -/
theorem represents_extAdd [Fact P.Prime] {e1 e2 : ExtPoint} {q1 q2 : Point}
    (h1 : Represents e1 q1) (h2 : Represents e2 q2) (c1 : onCurve q1 = true)
    (c2 : onCurve q2 = true) : Represents (extAdd e1 e2) (ptAdd q1 q2) := by
  rw [onCurve_iff] at c1 c2
  have h := Edwards.ext_add complete_curveD c1 c2 h1 h2 rfl rfl rfl rfl
  unfold Represents
  rw [toZ_ptAdd_x, toZ_ptAdd_y]
  convert h using 1 <;>
    simp only [extAdd, curveD2_eq, toZ_fMul, toZ_fAdd, toZ_fSub, toZ_feOf, Nat.cast_ofNat]

/-- R147: `ExtDbl` represents `PtAdd(Q, Q)`. -/
theorem represents_extDbl [Fact P.Prime] {e : ExtPoint} {q : Point} (h : Represents e q)
    (c : onCurve q = true) : Represents (extDbl e) (ptAdd q q) := by
  rw [onCurve_iff] at c
  have h := Edwards.ext_dbl complete_curveD c h rfl rfl rfl rfl
  unfold Represents
  rw [toZ_ptAdd_x, toZ_ptAdd_y]
  convert h using 1 <;>
    simp only [extDbl, toZ_fMul, toZ_fAdd, toZ_fSub, toZ_feOf, Nat.cast_ofNat]

/-- R148: the ladder represents the `k`-fold sum. -/
theorem represents_extLadder [Fact P.Prime] {q : Point} (hq : onCurve q = true) (k n : Nat)
    (acc : ExtPoint) (h : Represents acc (ptSum (k / 2 ^ n) q)) :
    Represents (extLadder k (ExtPoint.ofPoint q) n acc) (ptSum k q) := by
  induction n generalizing acc with
  | zero => simpa [extLadder] using h
  | succ n ih =>
    apply ih
    have hdbl := represents_extDbl h (onCurve_ptSum hq _)
    rw [← ptSum_add hq, ← two_mul] at hdbl
    rw [div_two_pow_step k n]
    split
    · exact represents_extAdd hdbl (represents_ofPoint q) (onCurve_ptSum hq _) hq
    · exact hdbl

/-- The machine's `PtMul` is the `k`-fold sum of R144, for every point of the curve. -/
theorem ptMul_eq_ptSum {q : Point} (hq : onCurve q = true) (k : BitVec 256) :
    ptMul k q = ptSum k.toNat q := by
  have := fact_prime_P
  apply toPoint_of_represents
  apply represents_extLadder hq
  rw [Nat.div_eq_of_lt k.isLt]
  exact represents_id

theorem onCurve_ptMul {q : Point} (hq : onCurve q = true) (k : BitVec 256) :
    onCurve (ptMul k q) = true := by
  rw [ptMul_eq_ptSum hq]
  exact onCurve_ptSum hq _

end Sys2Proof.Laws
end

