-- ==== Sys2Proof/Laws/Encoding.lean ====
section
/-! SUPPORT. The fields and the masks of an encoded command word (30_encoding R71 to R77), and that the
rows of the opcode map exclude one another. -/

namespace Sys2Proof.Laws

/-! ### Masks in the layout of each format -/

/-- A mask in the layout of format R. -/
def maskR (ma mb mc : BitVec 4) : Word := 0xFF#8 ++ ma ++ mb ++ mc ++ 0xFFF#12

/-- A mask in the layout of formats M and I. -/
def maskM (mr : BitVec 4) : Word := 0xFF#8 ++ mr ++ 0xF#4 ++ 0#16

theorem op_and (op : BitVec 8) : op &&& 0xFF#8 = op := by revert op; decide

theorem encR_and (op : BitVec 8) (a b c ma mb mc : BitVec 4) :
    encR op a b c &&& maskR ma mb mc = encR op (a &&& ma) (b &&& mb) (c &&& mc) := by
  have e := BitVec.and_append (x₁ := op ++ a ++ b ++ c) (y₁ := 0#12)
    (x₂ := 0xFF#8 ++ ma ++ mb ++ mc) (y₂ := 0xFFF#12)
  refine e.trans ?_
  rw [BitVec.and_append, BitVec.and_append, BitVec.and_append, op_and]
  rfl

theorem encM_and (op : BitVec 8) (r mr : BitVec 4) (imm : BitVec 16) :
    encM op r imm &&& maskM mr = encM op (r &&& mr) 0#16 := by
  have e := BitVec.and_append (x₁ := op ++ r ++ 0#4) (y₁ := imm)
    (x₂ := 0xFF#8 ++ mr ++ 0xF#4) (y₂ := 0#16)
  refine e.trans ?_
  rw [BitVec.and_append, BitVec.and_append, op_and, BitVec.and_zero]
  rfl

@[simp] theorem reg4_and_eight (r : BitVec 3) : reg4 r &&& 8#4 = 0#4 := by revert r; decide

@[simp] theorem reg4_setWidth (r : BitVec 3) : (reg4 r).setWidth 3 = r := by revert r; decide

/-! ### Fields of an encoded word -/

theorem extract_left3 (a : BitVec 4) {n : Nat} (x : BitVec n) :
    BitVec.extractLsb' 0 3 (x ++ a) = a.setWidth 3 := by
  rw [BitVec.extractLsb'_append_eq_of_add_le (by decide)]
  revert a; decide

@[simp] theorem fieldRdF_encR (op : BitVec 8) (a b c : BitVec 4) : fieldRdF (encR op a b c) = a := by
  show BitVec.extractLsb' 20 4 (op ++ a ++ b ++ c ++ 0#12) = a
  rw [BitVec.extractLsb'_append_eq_of_le (w := 12) (by decide)]
  rw [BitVec.extractLsb'_append_eq_of_le (w := 4) (by decide)]
  rw [BitVec.extractLsb'_append_eq_of_le (w := 4) (by decide)]
  rw [BitVec.extractLsb'_append_eq_of_add_le (by decide)]
  exact BitVec.extractLsb'_eq_self

@[simp] theorem fieldRs1F_encR (op : BitVec 8) (a b c : BitVec 4) : fieldRs1F (encR op a b c) = b := by
  show BitVec.extractLsb' 16 4 (op ++ a ++ b ++ c ++ 0#12) = b
  rw [BitVec.extractLsb'_append_eq_of_le (w := 12) (by decide)]
  rw [BitVec.extractLsb'_append_eq_of_le (w := 4) (by decide)]
  rw [BitVec.extractLsb'_append_eq_of_add_le (by decide)]
  exact BitVec.extractLsb'_eq_self

@[simp] theorem fieldRs2F_encR (op : BitVec 8) (a b c : BitVec 4) : fieldRs2F (encR op a b c) = c := by
  show BitVec.extractLsb' 12 4 (op ++ a ++ b ++ c ++ 0#12) = c
  rw [BitVec.extractLsb'_append_eq_of_le (w := 12) (by decide)]
  rw [BitVec.extractLsb'_append_eq_of_add_le (by decide)]
  exact BitVec.extractLsb'_eq_self

@[simp] theorem fieldRd_encR (op : BitVec 8) (a b c : BitVec 4) :
    fieldRd (encR op a b c) = a.setWidth 3 := by
  show BitVec.extractLsb' 20 3 (op ++ a ++ b ++ c ++ 0#12) = _
  rw [BitVec.extractLsb'_append_eq_of_le (w := 12) (by decide)]
  rw [BitVec.extractLsb'_append_eq_of_le (w := 4) (by decide)]
  rw [BitVec.extractLsb'_append_eq_of_le (w := 4) (by decide)]
  exact extract_left3 a _

@[simp] theorem fieldRs1_encR (op : BitVec 8) (a b c : BitVec 4) :
    fieldRs1 (encR op a b c) = b.setWidth 3 := by
  show BitVec.extractLsb' 16 3 (op ++ a ++ b ++ c ++ 0#12) = _
  rw [BitVec.extractLsb'_append_eq_of_le (w := 12) (by decide)]
  rw [BitVec.extractLsb'_append_eq_of_le (w := 4) (by decide)]
  exact extract_left3 b _

@[simp] theorem fieldRs2_encR (op : BitVec 8) (a b c : BitVec 4) :
    fieldRs2 (encR op a b c) = c.setWidth 3 := by
  show BitVec.extractLsb' 12 3 (op ++ a ++ b ++ c ++ 0#12) = _
  rw [BitVec.extractLsb'_append_eq_of_le (w := 12) (by decide)]
  exact extract_left3 c _

@[simp] theorem fieldRdF_encM (op : BitVec 8) (r : BitVec 4) (imm : BitVec 16) :
    fieldRdF (encM op r imm) = r := by
  show BitVec.extractLsb' 20 4 (op ++ r ++ 0#4 ++ imm) = r
  rw [BitVec.extractLsb'_append_eq_of_le (w := 16) (by decide)]
  rw [BitVec.extractLsb'_append_eq_of_le (w := 4) (by decide)]
  rw [BitVec.extractLsb'_append_eq_of_add_le (by decide)]
  exact BitVec.extractLsb'_eq_self

@[simp] theorem fieldRd_encM (op : BitVec 8) (r : BitVec 4) (imm : BitVec 16) :
    fieldRd (encM op r imm) = r.setWidth 3 := by
  show BitVec.extractLsb' 20 3 (op ++ r ++ 0#4 ++ imm) = _
  rw [BitVec.extractLsb'_append_eq_of_le (w := 16) (by decide)]
  rw [BitVec.extractLsb'_append_eq_of_le (w := 4) (by decide)]
  exact extract_left3 r _

@[simp] theorem fieldImm_encM (op : BitVec 8) (r : BitVec 4) (imm : BitVec 16) :
    fieldImm (encM op r imm) = imm := by
  show BitVec.extractLsb' 0 16 (op ++ r ++ 0#4 ++ imm) = imm
  rw [BitVec.extractLsb'_append_eq_of_add_le (by decide)]
  exact BitVec.extractLsb'_eq_self

/-! ### The rows exclude one another (R77) -/

/-- Two rows no word can match both: they differ at a bit that both masks hold. -/
def OpcodeRow.disjoint (r q : OpcodeRow) : Bool :=
  r.pattern &&& q.mask != q.pattern &&& r.mask

theorem not_both_match {r q : OpcodeRow} (h : OpcodeRow.disjoint r q = true) {w : Word}
    (hr : r.matchesWord w = true) : q.matchesWord w = false := by
  unfold OpcodeRow.matchesWord at *
  rw [beq_iff_eq] at hr
  rw [Bool.eq_false_iff, Ne, beq_iff_eq]
  intro hq
  unfold OpcodeRow.disjoint at h
  rw [bne_iff_ne] at h
  apply h
  rw [← hr, ← hq, BitVec.and_assoc, BitVec.and_assoc, BitVec.and_comm r.mask q.mask]

theorem opcodeMap_pairwise :
    opcodeMap.Pairwise (fun r q => OpcodeRow.disjoint r q = true) := by decide +kernel

/-- In a list of rows that exclude one another, the row a word matches is the one found. -/
theorem find_of_pairwise {rows : List OpcodeRow} {r : OpcodeRow} {w : Word}
    (hp : rows.Pairwise (fun r q => OpcodeRow.disjoint r q = true)) (hr : r ∈ rows)
    (hm : r.matchesWord w = true) : rows.find? (·.matchesWord w) = some r := by
  induction rows with
  | nil => simp at hr
  | cons q rest ih =>
    rw [List.pairwise_cons] at hp
    rw [List.mem_cons] at hr
    rcases hr with rfl | hr
    · simp [hm]
    · have hq : q.matchesWord w = false := by
        by_contra hne
        have := not_both_match (hp.1 r hr) (Bool.eq_true_of_not_eq_false hne)
        rw [hm] at this
        cases this
      rw [List.find?_cons_of_neg (by simp [hq]), ih hp.2 hr]

/-- A word that matches a row decodes to what the row builds (R77, R78). -/
theorem decode_of_row {r : OpcodeRow} {w : Word} (hr : r ∈ opcodeMap)
    (hm : r.matchesWord w = true) : decode w = some (r.build w) := by
  unfold decode
  rw [find_of_pairwise opcodeMap_pairwise hr hm]
  rfl

/-- A word that decodes matches the row that built the command. -/
theorem row_of_decode {w : Word} {i : Instr} (h : decode w = some i) :
    ∃ r ∈ opcodeMap, r.matchesWord w = true ∧ r.build w = i := by
  unfold decode at h
  rw [Option.map_eq_some_iff] at h
  obtain ⟨r, hf, hb⟩ := h
  exact ⟨r, List.mem_of_find?_eq_some hf, by simpa using List.find?_some hf, hb⟩

end Sys2Proof.Laws
end

