-- ==== Sys2Proof/Laws/Memory.lean ====
section
/-! SUPPORT. Memory: read after write, the canonical form is kept, and byte strings as little-endian
integers (00_scope R12, 20_memory R53, R54, R60). -/

namespace Sys2Proof.Machine

/-! ### Read after write -/

theorem Memory.find_put (m : Memory) (a : Nat) (b : Byte) (x : Nat) :
    (m.put a b).find x = if x = a then some b else m.find x := by
  induction m with
  | nil => by_cases h : a = x <;> simp [Memory.put, Memory.find, h, eq_comm]
  | cons c rest ih =>
    obtain ⟨k, c⟩ := c
    simp only [Memory.put]
    split
    · by_cases h : a = x <;> simp [Memory.find, h, eq_comm]
    · split
      · next hk =>
        subst hk
        by_cases h : k = x
        · simp [Memory.find, h]
        · simp [Memory.find, h, Ne.symm h]
      · next hk =>
        simp only [Memory.find, ih]
        by_cases h : k = x
        · subst h; simp [hk]
        · simp [h]

/-- A byte outside the written bytes is found as before. -/
theorem Memory.find_putAll_outside (m : Memory) (a : Nat) (bs : List Byte) (x : Nat)
    (h : x < a ∨ a + bs.length ≤ x) : (m.putAll a bs).find x = m.find x := by
  induction bs generalizing m a with
  | nil => rfl
  | cons b bs ih =>
    rw [List.length_cons] at h
    rw [Memory.putAll, ih _ _ (by omega), Memory.find_put, if_neg (by omega)]

/-- The written bytes are found in order. -/
theorem Memory.find_putAll_inside (m : Memory) (a : Nat) (bs : List Byte) (i : Nat)
    (h : i < bs.length) : (m.putAll a bs).find (a + i) = some bs[i] := by
  induction bs generalizing m a i with
  | nil => simp at h
  | cons b bs ih =>
    cases i with
    | zero =>
      rw [Memory.putAll, Memory.find_putAll_outside _ _ _ _ (by omega), Memory.find_put]
      simp
    | succ i =>
      rw [Memory.putAll, show a + (i + 1) = a + 1 + i by omega,
        ih _ _ _ (by simpa using h)]
      simp

/-! ### The canonical form is kept -/

theorem Memory.risesFrom_mono {lo lo' : Nat} (h : lo' ≤ lo) (m : Memory)
    (hm : m.risesFrom lo = true) : m.risesFrom lo' = true := by
  cases m with
  | nil => rfl
  | cons c rest =>
    simp only [Memory.risesFrom, Bool.and_eq_true, decide_eq_true_eq] at hm ⊢
    exact ⟨by omega, hm.2⟩

theorem Memory.risesFrom_put {lo a : Nat} (h : lo ≤ a) (b : Byte) (m : Memory)
    (hm : m.risesFrom lo = true) : (m.put a b).risesFrom lo = true := by
  induction m generalizing lo with
  | nil => simp [Memory.put, Memory.risesFrom, h]
  | cons c rest ih =>
    obtain ⟨k, c⟩ := c
    simp only [Memory.risesFrom, Bool.and_eq_true, decide_eq_true_eq] at hm
    simp only [Memory.put]
    split
    · simp [Memory.risesFrom, h, hm.2]; omega
    · split
      · next hk => subst hk; simp [Memory.risesFrom, hm.1, hm.2]
      · simp only [Memory.risesFrom, Bool.and_eq_true, decide_eq_true_eq]
        exact ⟨hm.1, ih (by omega) hm.2⟩

/-- Writing a byte keeps the canonical form. -/
theorem Memory.wf_put (m : Memory) (a : Nat) (b : Byte) (h : m.wf = true) :
    (m.put a b).wf = true := Memory.risesFrom_put (Nat.zero_le a) b m h

/-- Writing a byte string keeps the canonical form. -/
theorem Memory.wf_putAll (m : Memory) (a : Nat) (bs : List Byte) (h : m.wf = true) :
    (m.putAll a bs).wf = true := by
  induction bs generalizing m a with
  | nil => exact h
  | cons b bs ih => exact ih _ _ (Memory.wf_put m a b h)

theorem Memory.below_put {n a : Nat} (ha : a < n) (b : Byte) (m : Memory)
    (h : m.below n = true) : (m.put a b).below n = true := by
  induction m with
  | nil => simpa [Memory.put, Memory.below] using ha
  | cons c rest ih =>
    obtain ⟨k, c⟩ := c
    simp only [Memory.below, List.all_cons, Bool.and_eq_true, decide_eq_true_eq] at h
    simp only [Memory.put]
    split
    · simp only [Memory.below, List.all_cons, Bool.and_eq_true, decide_eq_true_eq]
      exact ⟨ha, h.1, h.2⟩
    · split
      · simp only [Memory.below, List.all_cons, Bool.and_eq_true, decide_eq_true_eq]
        exact ⟨ha, h.2⟩
      · simp only [Memory.below, List.all_cons, Bool.and_eq_true, decide_eq_true_eq]
        exact ⟨h.1, ih h.2⟩

/-- A byte string written inside the space keeps every listed address inside it. -/
theorem Memory.below_putAll {n a : Nat} (bs : List Byte) (ha : a + bs.length ≤ n) (m : Memory)
    (h : m.below n = true) : (m.putAll a bs).below n = true := by
  induction bs generalizing m a with
  | nil => exact h
  | cons b bs ih =>
    rw [List.length_cons] at ha
    exact ih (by omega) _ (Memory.below_put (by omega) b m h)

/-! ### Bytes of the state -/

/-- A DMEM byte outside the written range reads as before (20_memory R54). -/
theorem State.dmemByte_dmemWrite_outside (s : State) (addr : Addr) (bs : List Byte) (a : Nat)
    (h : a < addr.toNat ∨ addr.toNat + bs.length ≤ a) :
    (s.dmemWrite addr bs).dmemByte a = s.dmemByte a := by
  unfold State.dmemByte
  rw [show (s.dmemWrite addr bs).dmem = s.dmem.putAll addr.toNat bs from rfl,
    Memory.find_putAll_outside _ _ _ _ h]
  rfl

/-- The written bytes read back, in order (20_memory R54, R60). -/
theorem State.dmemByte_dmemWrite_inside (s : State) (addr : Addr) (bs : List Byte) (i : Nat)
    (h : i < bs.length) : (s.dmemWrite addr bs).dmemByte (addr.toNat + i) = bs[i] := by
  unfold State.dmemByte
  rw [show (s.dmemWrite addr bs).dmem = s.dmem.putAll addr.toNat bs from rfl,
    Memory.find_putAll_inside _ _ _ _ h]

@[simp] theorem bytesFrom_length (g : Nat → Byte) (a n : Nat) : (bytesFrom g a n).length = n := by
  induction n generalizing a with
  | zero => rfl
  | succ n ih => simp [bytesFrom, ih]

theorem bytesFrom_getElem (g : Nat → Byte) (a n i : Nat) (h : i < (bytesFrom g a n).length) :
    (bytesFrom g a n)[i] = g (a + i) := by
  induction n generalizing a i with
  | zero => simp at h
  | succ n ih =>
    cases i with
    | zero => rfl
    | succ i =>
      simp only [bytesFrom, List.getElem_cons_succ]
      rw [ih (a + 1) i (by simpa [bytesFrom] using h)]
      congr 1; omega

/-- `bytesFrom` depends only on the bytes in its range. -/
theorem bytesFrom_congr (g g' : Nat → Byte) (a n : Nat) (h : ∀ i < n, g (a + i) = g' (a + i)) :
    bytesFrom g a n = bytesFrom g' a n := by
  apply List.ext_getElem (by simp)
  intro i h1 h2
  rw [bytesFrom_getElem, bytesFrom_getElem, h i (by simpa using h1)]

@[simp] theorem State.dmemRead_length (s : State) (a : Addr) (n : Nat) :
    (s.dmemRead a n).length = n := bytesFrom_length _ _ _

/-- Reading back exactly what was written (20_memory R60). -/
theorem State.dmemRead_dmemWrite_same (s : State) (addr : Addr) (bs : List Byte) :
    (s.dmemWrite addr bs).dmemRead addr bs.length = bs := by
  unfold State.dmemRead
  apply List.ext_getElem (by simp)
  intro i h1 h2
  rw [bytesFrom_getElem, State.dmemByte_dmemWrite_inside s addr bs i h2]

/-- Reading a range that a write does not touch. -/
theorem State.dmemRead_dmemWrite_disjoint (s : State) (addr a : Addr) (bs : List Byte) (n : Nat)
    (h : a.toNat + n ≤ addr.toNat ∨ addr.toNat + bs.length ≤ a.toNat) :
    (s.dmemWrite addr bs).dmemRead a n = s.dmemRead a n := by
  apply bytesFrom_congr
  intro i hi
  exact State.dmemByte_dmemWrite_outside s addr bs _ (by omega)

/-! ### Little-endian integers (00_scope R12) -/

@[simp] theorem bytesLE_length (n v : Nat) : (bytesLE n v).length = n := by
  induction n generalizing v with
  | zero => rfl
  | succ n ih => simp [bytesLE, ih]

/-- `LE(bytes_n(v)) = v mod 256^n`. -/
theorem leNat_bytesLE_mod (n v : Nat) : leNat (bytesLE n v) = v % 256 ^ n := by
  induction n generalizing v with
  | zero => simp [bytesLE, leNat, Nat.mod_one]
  | succ n ih =>
    simp only [bytesLE, leNat, ih, BitVec.toNat_ofNat]
    rw [show 256 ^ (n + 1) = 256 * 256 ^ n by ring, Nat.mod_mul]

/-- `LE(bytes_n(v)) = v` for `v < 256^n`. -/
theorem leNat_bytesLE {n v : Nat} (h : v < 256 ^ n) : leNat (bytesLE n v) = v := by
  rw [leNat_bytesLE_mod, Nat.mod_eq_of_lt h]

theorem leNat_lt (bs : List Byte) : leNat bs < 256 ^ bs.length := by
  induction bs with
  | nil => simp [leNat]
  | cons b bs ih =>
    have := b.isLt
    simp only [leNat, List.length_cons, pow_succ]
    omega

/-- `bytes_n(LE(b)) = b` for an `n`-byte string. -/
theorem bytesLE_leNat (bs : List Byte) : bytesLE bs.length (leNat bs) = bs := by
  induction bs with
  | nil => rfl
  | cons b bs ih =>
    have hb := b.isLt
    simp only [List.length_cons, bytesLE, leNat]
    congr 1
    · apply BitVec.eq_of_toNat_eq
      rw [BitVec.toNat_ofNat]
      omega
    · rw [show (b.toNat + 256 * leNat bs) / 256 = leNat bs by omega, ih]

/-- Equal byte strings of `n` bytes are equal integers, and conversely. -/
theorem bytesLE_inj {n v w : Nat} (hv : v < 256 ^ n) (hw : w < 256 ^ n)
    (h : bytesLE n v = bytesLE n w) : v = w := by
  rw [← leNat_bytesLE hv, ← leNat_bytesLE hw, h]

end Sys2Proof.Machine
end

