-- ==== Sys2Proof/Laws/SqrtLaws.lean ====
section
/-! SUPPORT. The square root of point decoding (42_point R150, R151): when a root exists the reference
computation finds one, and what it finds is one. -/

namespace Sys2Proof.Laws

open Sys2Proof.Machine

/-- `v = D·y² + 1` is never zero (R150): else `D` would be a square. -/
theorem decode_den_ne_zero [Fact P.Prime] (y : ZMod P) : toZ curveD * y * y + 1 ≠ 0 := by
  intro h
  obtain ⟨i, hi⟩ := (complete_curveD).imag
  have hy : y ≠ 0 := by rintro rfl; simp at h
  apply complete_curveD.nonsquare (i / y)
  rw [div_pow, hi, div_eq_iff (pow_ne_zero 2 hy)]
  linear_combination -h

/-- Euler: a square is no non-residue. -/
theorem square_pow_half [Fact P.Prime] {x : ZMod P} (hx : x ≠ 0) : (x ^ 2) ^ ((P - 1) / 2) = 1 := by
  rw [← pow_mul, show 2 * ((P - 1) / 2) = P - 1 by decide]
  exact ZMod.pow_card_sub_one_eq_one hx

/-- Half the order gives a sign. -/
theorem pow_half_sign [Fact P.Prime] {x : ZMod P} (hx : x ≠ 0) :
    x ^ ((P - 1) / 2) = 1 ∨ x ^ ((P - 1) / 2) = -1 := by
  have h : (x ^ ((P - 1) / 2) - 1) * (x ^ ((P - 1) / 2) + 1) = 0 := by
    have := square_pow_half hx
    rw [← pow_mul, mul_comm, pow_mul] at this
    linear_combination this
  rcases mul_eq_zero.1 h with h | h
  · exact .inl (by linear_combination h)
  · exact .inr (by linear_combination h)

/-- The candidate root of R151: with `u = x²·v` it squares to `±x²`. -/
theorem candidate_sq [Fact P.Prime] (x : ZMod P) {v : ZMod P} (hv : v ≠ 0) :
    (x ^ 2 * v * (v * v * v) * (x ^ 2 * v * (v * v * v * (v * v * v) * v)) ^ ((P - 5) / 8)) ^ 2 =
      x ^ ((P - 1) / 2) * x ^ 2 := by
  have hv1 : v ^ (P - 1) = 1 := ZMod.pow_card_sub_one_eq_one hv
  obtain ⟨m, hm⟩ : ∃ m, m = (P - 5) / 8 := ⟨_, rfl⟩
  have h2 : (P - 1) / 2 = 4 * m + 2 := by rw [hm]; decide
  have h1 : P - 1 = 8 * m + 4 := by rw [hm]; decide
  rw [← hm, h2]
  rw [h1] at hv1
  have h : (x ^ 2 * v * (v * v * v) * (x ^ 2 * v * (v * v * v * (v * v * v) * v)) ^ m) ^ 2 =
      x ^ (4 * m + 2) * x ^ 2 * (v ^ (8 * m + 4)) ^ 2 := by ring
  rw [h, hv1]
  ring

/-- What R151 finds is a root of `u/v`. -/
theorem sqrtRatio_sound {u v x0 : Fe} (h : sqrtRatio u v = some x0) :
    toZ v * toZ x0 ^ 2 = toZ u := by
  unfold sqrtRatio at h
  generalize sqrtCandidate u v = c at h
  simp only at h
  split at h
  · next hc =>
    injection h with h
    rw [← toZ_inj, toZ_fMul, toZ_fMul, h] at hc
    rw [← hc]; ring
  · split at h
    · next hc =>
      injection h with h
      rw [← toZ_inj, toZ_fMul, toZ_fMul, toZ_fSub, toZ_feOf, Nat.cast_zero] at hc
      have hi : toZ sqrtM1 * toZ sqrtM1 = -1 := by rw [← toZ_fMul, sqrtM1_sq, toZ_neg_one]
      rw [← h, toZ_fMul]
      linear_combination -hc + toZ v * toZ c ^ 2 * hi
    · cases h

/-- R151 finds a root of `u/v` when there is a non-zero one. -/
theorem sqrtRatio_complete [Fact P.Prime] {u v : Fe} {x : ZMod P} (hx : x ≠ 0) (hv : toZ v ≠ 0)
    (hu : toZ u = x ^ 2 * toZ v) : ∃ x0, sqrtRatio u v = some x0 := by
  have hc : toZ (sqrtCandidate u v) ^ 2 = x ^ ((P - 1) / 2) * x ^ 2 := by
    rw [← candidate_sq x hv]
    simp only [sqrtCandidate, toZ_fMul, toZ_fPow _ (show (P - 5) / 8 < 2 ^ 256 by decide), hu]
  have hs := pow_half_sign hx
  unfold sqrtRatio
  simp only
  by_cases h1 : fMul v (fMul (sqrtCandidate u v) (sqrtCandidate u v)) = u
  · exact ⟨_, if_pos h1⟩
  · refine ⟨fMul (sqrtCandidate u v) sqrtM1, ?_⟩
    rw [if_neg h1, if_pos]
    rw [← toZ_inj] at h1 ⊢
    simp only [toZ_fMul, toZ_fSub, toZ_feOf, Nat.cast_zero] at h1 ⊢
    rcases hs with hs | hs <;> rw [hs] at hc
    · exact absurd (by rw [hu]; linear_combination toZ v * hc) h1
    · rw [hu]; linear_combination toZ v * hc

end Sys2Proof.Laws
end

