-- ==== Sys2Proof/Laws/Packed.lean ====
section
/-! SUPPORT. Packed points (42_point R149 to R152): the parity that tells `x` from `P − x`, what
`PtEnc` writes, and everything `PtDec` can answer. -/

namespace Sys2Proof.Laws

open Sys2Proof.Machine

/-! ### Signs -/

theorem toZ_eq_zero {x : Fe} : toZ x = 0 ↔ x = feOf 0 := by
  rw [← toZ_inj, toZ_feOf, Nat.cast_zero]

theorem val_zero : (feOf 0).val = 0 := by rw [feOf_val]; rfl

theorem neg_neg_fe (x : Fe) : fSub (feOf 0) (fSub (feOf 0) x) = x := by rw [← toZ_inj]; simp

theorem neg_zero_fe : fSub (feOf 0) (feOf 0) = feOf 0 := by rw [← toZ_inj]; simp

/-- A non-zero element and its negation have different parities. -/
theorem neg_parity {x : Fe} (h : x ≠ feOf 0) : (fSub (feOf 0) x).val % 2 = 1 - x.val % 2 := by
  have h0 : x.val ≠ 0 := fun e => h (Fin.ext (by rw [e, val_zero]))
  have hv : (fSub (feOf 0) x).val = P - x.val := by
    unfold fSub
    rw [feOf_val, val_zero, Nat.zero_add, Nat.mod_eq_of_lt]
    have := P_pos
    omega
  have hp : P % 2 = 1 := by decide
  have := x.isLt
  rw [hv]
  omega

/-- The curve equation solved for `x²` (R150). -/
theorem onCurve_iff_square (x y : Fe) : onCurve ⟨x, y⟩ = true ↔
    (toZ curveD * toZ y * toZ y + 1) * toZ x ^ 2 = toZ y ^ 2 - 1 := by
  rw [onCurve_iff]
  unfold Edwards.On
  simp only
  constructor <;> intro h <;> linear_combination -h

theorem onCurve_neg {x y : Fe} (h : onCurve ⟨x, y⟩ = true) :
    onCurve ⟨fSub (feOf 0) x, y⟩ = true := by
  rw [onCurve_iff_square] at *
  rw [← h]
  simp

/-- Two points of the curve with the same `y` have the same `x` up to its sign. -/
theorem same_y {x1 x2 y : Fe} (h1 : onCurve ⟨x1, y⟩ = true) (h2 : onCurve ⟨x2, y⟩ = true) :
    x1 = x2 ∨ x1 = fSub (feOf 0) x2 := by
  have := fact_prime_P
  rw [onCurve_iff_square] at h1 h2
  have hd := decode_den_ne_zero (toZ y)
  have hs : toZ x1 ^ 2 = toZ x2 ^ 2 := mul_left_cancel₀ hd (by rw [h1, h2])
  rcases sq_eq_sq_iff_eq_or_eq_neg.1 hs with h | h
  · exact .inl (toZ_inj.1 h)
  · right
    rw [← toZ_inj, h]
    simp

/-! ### Encoding -/

theorem fEnc_length (v : Fe) : (fEnc v).length = 32 := bytesLE_length _ _

theorem leNat_fEnc (v : Fe) : leNat (fEnc v) = v.val :=
  leNat_bytesLE (lt_trans v.isLt (by norm_num [P]))

theorem ptEnc_length (q : Point) : (ptEnc q).length = 32 := bytesLE_length _ _

theorem leNat_ptEnc (q : Point) : leNat (ptEnc q) = q.y.val + 2 ^ 255 * (q.x.val % 2) := by
  refine leNat_bytesLE ?_
  have := q.y.isLt
  have hP : P < 2 ^ 255 := by norm_num [P]
  have : q.x.val % 2 < 2 := Nat.mod_lt _ (by norm_num)
  rw [show 256 ^ 32 = 2 ^ 255 * 2 by norm_num]
  nlinarith

/-! ### Decoding -/

theorem selectParity_parity {x : Fe} (h : x ≠ feOf 0) {sign : Nat} (hs : sign < 2) :
    (selectParity x sign).val % 2 = sign := by
  unfold selectParity
  split
  · assumption
  · rw [neg_parity h]
    have : x.val % 2 < 2 := Nat.mod_lt _ (by norm_num)
    omega

theorem selectParity_cases (x : Fe) (sign : Nat) :
    selectParity x sign = x ∨ selectParity x sign = fSub (feOf 0) x := by
  unfold selectParity
  split <;> simp

/-- Everything `PtDec` can answer (R150): for `x = 0` the point `(0, y)`, or INVALID when the sign bit
is 1 and the parameter asks for it; INVALID when the curve has no point with that `y`; else the point
whose `x` has the parity of the sign bit. -/
theorem ptDec_cases (reject : Bool) (b : List Byte) {sign : Nat} {y : Fe}
    (hs : sign = leNat b / 2 ^ 255 % 2) (hy : y = feOf (leNat b % 2 ^ 255)) :
    (onCurve ⟨feOf 0, y⟩ = true ∧
      ((sign = 1 ∧ reject = true ∧ ptDec reject b = none) ∨
        (¬(sign = 1 ∧ reject = true) ∧ ptDec reject b = some ⟨feOf 0, y⟩))) ∨
    ((∀ x, onCurve ⟨x, y⟩ = false) ∧ ptDec reject b = none) ∨
    ∃ x, x ≠ feOf 0 ∧ onCurve ⟨x, y⟩ = true ∧ x.val % 2 = sign ∧
      ptDec reject b = some ⟨x, y⟩ := by
  have := fact_prime_P
  have hu : toZ (fSub (fMul y y) (feOf 1)) = toZ y ^ 2 - 1 := by simp [pow_two]
  have hv : toZ (fAdd (fMul (fMul curveD y) y) (feOf 1)) = toZ curveD * toZ y * toZ y + 1 := by simp
  have hv0 := decode_den_ne_zero (toZ y)
  have hs2 : sign < 2 := by rw [hs]; exact Nat.mod_lt _ (by norm_num)
  unfold ptDec
  simp only [← hs, ← hy]
  split
  · next hw =>
    left
    have h0 : toZ y ^ 2 - 1 = 0 := by
      rw [← toZ_inj, toZ_fMul, toZ_fInv, toZ_feOf, Nat.cast_zero, mul_eq_zero, inv_eq_zero, hu,
        hv] at hw
      exact hw.resolve_right hv0
    refine ⟨by rw [onCurve_iff_square, h0]; simp, ?_⟩
    split
    · next h => exact .inl ⟨h.1, h.2, rfl⟩
    · next h => exact .inr ⟨h, rfl⟩
  · next hw =>
    right
    have root : ∀ x, onCurve ⟨x, y⟩ = true → x ≠ feOf 0 ∧
        toZ (fMul (fSub (fMul y y) (feOf 1)) (fInv (fAdd (fMul (fMul curveD y) y) (feOf 1)))) =
          toZ x ^ 2 := by
      intro x hx
      rw [onCurve_iff_square] at hx
      constructor
      · rintro rfl
        apply hw
        rw [← toZ_inj, toZ_fMul, hu, ← hx]
        simp
      · rw [toZ_fMul, toZ_fInv, hu, ← hx, hv, mul_comm, inv_mul_cancel_left₀ hv0]
    split
    · next he =>
      refine .inl ⟨fun x => ?_, rfl⟩
      by_contra hx
      obtain ⟨h0, hr⟩ := root x (by simpa using hx)
      rw [← toZ_inj, toZ_fPow _ (by decide), hr, square_pow_half (by rwa [Ne, toZ_eq_zero]),
        toZ_neg_one] at he
      exact one_ne_neg_one_Z he
    · split
      · next he hn =>
        refine .inl ⟨fun x => ?_, rfl⟩
        by_contra hx
        have hx : onCurve ⟨x, y⟩ = true := by simpa using hx
        obtain ⟨x0, h1⟩ := sqrtRatio_complete (u := fSub (fMul y y) (feOf 1))
          (v := fAdd (fMul (fMul curveD y) y) (feOf 1)) (x := toZ x)
          (by rw [Ne, toZ_eq_zero]; exact (root x hx).1) (by rw [hv]; exact hv0) (by
            rw [hu, hv]
            rw [onCurve_iff_square] at hx
            linear_combination -hx)
        rw [h1] at hn
        cases hn
      · next he x0 hn =>
        have hon : onCurve ⟨x0, y⟩ = true := by
          rw [onCurve_iff_square, ← hv, ← hu]
          exact sqrtRatio_sound hn
        have h0 := (root _ hon).1
        refine .inr ⟨selectParity x0 sign, ?_, ?_, selectParity_parity h0 hs2, rfl⟩
        · rcases selectParity_cases x0 sign with h | h <;> rw [h]
          · exact h0
          · intro e
            apply h0
            rw [← neg_neg_fe x0, e, neg_zero_fe]
        · rcases selectParity_cases x0 sign with h | h <;> rw [h]
          · exact hon
          · exact onCurve_neg hon

/-- What is decoded is on the curve (10_state R23). -/
theorem onCurve_ptDec {reject : Bool} {b : List Byte} {q : Point} (h : ptDec reject b = some q) :
    onCurve q = true := by
  have key := ptDec_cases reject b rfl rfl
  rw [h] at key
  clear h
  generalize leNat b = n at key
  generalize feOf (n % 2 ^ 255) = y at key
  rcases key with ⟨h1, h2 | h2⟩ | ⟨h1, h2⟩ | ⟨x, h1, h2, h3, h4⟩
  · exact absurd h2.2.2 (by simp)
  · rw [Option.some.inj h2.2]
    exact h1
  · exact absurd h2 (by simp)
  · rw [Option.some.inj h4]
    exact h2

end Sys2Proof.Laws
end

