-- ==== Sys2Proof/Laws/PerInstr.lean ====
section
/-! SUPPORT. The family EncodesRow: the word an instruction is encoded as matches a row of the opcode map
(30_encoding R77), and that row builds the instruction back from it. -/

namespace Sys2Proof.Laws

theorem matches_encR {r : OpcodeRow} {op : BitVec 8} {a b c : BitVec 4} (ma mb mc : BitVec 4)
    (hmask : r.mask = maskR ma mb mc) (hp : r.pattern = encR op 0 0 0) (ha : a &&& ma = 0)
    (hb : b &&& mb = 0) (hc : c &&& mc = 0) : r.matchesWord (encR op a b c) = true := by
  unfold OpcodeRow.matchesWord
  rw [hmask, hp, encR_and, ha, hb, hc, beq_self_eq_true]

theorem matches_encM {r : OpcodeRow} {op : BitVec 8} {q : BitVec 4} {imm : BitVec 16} (mr : BitVec 4)
    (hmask : r.mask = maskM mr) (hp : r.pattern = encM op 0 0) (hq : q &&& mr = 0) :
    r.matchesWord (encM op q imm) = true := by
  unfold OpcodeRow.matchesWord
  rw [hmask, hp, encM_and, hq]
  exact beq_self_eq_true _

/-- What the family says of an instruction. -/
def EncodesRow.Statement (i : Instr) : Prop :=
  ∃ r ∈ opcodeMap, r.matchesWord (encode i) = true ∧ r.build (encode i) = i

theorem EncodesRow.nop : EncodesRow.Statement .nop :=
  ⟨opcodeMap[0], List.getElem_mem (by decide), by decide, rfl⟩

theorem EncodesRow.clr : EncodesRow.Statement .clr :=
  ⟨opcodeMap[1], List.getElem_mem (by decide), by decide, rfl⟩

theorem EncodesRow.fadd (fd : FReg) (fs1 : FReg) (fs2 : FReg) :
    EncodesRow.Statement (.fadd fd fs1 fs2) :=
  ⟨opcodeMap[2], List.getElem_mem (by decide),
    matches_encR 0 0 0 (by decide) (by decide) (by simp) (by simp) (by simp),
    by simp [opcodeMap, systemRows, fieldRows, scalarRows, pointRows, encode]⟩

theorem EncodesRow.fsub (fd : FReg) (fs1 : FReg) (fs2 : FReg) :
    EncodesRow.Statement (.fsub fd fs1 fs2) :=
  ⟨opcodeMap[3], List.getElem_mem (by decide),
    matches_encR 0 0 0 (by decide) (by decide) (by simp) (by simp) (by simp),
    by simp [opcodeMap, systemRows, fieldRows, scalarRows, pointRows, encode]⟩

theorem EncodesRow.fmul (fd : FReg) (fs1 : FReg) (fs2 : FReg) :
    EncodesRow.Statement (.fmul fd fs1 fs2) :=
  ⟨opcodeMap[4], List.getElem_mem (by decide),
    matches_encR 0 0 0 (by decide) (by decide) (by simp) (by simp) (by simp),
    by simp [opcodeMap, systemRows, fieldRows, scalarRows, pointRows, encode]⟩

theorem EncodesRow.fsqr (fd : FReg) (fs1 : FReg) : EncodesRow.Statement (.fsqr fd fs1) :=
  ⟨opcodeMap[5], List.getElem_mem (by decide),
    matches_encR 0 0 15 (by decide) (by decide) (by simp) (by simp) (by simp),
    by simp [opcodeMap, systemRows, fieldRows, scalarRows, pointRows, encode]⟩

theorem EncodesRow.finv (fd : FReg) (fs1 : FReg) : EncodesRow.Statement (.finv fd fs1) :=
  ⟨opcodeMap[6], List.getElem_mem (by decide),
    matches_encR 0 0 15 (by decide) (by decide) (by simp) (by simp) (by simp),
    by simp [opcodeMap, systemRows, fieldRows, scalarRows, pointRows, encode]⟩

theorem EncodesRow.fmov (fd : FReg) (fs1 : FReg) : EncodesRow.Statement (.fmov fd fs1) :=
  ⟨opcodeMap[7], List.getElem_mem (by decide),
    matches_encR 0 0 15 (by decide) (by decide) (by simp) (by simp) (by simp),
    by simp [opcodeMap, systemRows, fieldRows, scalarRows, pointRows, encode]⟩

theorem EncodesRow.fli (fd : FReg) (imm16 : BitVec 16) : EncodesRow.Statement (.fli fd imm16) :=
  ⟨opcodeMap[8], List.getElem_mem (by decide),
    matches_encM 0 (by decide) (by decide) (by simp),
    by simp [opcodeMap, systemRows, fieldRows, scalarRows, pointRows, schemeRows, encode]⟩

theorem EncodesRow.fld (fd : FReg) (addr : Addr) : EncodesRow.Statement (.fld fd addr) :=
  ⟨opcodeMap[9], List.getElem_mem (by decide),
    matches_encM 0 (by decide) (by decide) (by simp),
    by simp [opcodeMap, systemRows, fieldRows, scalarRows, pointRows, schemeRows, encode]⟩

theorem EncodesRow.fst (fs : FReg) (addr : Addr) : EncodesRow.Statement (.fst fs addr) :=
  ⟨opcodeMap[10], List.getElem_mem (by decide),
    matches_encM 0 (by decide) (by decide) (by simp),
    by simp [opcodeMap, systemRows, fieldRows, scalarRows, pointRows, schemeRows, encode]⟩

theorem EncodesRow.sadd (sd : SReg) (ss1 : SReg) (ss2 : SReg) :
    EncodesRow.Statement (.sadd sd ss1 ss2) :=
  ⟨opcodeMap[11], List.getElem_mem (by decide),
    matches_encR 8 8 8 (by decide) (by decide) (by simp) (by simp) (by simp),
    by simp [opcodeMap, systemRows, fieldRows, scalarRows, pointRows, encode]⟩

theorem EncodesRow.smul (sd : SReg) (ss1 : SReg) (ss2 : SReg) :
    EncodesRow.Statement (.smul sd ss1 ss2) :=
  ⟨opcodeMap[12], List.getElem_mem (by decide),
    matches_encR 8 8 8 (by decide) (by decide) (by simp) (by simp) (by simp),
    by simp [opcodeMap, systemRows, fieldRows, scalarRows, pointRows, encode]⟩

theorem EncodesRow.smov (sd : SReg) (ss1 : SReg) : EncodesRow.Statement (.smov sd ss1) :=
  ⟨opcodeMap[13], List.getElem_mem (by decide),
    matches_encR 8 8 15 (by decide) (by decide) (by simp) (by simp) (by simp),
    by simp [opcodeMap, systemRows, fieldRows, scalarRows, pointRows, encode]⟩

theorem EncodesRow.sld (sd : SReg) (addr : Addr) : EncodesRow.Statement (.sld sd addr) :=
  ⟨opcodeMap[14], List.getElem_mem (by decide),
    matches_encM 8 (by decide) (by decide) (by simp),
    by simp [opcodeMap, systemRows, fieldRows, scalarRows, pointRows, schemeRows, encode]⟩

theorem EncodesRow.sst (ss : SReg) (addr : Addr) : EncodesRow.Statement (.sst ss addr) :=
  ⟨opcodeMap[15], List.getElem_mem (by decide),
    matches_encM 8 (by decide) (by decide) (by simp),
    by simp [opcodeMap, systemRows, fieldRows, scalarRows, pointRows, schemeRows, encode]⟩

theorem EncodesRow.sred (sd : SReg) (addr : Addr) : EncodesRow.Statement (.sred sd addr) :=
  ⟨opcodeMap[16], List.getElem_mem (by decide),
    matches_encM 8 (by decide) (by decide) (by simp),
    by simp [opcodeMap, systemRows, fieldRows, scalarRows, pointRows, schemeRows, encode]⟩

theorem EncodesRow.sclamp (sd : SReg) (ss1 : SReg) : EncodesRow.Statement (.sclamp sd ss1) :=
  ⟨opcodeMap[17], List.getElem_mem (by decide),
    matches_encR 8 8 15 (by decide) (by decide) (by simp) (by simp) (by simp),
    by simp [opcodeMap, systemRows, fieldRows, scalarRows, pointRows, encode]⟩

theorem EncodesRow.schk (ss1 : SReg) : EncodesRow.Statement (.schk ss1) :=
  ⟨opcodeMap[18], List.getElem_mem (by decide),
    matches_encR 15 8 15 (by decide) (by decide) (by simp) (by simp) (by simp),
    by simp [opcodeMap, systemRows, fieldRows, scalarRows, pointRows, encode]⟩

theorem EncodesRow.padd (pd : PReg) (ps1 : PReg) (ps2 : PReg) :
    EncodesRow.Statement (.padd pd ps1 ps2) :=
  ⟨opcodeMap[19], List.getElem_mem (by decide),
    matches_encR 8 8 8 (by decide) (by decide) (by simp) (by simp) (by simp),
    by simp [opcodeMap, systemRows, fieldRows, scalarRows, pointRows, encode]⟩

theorem EncodesRow.pdbl (pd : PReg) (ps1 : PReg) : EncodesRow.Statement (.pdbl pd ps1) :=
  ⟨opcodeMap[20], List.getElem_mem (by decide),
    matches_encR 8 8 15 (by decide) (by decide) (by simp) (by simp) (by simp),
    by simp [opcodeMap, systemRows, fieldRows, scalarRows, pointRows, encode]⟩

theorem EncodesRow.psmul (pd : PReg) (ps1 : PReg) (sk : SReg) :
    EncodesRow.Statement (.psmul pd ps1 sk) :=
  ⟨opcodeMap[21], List.getElem_mem (by decide),
    matches_encR 8 8 8 (by decide) (by decide) (by simp) (by simp) (by simp),
    by simp [opcodeMap, systemRows, fieldRows, scalarRows, pointRows, encode]⟩

theorem EncodesRow.psmulb (pd : PReg) (sk : SReg) : EncodesRow.Statement (.psmulb pd sk) :=
  ⟨opcodeMap[22], List.getElem_mem (by decide),
    matches_encR 8 15 8 (by decide) (by decide) (by simp) (by simp) (by simp),
    by simp [opcodeMap, systemRows, fieldRows, scalarRows, pointRows, encode]⟩

theorem EncodesRow.pmov (pd : PReg) (ps1 : PReg) : EncodesRow.Statement (.pmov pd ps1) :=
  ⟨opcodeMap[23], List.getElem_mem (by decide),
    matches_encR 8 8 15 (by decide) (by decide) (by simp) (by simp) (by simp),
    by simp [opcodeMap, systemRows, fieldRows, scalarRows, pointRows, encode]⟩

theorem EncodesRow.pldb (pd : PReg) : EncodesRow.Statement (.pldb pd) :=
  ⟨opcodeMap[24], List.getElem_mem (by decide),
    matches_encR 8 15 15 (by decide) (by decide) (by simp) (by simp) (by simp),
    by simp [opcodeMap, systemRows, fieldRows, scalarRows, pointRows, encode]⟩

theorem EncodesRow.pdec (pd : PReg) (addr : Addr) : EncodesRow.Statement (.pdec pd addr) :=
  ⟨opcodeMap[25], List.getElem_mem (by decide),
    matches_encM 8 (by decide) (by decide) (by simp),
    by simp [opcodeMap, systemRows, fieldRows, scalarRows, pointRows, schemeRows, encode]⟩

theorem EncodesRow.penc (ps : PReg) (addr : Addr) : EncodesRow.Statement (.penc ps addr) :=
  ⟨opcodeMap[26], List.getElem_mem (by decide),
    matches_encM 8 (by decide) (by decide) (by simp),
    by simp [opcodeMap, systemRows, fieldRows, scalarRows, pointRows, schemeRows, encode]⟩

theorem EncodesRow.hinit : EncodesRow.Statement .hinit :=
  ⟨opcodeMap[27], List.getElem_mem (by decide), by decide, rfl⟩

theorem EncodesRow.hupd (addr : Addr) : EncodesRow.Statement (.hupd addr) :=
  ⟨opcodeMap[28], List.getElem_mem (by decide),
    matches_encM 15 (by decide) (by decide) (by simp),
    by simp [opcodeMap, systemRows, fieldRows, scalarRows, pointRows, schemeRows, encode]⟩

theorem EncodesRow.hupdm : EncodesRow.Statement .hupdm :=
  ⟨opcodeMap[29], List.getElem_mem (by decide), by decide, rfl⟩

theorem EncodesRow.hfin (addr : Addr) : EncodesRow.Statement (.hfin addr) :=
  ⟨opcodeMap[30], List.getElem_mem (by decide),
    matches_encM 15 (by decide) (by decide) (by simp),
    by simp [opcodeMap, systemRows, fieldRows, scalarRows, pointRows, schemeRows, encode]⟩

theorem EncodesRow.keyexp (sd : SReg) (addr : Addr) : EncodesRow.Statement (.keyexp sd addr) :=
  ⟨opcodeMap[31], List.getElem_mem (by decide),
    matches_encM 8 (by decide) (by decide) (by simp),
    by simp [opcodeMap, systemRows, fieldRows, scalarRows, pointRows, schemeRows, encode]⟩

theorem EncodesRow.derive : EncodesRow.Statement .derive :=
  ⟨opcodeMap[32], List.getElem_mem (by decide), by decide, rfl⟩

theorem EncodesRow.sign : EncodesRow.Statement .sign :=
  ⟨opcodeMap[33], List.getElem_mem (by decide), by decide, rfl⟩

theorem EncodesRow.verify : EncodesRow.Statement .verify :=
  ⟨opcodeMap[34], List.getElem_mem (by decide), by decide, rfl⟩

end Sys2Proof.Laws
end

