-- ==== Sys2Proof/Laws/PrimeL.lean ====
section
/-! SUPPORT. The group order `L = 2^252 + 27742317777372353535851937790883648493` is prime
(00_scope R7), by a certificate checked in the kernel. -/

namespace Sys2Proof.Laws

open Sys2Proof.Machine

theorem prime_3044861653679985063343 : Nat.Prime 3044861653679985063343 :=
  prime_of_factors 5 [2, 3, 11, 30703, 82163, 132667, 137849]
    (by norm_num) (by norm_num)
    (by
      intro q hq
      simp at hq
      rcases hq with rfl | rfl | rfl | rfl | rfl | rfl | rfl
      · norm_num
      · norm_num
      · norm_num
      · norm_num
      · norm_num
      · norm_num
      · norm_num)
    (by norm_num) (by decide +kernel) (by decide +kernel)

theorem prime_198211423230930754013084525763697 :
    Nat.Prime 198211423230930754013084525763697 :=
  prime_of_factors 5 [2, 2, 2, 2, 3, 23, 58964693, 3044861653679985063343]
    (by norm_num) (by norm_num)
    (by
      intro q hq
      simp at hq
      rcases hq with rfl | rfl | rfl | rfl | rfl
      · norm_num
      · norm_num
      · norm_num
      · norm_num
      · exact prime_3044861653679985063343)
    (by norm_num) (by decide +kernel) (by decide +kernel)

theorem prime_1257559732178653 : Nat.Prime 1257559732178653 :=
  prime_of_factors 2 [2, 2, 3, 7, 23, 531581, 1224481]
    (by norm_num) (by norm_num)
    (by
      intro q hq
      simp at hq
      rcases hq with rfl | rfl | rfl | rfl | rfl | rfl
      · norm_num
      · norm_num
      · norm_num
      · norm_num
      · norm_num
      · norm_num)
    (by norm_num) (by decide +kernel) (by decide +kernel)

theorem prime_4434155615661930479 : Nat.Prime 4434155615661930479 :=
  prime_of_factors 17 [2, 41, 43, 1257559732178653]
    (by norm_num) (by norm_num)
    (by
      intro q hq
      simp at hq
      rcases hq with rfl | rfl | rfl | rfl
      · norm_num
      · norm_num
      · norm_num
      · exact prime_1257559732178653)
    (by norm_num) (by decide +kernel) (by decide +kernel)

theorem prime_172054593956031949258510691 : Nat.Prime 172054593956031949258510691 :=
  prime_of_factors 2 [2, 5, 1361, 2851, 4434155615661930479]
    (by norm_num) (by norm_num)
    (by
      intro q hq
      simp at hq
      rcases hq with rfl | rfl | rfl | rfl | rfl
      · norm_num
      · norm_num
      · norm_num
      · norm_num
      · exact prime_4434155615661930479)
    (by norm_num) (by decide +kernel) (by decide +kernel)

theorem prime_292386187 : Nat.Prime 292386187 :=
  prime_of_factors 2 [2, 3, 3, 3, 3, 307, 5879] (by norm_num) (by norm_num)
    (by intro q hq; simp at hq; rcases hq with rfl | rfl | rfl | rfl <;> norm_num)
    (by norm_num) (by decide +kernel) (by decide +kernel)

theorem prime_213441916511 : Nat.Prime 213441916511 :=
  prime_of_factors 13 [2, 5, 73, 292386187]
    (by norm_num) (by norm_num)
    (by
      intro q hq
      simp at hq
      rcases hq with rfl | rfl | rfl | rfl
      · norm_num
      · norm_num
      · norm_num
      · exact prime_292386187)
    (by norm_num) (by decide +kernel) (by decide +kernel)

theorem prime_19757330305831588566944191468367130476339 :
    Nat.Prime 19757330305831588566944191468367130476339 :=
  prime_of_factors 2 [2, 269, 213441916511, 172054593956031949258510691]
    (by norm_num) (by norm_num)
    (by
      intro q hq
      simp at hq
      rcases hq with rfl | rfl | rfl | rfl
      · norm_num
      · norm_num
      · exact prime_213441916511
      · exact prime_172054593956031949258510691)
    (by norm_num) (by decide +kernel) (by decide +kernel)

theorem prime_276602624281642239937218680557139826668747 :
    Nat.Prime 276602624281642239937218680557139826668747 :=
  prime_of_factors 2 [2, 7, 19757330305831588566944191468367130476339]
    (by norm_num) (by norm_num)
    (by
      intro q hq
      simp at hq
      rcases hq with rfl | rfl | rfl
      · norm_num
      · norm_num
      · exact prime_19757330305831588566944191468367130476339)
    (by norm_num) (by decide +kernel) (by decide +kernel)

/-- The group order is prime. -/
theorem prime_L : Nat.Prime groupOrder :=
  prime_of_factors 2 [2, 2, 3, 11, 198211423230930754013084525763697, 276602624281642239937218680557139826668747]
    (by norm_num [groupOrder]) (by norm_num [groupOrder])
    (by
      intro q hq
      simp at hq
      rcases hq with rfl | rfl | rfl | rfl | rfl
      · norm_num
      · norm_num
      · norm_num
      · exact prime_198211423230930754013084525763697
      · exact prime_276602624281642239937218680557139826668747)
    (by norm_num [groupOrder]) (by decide +kernel) (by decide +kernel)

end Sys2Proof.Laws
end

