-- ==== Sys2Proof/Laws/Scalars.lean ====
section
/-! SUPPORT. What each scalar function computes, in the natural numbers (41_scalar R120 to R126). -/

namespace Sys2Proof.Laws

open Sys2Proof.Machine

theorem groupOrder_pos : 0 < groupOrder := by norm_num [groupOrder]

theorem groupOrder_lt_two_pow : groupOrder < 2 ^ 256 := by norm_num [groupOrder]

/-- A reduced value fits a scalar register (R120). -/
theorem toNat_scRed (v : Nat) : (scRed v).toNat = v % groupOrder := by
  unfold scRed
  rw [BitVec.toNat_ofNat, Nat.mod_eq_of_lt]
  exact lt_trans (Nat.mod_lt _ groupOrder_pos) groupOrder_lt_two_pow

theorem toNat_sAdd (a b : BitVec 256) : (sAdd a b).toNat = (a.toNat + b.toNat) % groupOrder :=
  toNat_scRed _

theorem toNat_sMul (a b : BitVec 256) : (sMul a b).toNat = a.toNat * b.toNat % groupOrder :=
  toNat_scRed _

/-- 32 bytes fill a scalar register exactly (R125). -/
theorem toNat_scalarOfBytes {b : List Byte} (h : b.length = 32) :
    (scalarOfBytes b).toNat = leNat b := by
  unfold scalarOfBytes
  rw [BitVec.toNat_ofNat, Nat.mod_eq_of_lt]
  have := leNat_lt b
  rw [h] at this
  exact lt_of_lt_of_le this (by norm_num)

theorem scalarBytes_length (v : BitVec 256) : (scalarBytes v).length = 32 := bytesLE_length _ _

theorem leNat_scalarBytes (v : BitVec 256) : leNat (scalarBytes v) = v.toNat :=
  leNat_bytesLE (lt_of_lt_of_le v.isLt (by norm_num))

end Sys2Proof.Laws
end

