-- ==== Sys2Proof/Laws/Scheme.lean ====
section
/-! SUPPORT. The functions of the signature scheme: the lengths of what they give, and the shape of
acceptance (44_pipeline R180 to R183). -/

namespace Sys2Proof.Laws

open Sys2Proof.Machine

theorem expandKey_length (hash : HashFn) (sk : List Byte) : (expandKey hash sk).2.length = 32 := by
  simp [expandKey]

theorem derivePub_length (hash : HashFn) (sk : List Byte) : (derivePub hash sk).length = 32 :=
  ptEnc_length _

theorem signMsg_length (hash : HashFn) (pub sk m : List Byte) :
    (signMsg hash pub sk m).length = 64 := by
  simp [signMsg, ptEnc_length, scalarBytes_length]

/-- Acceptance needs both points. Stated for any two decoded points: a proof about `verifySig` rewrites
with it, so that nothing has to evaluate `ptDec`. -/
theorem whenBothDecode_eq_true (r a : Option Point) (check : Point → Point → Bool) :
    whenBothDecode r a check = true ↔
      ∃ p q, r = some p ∧ a = some q ∧ check p q = true := by
  cases r <;> cases a <;> simp [whenBothDecode]

theorem toNat_hashScalar (hash : HashFn) (m : List Byte) :
    (hashScalar hash m).toNat = leNat (hash m).toList % groupOrder := toNat_scRed _

end Sys2Proof.Laws
end

