-- ==== Sys2Proof/Tests/Slice0.lean ====
section
/-! SUPPORT. The model's own tests. Expected values are those of spec/95_test_vectors.md, whose rows
the comments name; the words are those of its tables 3.1.1 and 3.1.2. -/

namespace Sys2Proof.Tests

open Sys2Proof.Machine

-- one theorem at a time: every kernel evaluation in flight holds a thread
set_option Elab.async false

/-! ### Ill-formed terms -/

theorem test_size_not_power_of_two_refused :
    Params.wellFormed { dmemSize := 300, x0Sign1Reject := false } = false := by decide

theorem test_size_too_small_refused :
    Params.wellFormed { dmemSize := 128, x0Sign1Reject := false } = false := by decide

theorem test_size_too_large_refused :
    Params.wellFormed { dmemSize := 131072, x0Sign1Reject := true } = false := by decide

theorem test_host_access_above_dmem_refused :
    (HostAction.dmemRead 4096).wellFormed .default = false ∧
    (HostAction.dmemWrite 4096 0).wellFormed .default = false ∧
    (HostAction.dmemRead 4095).wellFormed .default = true ∧
    perform (.dmemRead 4096) State.reset = .refused .hostAccessOutsideDmem :=
  ⟨rfl, rfl, rfl, rfl⟩

/-! ### Decoding, table 3.1.1: every command -/

theorem test_decode_system :
    decode 0x00000000 = some .nop ∧ decode 0x01000000 = some .clr := ⟨rfl, rfl⟩

theorem test_decode_field :
    decode 0x10312000 = some (.fadd 3 1 2) ∧ decode 0x11F0F000 = some (.fsub 15 0 15) ∧
    decode 0x12651000 = some (.fmul 6 5 1) ∧ decode 0x13210000 = some (.fsqr 2 1) ∧
    decode 0x14510000 = some (.finv 5 1) ∧ decode 0x15980000 = some (.fmov 9 8) ∧
    decode 0x1610FFFF = some (.fli 1 0xFFFF) ∧ decode 0x17200120 = some (.fld 2 0x0120) ∧
    decode 0x18400140 = some (.fst 4 0x0140) :=
  ⟨rfl, rfl, rfl, rfl, rfl, rfl, rfl, rfl, rfl⟩

theorem test_decode_scalar :
    decode 0x20331000 = some (.sadd 3 3 1) ∧ decode 0x21320000 = some (.smul 3 2 0) ∧
    decode 0x22760000 = some (.smov 7 6) ∧ decode 0x23000100 = some (.sld 0 0x0100) ∧
    decode 0x24300220 = some (.sst 3 0x0220) ∧ decode 0x25100140 = some (.sred 1 0x0140) ∧
    decode 0x26420000 = some (.sclamp 4 2) ∧ decode 0x27050000 = some (.schk 5) :=
  ⟨rfl, rfl, rfl, rfl, rfl, rfl, rfl, rfl⟩

theorem test_decode_point :
    decode 0x30210000 = some (.padd 2 1 0) ∧ decode 0x31100000 = some (.pdbl 1 0) ∧
    decode 0x32375000 = some (.psmul 3 7 5) ∧ decode 0x33601000 = some (.psmulb 6 1) ∧
    decode 0x34760000 = some (.pmov 7 6) ∧ decode 0x35400000 = some (.pldb 4) ∧
    decode 0x36500120 = some (.pdec 5 0x0120) ∧ decode 0x37200140 = some (.penc 2 0x0140) :=
  ⟨rfl, rfl, rfl, rfl, rfl, rfl, rfl, rfl⟩

theorem test_decode_hash_port :
    decode 0x40000000 = some .hinit ∧ decode 0x41000020 = some (.hupd 0x0020) ∧
    decode 0x42000000 = some .hupdm ∧ decode 0x43000FC0 = some (.hfin 0x0FC0) :=
  ⟨rfl, rfl, rfl, rfl⟩

theorem test_decode_pipeline :
    decode 0x5070FFE0 = some (.keyexp 7 0xFFE0) ∧ decode 0x51000000 = some .derive ∧
    decode 0x52000000 = some .sign ∧ decode 0x53000000 = some .verify := ⟨rfl, rfl, rfl, rfl⟩

/-- Table 3.1.2. -/
theorem test_decode_refuses_set_zero_bits :
    decode 0x10312800 = none ∧ decode 0x13011000 = none ∧ decode 0x16110007 = none ∧
    decode 0x17F10FF0 = none ∧ decode 0x27150000 = none ∧ decode 0x33010000 = none ∧
    decode 0x35010000 = none ∧ decode 0x41100020 = none ∧ decode 0x43010100 = none ∧
    decode 0x01000100 = none :=
  ⟨rfl, rfl, rfl, rfl, rfl, rfl, rfl, rfl, rfl, rfl⟩

/-- Table 3.1.2: register indexes 8 to 15 of scalar and point registers, and opcodes without a row. -/
theorem test_decode_refuses_reserved_indexes_and_opcodes :
    decode 0x20800000 = none ∧ decode 0x20080000 = none ∧ decode 0x20008000 = none ∧
    decode 0x23800100 = none ∧ decode 0x32308000 = none ∧ decode 0x35800000 = none ∧
    decode 0x36D00120 = none ∧ decode 0x50800100 = none ∧ decode 0x53800000 = none ∧
    decode 0x19000000 = none ∧ decode 0xFFFFFFFF = none :=
  ⟨rfl, rfl, rfl, rfl, rfl, rfl, rfl, rfl, rfl, rfl, rfl⟩

theorem test_encode :
    encode (.fsub 15 0 15) = 0x11F0F000 ∧ encode (.psmul 3 7 5) = 0x32375000 ∧
    encode (.schk 5) = 0x27050000 ∧ encode (.keyexp 7 0xFFE0) = 0x5070FFE0 := ⟨rfl, rfl, rfl, rfl⟩

/-! ### Single steps -/

/-- The state the tests start from: reset. -/
abbrev fresh : State := State.reset

/-- The result is a next state of which `p` holds. -/
def nextIs (r : Result) (p : State → Bool) : Bool :=
  match r with
  | .next t => p t
  | .fault _ => false
  | .refused _ => false

/-- The operand `x` of section 3.2, the bytes 01 to 20. -/
def opX : Fe := feOf 0x201f1e1d1c1b1a191817161514131211100f0e0d0c0b0a090807060504030201

/-- The operand `y` of section 3.2. -/
def opY : Fe := feOf 0x3fbebdbcbbbab9b8b7b6b5b4b3b2b1b0afaeadacabaaa9a8a7a6a5a4a3a2a1b3

/-! ### Field commands, table 3.2.1 -/

/-- FV2 -/
theorem test_fadd_same_register_three_times : nextIs (exec (.fadd 1 1 1)
    (fresh.setF 1 (feOf (P - 1)))) (fun t =>
    t.f.get 1 == .valid (feOf (P - 2))) = true := by decide +kernel

/-- FV3 -/
theorem test_fadd : nextIs (exec (.fadd 3 1 2)
    ((fresh.setF 1 opX).setF 2 opY)) (fun t =>
    t.f.get 3 == .valid (feOf 
      0x5fdddbd9d7d5d3d1cfcdcbc9c7c5c3c1bfbdbbb9b7b5b3b1afadaba9a7a5a3b4)) = true := by decide +kernel

/-- FV4 -/
theorem test_fsub_borrows : nextIs (exec (.fsub 3 1 2)
    ((fresh.setF 1 (feOf 0)).setF 2 (feOf 1))) (fun t =>
    t.f.get 3 == .valid (feOf (P - 1))) = true := by decide +kernel

/-- FV7 -/
theorem test_fsub : nextIs (exec (.fsub 3 1 2)
    ((fresh.setF 1 opX).setF 2 opY)) (fun t =>
    t.f.get 3 == .valid (feOf 
      0x606060606060606060606060606060606060606060606060606060606060603b)) = true := by decide +kernel

/-- FV9 -/
theorem test_fmul_reduces : nextIs (exec (.fmul 3 1 2)
    ((fresh.setF 1 (feOf (2 ^ 254))).setF 2 (feOf 4))) (fun t =>
    t.f.get 3 == .valid (feOf 38)) = true := by decide +kernel

/-- FV11 -/
theorem test_fmul : nextIs (exec (.fmul 3 1 2)
    ((fresh.setF 1 opX).setF 2 opY)) (fun t =>
    t.f.get 3 == .valid (feOf 
      0x2cd501d87e17cabc10ee79d82ea25876207cafdf2fc6c95ca5c9ee37cbcf6838)) = true := by decide +kernel

/-- FV12 -/
theorem test_fsqr : nextIs (exec (.fsqr 2 1)
    (fresh.setF 1 sqrtM1)) (fun t =>
    t.f.get 2 == .valid (feOf (P - 1))) = true := by decide +kernel

/-- FV14 -/
theorem test_finv_of_zero : nextIs (exec (.finv 5 1)
    (fresh.setF 1 (feOf 0))) (fun t =>
    t.f.get 5 == .valid (feOf 0)) = true := by decide +kernel

/-- FV18 -/
theorem test_finv : nextIs (exec (.finv 5 1)
    (fresh.setF 1 opX)) (fun t =>
    t.f.get 5 == .valid (feOf 
      0x4d41ec8fc2731a6517bf6aed208d8b1d07cefe5830588dc64c8b1535a4f5fae5)) = true := by decide +kernel

/-- FV19 -/
theorem test_fmov : nextIs (exec (.fmov 9 8)
    (fresh.setF 8 (feOf 7))) (fun t =>
    t.f.get 9 == .valid (feOf 7) && t.f.get 8 == .valid (feOf 7)) = true := by decide +kernel

/-- FV20 -/
theorem test_fli : nextIs (exec (.fli 1 0xFFFF)
    (fresh)) (fun t =>
    t.f.get 1 == .valid (feOf 65535)) = true := by decide +kernel

/-- FV22 -/
theorem test_fld_reduces : nextIs (exec (.fld 2 0x0120)
    (fresh.dmemWrite 0x0120 (bytesLE 32
      0xbfbebdbcbbbab9b8b7b6b5b4b3b2b1b0afaeadacabaaa9a8a7a6a5a4a3a2a1a0))) (fun t =>
    t.f.get 2 == .valid opY) = true := by decide +kernel

/-- FV28 -/
theorem test_fld_takes_all_256_bits : nextIs (exec (.fld 2 0x0120)
    (fresh.dmemWrite 0x0120 (bytesLE 32 (2 ^ 255 + P - 1)))) (fun t =>
    t.f.get 2 == .valid (feOf 18)) = true := by decide +kernel

/-- FV29 -/
theorem test_fst : nextIs (exec (.fst 4 0x0140)
    (fresh.setF 4 (feOf (P - 1)))) (fun t =>
    t.dmemRead 0x0140 32 == 0xEC :: List.replicate 30 0xFF ++ [0x7F]) = true := by decide +kernel

/-- FV30 -/
theorem test_fst_last_address : nextIs (exec (.fst 4 0x0FE0)
    (fresh.setF 4 (feOf 0))) (fun t =>
    t.dmemRead 0x0FE0 32 == List.replicate 32 0x00 && !t.err) = true := by decide +kernel

/-! ### Scalar commands, table 3.3.1 -/

/-- SV1 -/
theorem test_sadd_wraps_at_l : nextIs (exec (.sadd 3 3 1)
    ((fresh.setS 3 (.ofNat 256 (groupOrder - 1))).setS 1 1)) (fun t =>
    t.s.get 3 == .valid 0) = true := by decide +kernel

/-- SV2 -/
theorem test_sadd_forms_the_257_bit_sum : nextIs (exec (.sadd 3 1 2)
    ((fresh.setS 1 (.allOnes 256)).setS 2 (.allOnes 256))) (fun t =>
    t.s.get 3 == .valid 
      0x0ffffffffffffffffffffffffffffffd78ffbe0a4404020b55c5ffcebe3b564b) = true := by decide +kernel

/-- SV4 -/
theorem test_smul : nextIs (exec (.smul 3 2 0)
    ((fresh.setS 2 (.ofNat 256 (groupOrder - 1))).setS 0 (.ofNat 256 (groupOrder - 1)))) (fun t =>
    t.s.get 3 == .valid 1) = true := by decide +kernel

/-- SV5 -/
theorem test_smul_forms_the_512_bit_product : nextIs (exec (.smul 3 1 2)
    ((fresh.setS 1 (.allOnes 256)).setS 2 (.allOnes 256))) (fun t =>
    t.s.get 3 == .valid 
      0x0399411b7c309a3dceec73d217f5be686bed577bc7792e12a652752ee3568ca2) = true := by decide +kernel

/-- SV9 -/
theorem test_smov_does_not_reduce : nextIs (exec (.smov 7 6)
    (fresh.setS 6 (.allOnes 256))) (fun t =>
    t.s.get 7 == .valid (.allOnes 256)) = true := by decide +kernel

/-- SV11 -/
theorem test_sld_does_not_reduce : nextIs (exec (.sld 0 0x0100)
    (fresh.dmemWrite 0x0100 (bytesLE 32 groupOrder))) (fun t =>
    t.s.get 0 == .valid (.ofNat 256 groupOrder)) = true := by decide +kernel

/-- SV12 -/
theorem test_sst_does_not_reduce : nextIs (exec (.sst 3 0x0220)
    (fresh.setS 3 (.allOnes 256))) (fun t =>
    t.dmemRead 0x0220 32 == List.replicate 32 0xFF) = true := by decide +kernel

/-- SV17 -/
theorem test_sred_high_half : nextIs (exec (.sred 1 0x0140)
    (fresh.dmemWrite 0x0140 (bytesLE 64 (2 ^ 256)))) (fun t =>
    t.s.get 1 == .valid 
      0x0ffffffffffffffffffffffffffffffec6ef5bf4737dcf70d6ec31748d98951d) = true := by decide +kernel

/-- SV18 -/
theorem test_sred : nextIs (exec (.sred 1 0x0140)
    (fresh.dmemWrite 0x0140 ((List.range 64).map (.ofNat 8)))) (fun t =>
    t.s.get 1 == .valid 
      0x0572d0e474b5e0da7a932112c3d46159cce628540db62350a0372df082623c7a) = true := by decide +kernel

/-- SV20 -/
theorem test_sclamp_all_ones : nextIs (exec (.sclamp 4 2)
    (fresh.setS 2 (.allOnes 256))) (fun t =>
    t.s.get 4 == .valid (.ofNat 256 (2 ^ 255 - 8))) = true := by decide +kernel

/-- SV21 -/
theorem test_sclamp : nextIs (exec (.sclamp 4 2)
    (fresh.setS 2
      0x2f2e2d2c2b2a292827262524232221201f1e1d1c1b1a19181716151413121110)) (fun t =>
    t.s.get 4 == .valid 
      0x6f2e2d2c2b2a292827262524232221201f1e1d1c1b1a19181716151413121110) = true := by decide +kernel

/-- SV24 -/
theorem test_schk_below_l : nextIs (exec (.schk 5)
    (fresh.setS 5 (.ofNat 256 (groupOrder - 1)))) (fun t =>
    t.flags.sc) = true := by decide +kernel

/-- SV25 -/
theorem test_schk_at_l : nextIs (exec (.schk 5)
    (fresh.setS 5 (.ofNat 256 groupOrder))) (fun t =>
    !t.flags.sc && t.s.get 5 == .valid (.ofNat 256 groupOrder)) = true := by decide +kernel

/-! ### Point commands, tables 3.4.1 and 3.4.2 -/

/-- PA3 (`2B`, also PA1) -/
theorem test_padd_same_register_three_times : nextIs (exec (.padd 0 0 0)
    (fresh.setP 0 (.valid basePoint))) (fun t =>
    nextIs (exec (.penc 0 0x0180) t) (fun u => u.dmemRead 0x0180 32 == bytesLE 32
      0x2260cdf3092329c21da25ee8c9a21f5697390f51643851560e5f46ae6af8a3c9)) = true := by decide +kernel

/-- PA5 -/
theorem test_padd_of_the_negation : nextIs (exec (.padd 2 0 1)
    ((fresh.setP 0 (.valid basePoint)).setP 1
      (.valid ⟨fSub (feOf 0) basePoint.x, basePoint.y⟩))) (fun t =>
    t.p.get 2 == .valid idPoint) = true := by decide +kernel

/-- PA10 -/
theorem test_pdbl : nextIs (exec (.pdbl 1 0)
    (fresh.setP 0 (.valid ⟨sqrtM1, feOf 0⟩))) (fun t =>
    t.p.get 1 == .valid ⟨feOf 0, feOf (P - 1)⟩) = true := by decide +kernel

/-- PA12 -/
theorem test_psmul : nextIs (exec (.psmul 3 0 0)
    ((fresh.setP 0 (.valid basePoint)).setS 0 3)) (fun t =>
    nextIs (exec (.penc 3 0x0180) t) (fun u => u.dmemRead 0x0180 32 == bytesLE 32
      0x1267b1d177ee69aba126a18e60269ef79f16ec176724030402c3684878f5b4d4)) = true := by decide +kernel

/-- PA17 -/
theorem test_psmul_does_not_reduce : nextIs (exec (.psmul 3 0 0)
    ((fresh.setP 0 (.valid ⟨feOf 0, feOf (P - 1)⟩)).setS 0 (.ofNat 256 groupOrder))) (fun t =>
    t.p.get 3 == .valid ⟨feOf 0, feOf (P - 1)⟩) = true := by decide +kernel

/-- PA26 -/
theorem test_psmulb : nextIs (exec (.psmulb 0 1)
    (fresh.setS 1 (.allOnes 256))) (fun t =>
    nextIs (exec (.penc 0 0x0180) t) (fun u => u.dmemRead 0x0180 32 == bytesLE 32
      0x9c8fa66211b52666f3a53530bbc90423853a941ea2388c1b8ceb4b7a4bfe27db)) = true := by decide +kernel

/-- PA24 -/
theorem test_psmulb_of_l : nextIs (exec (.psmulb 0 1)
    (fresh.setS 1 (.ofNat 256 groupOrder))) (fun t =>
    t.p.get 0 == .valid idPoint) = true := by decide +kernel

/-- PA28, with `B` for `3B` -/
theorem test_pmov : nextIs (exec (.pmov 7 6)
    (fresh.setP 6 (.valid basePoint))) (fun t =>
    t.p.get 7 == .valid basePoint) = true := by decide +kernel

/-- HS17 -/
theorem test_pmov_copies_no_invalid_tag : nextIs (exec (.pmov 6 5)
    (fresh.setP 5 .invalid)) (fun t =>
    t.cause == .invalidPointOperand && t.p.get 6 == .empty) = true := by decide +kernel

/-- PA29 -/
theorem test_pldb : nextIs (exec (.pldb 4)
    (fresh)) (fun t =>
    t.p.get 4 == .valid basePoint) = true := by decide +kernel

/-- PD8 -/
theorem test_pdec : nextIs (exec (.pdec 5 0x0120)
    (fresh.dmemWrite 0x0120 (bytesLE 32 (3 + 2 ^ 255)))) (fun t =>
    t.flags.pv && t.p.get 5 == .valid
      ⟨feOf 0x1701402bd9ec9f710bb750a74e10d7cee3f269b422cf43f8010919e0fe51fa0b, feOf 3⟩) = true := by decide +kernel

/-- PD6 -/
theorem test_pdec_of_no_point : nextIs (exec (.pdec 5 0x0120)
    (fresh.dmemWrite 0x0120 (bytesLE 32 2))) (fun t =>
    !t.flags.pv && t.p.get 5 == .invalid && !t.err) = true := by decide +kernel

/-- PD25, `X0_SIGN1_REJECT = true`, and PD24, `false`. -/
theorem test_pdec_x_zero_sign_one :
    ptDec true (0xEE :: List.replicate 31 0xFF) = none ∧
    ptDec false (0xEE :: List.replicate 31 0xFF) = some idPoint :=
  ⟨by decide +kernel, by decide +kernel⟩

/-- PD18 -/
theorem test_penc : nextIs (exec (.penc 5 0x0180)
    (fresh.setP 5 (.valid ⟨fSub (feOf 0) basePoint.x, basePoint.y⟩))) (fun t =>
    t.dmemRead 0x0180 32 == 0x58 :: List.replicate 30 0x66 ++ [0xE6]) = true := by decide +kernel

/-- HS13 -/
theorem test_penc_invalid_before_address : nextIs (exec (.penc 5 0xFFFF)
    (fresh.setP 5 .invalid)) (fun t =>
    t.cause == .invalidPointOperand && t.errcmd == 0x3750FFFF) = true := by decide +kernel

/-! ### Hash-port and pipeline commands, sections 3.5 to 3.7 -/

/-- HV8 -/
theorem test_hinit : nextIs (exec .hinit
    (fresh.setHbuf [1, 2])) (fun t =>
    t.hbuf == []) = true := by decide +kernel

/-- HV5 -/
theorem test_hupd : nextIs (exec (.hupd 0)
    (fresh.dmemWrite 0 ((List.range 32).map fun i => .ofNat 8 (i + 1)))) (fun t =>
    t.hbuf == (List.range 32).map fun i => .ofNat 8 (i + 1)) = true := by decide +kernel

/-- HV4 -/
theorem test_hupdm_reads_mlen_bytes : nextIs (exec .hupdm
    ({ fresh with msg := [(0, 0x61), (1, 0x62), (2, 0x63)], mlen := 2 })) (fun t =>
    t.hbuf == [0x61, 0x62]) = true := by decide +kernel

/-- HV1 -/
theorem test_hfin_empties_hbuf : nextIs (exec (.hfin 0x0FC0)
    (fresh.setHbuf [1])) (fun t =>
    t.hbuf == [] && !t.err) = true := by decide +kernel

/-- HV7 -/
theorem test_hfin_fault_keeps_hbuf : nextIs (exec (.hfin 0x0FC1)
    (fresh.setHbuf [1])) (fun t =>
    t.cause == .addressRange && t.errcmd == 0x43000FC1 && t.hbuf == [1]) = true := by decide +kernel

/-- HS21 -/
theorem test_keyexp_no_partial_result : nextIs (exec (.keyexp 1 0x0FE1)
    (fresh)) (fun t =>
    t.cause == .addressRange && t.errcmd == 0x50100FE1 && t.s.get 1 == .empty) = true := by decide +kernel

/-- R185 -/
theorem test_derive_range : nextIs (exec .derive
    ({ fresh with pkptr := 0xFFE1 })) (fun t =>
    t.cause == .addressRange && t.dmem == []) = true := by decide +kernel

/-- HS19 -/
theorem test_sign_range : nextIs (exec .sign
    ({ fresh with sgptr := 0x0FC1 })) (fun t =>
    t.cause == .addressRange && t.errcmd == 0x52000000 && t.dmem == []) = true := by decide +kernel

/-- HS20 -/
theorem test_verify_range : nextIs (exec .verify
    ({ fresh with pkptr := 0xFFE1, sgptr := 0x0FC0 })) (fun t =>
    t.cause == .addressRange && !t.flags.v) = true := by decide +kernel

/-- V3: both points decode, `S = L` -/
theorem test_verify_rejects_s_of_l : nextIs (exec .verify
    ((((fresh.setV true).dmemWrite 0x0020 (bytesLE 32 1)).dmemWrite 0x0040
      (bytesLE 32 1)).dmemWrite 0x0060 (bytesLE 32 groupOrder))) (fun t =>
    !t.flags.v && !t.err) = true := by decide +kernel

/-! ### System commands, the host and faults, table 3.7.1 -/

/-- HS5 -/
theorem test_nop : nextIs (exec .nop
    (fresh.setF 1 (feOf 7))) (fun t =>
    t.f.get 1 == .valid (feOf 7) && !t.err) = true := by decide +kernel

/-- HS23 -/
theorem test_clr : nextIs (exec .clr
    ({ (fresh.setF 1 (feOf 7)).setHbuf [1] with mlen := 3, flags := ⟨false, true, true⟩ })) (fun t =>
    t.f.get 1 == .empty && t.hbuf == [] && t.flags.word == 0 && t.mlen == 3) = true := by decide +kernel

/-- HS6 -/
theorem test_fault_record : nextIs (exec (.fadd 2 1 0)
    (fresh.setF 1 (feOf 7))) (fun t =>
    t.err && t.cause == .emptyRegister && t.errcmd == 0x10210000 && t.f.get 2 == .empty) = true := by decide +kernel

/-- HS12 -/
theorem test_empty_before_invalid : nextIs (exec (.padd 2 5 1)
    (fresh.setP 5 .invalid)) (fun t =>
    t.cause == .emptyRegister) = true := by decide +kernel

/-- HS18 -/
theorem test_range_last_legal_address : nextIs (exec (.fld 0 0x0FE0)
    (fresh)) (fun t =>
    !t.err) = true := by decide +kernel

/-- HS18 -/
theorem test_range_first_illegal_address : nextIs (exec (.fld 0 0x0FE1)
    (fresh)) (fun t =>
    t.cause == .addressRange) = true := by decide +kernel

/-- W2 -/
theorem test_no_wrap_around : nextIs (exec (.fld 0 0xFFE1)
    ({ fresh with params := ⟨65536, false⟩ })) (fun t =>
    t.cause == .addressRange) = true := by decide +kernel

/-- The fetch: the host's write of FLI f1, 0xFFFF to `CMD` is the next step (10_state R24, R31). -/
theorem test_step_runs_the_word_written_to_cmd :
    decodeTableWord 32 0x1610FFFF = some (.fli 1 0xFFFF) ∧
    nextIs (step (fresh.withFetchWord 32 0x1610FFFF)) (fun t =>
      t.f.get 1 == .valid (feOf 65535) && t.pc == 1 && t.todo == []) = true :=
  ⟨rfl, by decide +kernel⟩

/-- HS2: a pointer register takes bits 15:0. -/
theorem test_pointer_write :
    (fresh.csrWrite 0x1C 0x12345678).csrRead 0x1C = 0x00005678 := by decide

/-! ### Witnesses: states and operands that meet the hypotheses of the statements

`work` has a VALID register of every kind (f1, f2, s1, s2, p0, p1), an INVALID point register (p5) and
leaves the others EMPTY; DMEM has 4096 bytes. -/

/-- The state most witnesses use. -/
def work : State :=
  (((((((fresh.setF 1 (feOf 7)).setF 2 (feOf 5)).setS 1 3).setS 2 (.allOnes 256)).setP 0
    (.valid basePoint)).setP 1 (.valid idPoint)).setP 5 .invalid)

/-- `work` in the error state, as the host's reissue of HS16 leaves it. -/
def broken : State := work.raise .illegalCommand 0x18910FFF

/-- A legal state other than reset whose step is a command that writes a point register. -/
def ready : State :=
  { fresh.setP 0 (.valid basePoint) with todo := [.csrWrite 0x00 0x31100000] }

theorem witness_step_keeps_the_invariant :
    ready.Inv ∧ ∃ t : State, step ready = .next t := by
  refine ⟨⟨by decide, ?_, ⟨rfl, rfl⟩, ⟨rfl, rfl, rfl, rfl⟩⟩, ?_⟩
  · intro r q h
    have hr : ready.p.get r.toFin = if r = 0 then .valid basePoint else .empty := by
      have := State.setP_get fresh 0 r (.valid basePoint)
      have hf : fresh.p.get r.toFin = .empty := State.clearWorking_p_get fresh r
      rw [hf] at this
      exact this
    rw [hr] at h
    split at h
    · injection h with h
      rw [← h]
      exact Laws.onCurve_base
    · cases h
  · exact ⟨_, rfl⟩

theorem witness_step_performs_one_action :
    ready.todo = .csrWrite 0x00 0x31100000 :: [] ∧ fresh.todo = [] ∧
    perform (.csrWrite 0x24 0x1234) work = .next { work with sgptr := 0x1234 } ∧
    (∀ w : Word, HostAction.csrWrite 0x24 0x1234 ≠ .csrWrite 0x00 w) ∧
    HostAction.csrWrite 0x24 0x1234 ≠ .reset := by
  refine ⟨rfl, rfl, rfl, ?_, by decide⟩
  intro w h
  injection h with h
  exact absurd h (by decide)

theorem witness_step_runs_the_decoded_command :
    ready.todo = .csrWrite 0x00 0x31100000 :: [] ∧ decode 0x31100000 = some (.pdbl 1 0) ∧
    ({ fresh with todo := [.csrWrite 0x00 0x02000000] } : State).todo =
      .csrWrite 0x00 0x02000000 :: [] ∧ decode 0x02000000 = none := ⟨rfl, rfl, rfl, rfl⟩

/-- The last clause of the opcode map, at the opcodes next to those of rows. -/
theorem witness_opcodes_without_a_row :
    (0x02000000 : Word).extractLsb' 24 8 = 0x02 ∧ (0x0FFFFFFF : Word).extractLsb' 24 8 = 0x0F ∧
    (0x54000000 : Word).extractLsb' 24 8 = 0x54 ∧ (0xFF000000 : Word).extractLsb' 24 8 = 0xFF := by
  decide

theorem witness_illegal_words :
    decode 0x53800000 = none ∧ work.err = false ∧
    0x02 = ((0x02000000 : Word).extractLsb' 24 8).toNat ∧
    0x1F = ((0x1F000000 : Word).extractLsb' 24 8).toNat ∧
    0x28 = ((0x28000000 : Word).extractLsb' 24 8).toNat ∧
    0x3F = ((0x3F000000 : Word).extractLsb' 24 8).toNat ∧
    0x44 = ((0x44000000 : Word).extractLsb' 24 8).toNat ∧
    0xFF = ((0xFFFFFFFF : Word).extractLsb' 24 8).toNat :=
  ⟨rfl, rfl, by decide, by decide, by decide, by decide, by decide, by decide⟩

theorem witness_error_state : broken.err = true ∧ 0x24 ≠ 0x00 ∧ 4095 < broken.params.dmemSize := by
  decide

/-- One witness for each clause of the fault priority: PADD p2, p3, p5 (EMPTY and INVALID), PADD p2,
p0, p5 (INVALID), FLD at 0x0FE1, FLD at 0x0FE0. -/
theorem witness_fault_priority :
    work.err = false ∧ decode 0x02000000 = none ∧
    (sourcesOf (.padd 2 3 5)).any work.sourceEmpty = true ∧
    (sourcesOf (.padd 2 0 5)).any work.sourceEmpty = false ∧
    (sourcesOf (.padd 2 0 5)).any work.sourceInvalid = true ∧
    (sourcesOf (.fld 0 0x0FE1)).any work.sourceEmpty = false ∧
    (sourcesOf (.fld 0 0x0FE1)).any work.sourceInvalid = false ∧
    (∃ r ∈ rangesOf work (.fld 0 0x0FE1), work.params.dmemSize < r.1.toNat + r.2) ∧
    (∀ r ∈ rangesOf work (.fld 0 0x0FE0), r.1.toNat + r.2 ≤ work.params.dmemSize) := by
  refine ⟨rfl, rfl, by decide +kernel, by decide +kernel, by decide +kernel, rfl, rfl,
    ⟨(0x0FE1, 32), by simp [rangesOf], by decide⟩, ?_⟩
  intro r hr
  simp only [rangesOf, List.mem_singleton] at hr
  subst hr
  decide

theorem witness_faulting_commands :
    work.err = false ∧ execWord 0x02000000 work = .next (work.raise .illegalCommand 0x02000000) ∧
    perform (.csrWrite 0x00 0x02000000) work =
      .next { work.raise .illegalCommand 0x02000000 with pc := work.pc + 1 } ∧
    (work.raise .illegalCommand 0x02000000).err = true := ⟨rfl, rfl, rfl, rfl⟩

theorem witness_leaving_the_error_state :
    (1 : Word).getLsbD 0 = true ∧ (0xFFFFFFFE : Word).getLsbD 0 = false ∧
    work.err = false ∧ work.cause = .none ∧ work.errcmd = 0 ∧
    execWord 0x18910FFF work = .next broken ∧ broken.err = true ∧
    (∃ t : State, step { broken with todo := [.csrWrite 0x14 1] } = .next t ∧ t.err = false) ∧
    ∃ t : State, step { broken with todo := [.reset] } = .next t ∧ t.err = false :=
  ⟨by decide, by decide, rfl, rfl, rfl, rfl, rfl, ⟨_, rfl, rfl⟩, ⟨_, rfl, rfl⟩⟩

/-- Two states with the same tags and pointers and different values. -/
theorem witness_same_public :
    samePublic work (work.setF 1 (feOf 8)) ∧ work.err = false ∧
    (work.setF 1 (feOf 8)).err = false := by
  refine ⟨⟨fun x => ?_, rfl, rfl, rfl, rfl⟩, rfl, rfl⟩
  cases x with
  | f r =>
    refine ⟨?_, rfl⟩
    simp only [State.sourceEmpty, State.setF_get]
    split
    · next h => subst h; decide +kernel
    · rfl
  | s r => exact ⟨rfl, rfl⟩
  | p r => exact ⟨rfl, rfl⟩

theorem witness_offsets_outside_the_map :
    0x28 ∉ [0x00, 0x04, 0x08, 0x0C, 0x10, 0x14, 0x18, 0x1C, 0x20, 0x24] ∧
    0x01 ∉ [0x00, 0x04, 0x08, 0x0C, 0x10, 0x14, 0x18, 0x1C, 0x20, 0x24] ∧
    0x04 ∉ [0x00, 0x14, 0x18, 0x1C, 0x20, 0x24] := by decide

theorem witness_host_accesses :
    4095 < work.params.dmemSize ∧ work.params.dmemSize ≤ 4096 ∧ (1 : Nat) ≠ 0 := by decide

theorem witness_bytes_and_integers :
    256 ^ 32 - 1 < 256 ^ 32 ∧ 255 / 8 < (List.replicate 32 (0xFF : Byte)).length := by decide

theorem witness_memory_ranges :
    31 < 32 ∧ 31 < (List.replicate 32 (0xFF : Byte)).length ∧
    (0x0FDF < (0x0FE0 : Addr).toNat ∨ (0x0FE0 : Addr).toNat + 32 ≤ 0x0FDF) ∧
    (0x1000 < (0x0FE0 : Addr).toNat ∨ (0x0FE0 : Addr).toNat + 32 ≤ 0x1000) := by decide

theorem witness_message :
    1 < ({ work with mlen := 2 } : State).mlen.toNat ∧ work.mlen = 0 ∧
    exec .nop work = .next work := ⟨by decide, rfl, rfl⟩

theorem witness_flags :
    exec (.schk 1) work = .next (work.setSC true) ∧ Instr.schk 1 ≠ .verify ∧
    Instr.schk 1 ≠ .clr ∧ (∀ (pd : PReg) (addr : Addr), Instr.schk 1 ≠ .pdec pd addr) ∧
    (∀ r : SReg, Instr.nop ≠ .schk r) ∧ work.err = false ∧
    exec (.schk 3) work = .next (work.raise .emptyRegister 0x27030000) := by
  exact ⟨rfl, by decide, by decide, by intros; simp, by intros; simp, rfl, rfl⟩

theorem witness_flag_writers :
    (∃ t : State, exec .clr work = .next t) ∧
    (∃ t : State, exec .verify work = .next t ∧ t.err = false) ∧
    (∃ t : State, exec (.pdec 2 0x0FE0) (work.dmemWrite 0x0FE0 (bytesLE 32 1)) = .next t ∧
      t.err = false) ∧
    work.s.get (1 : SReg).toFin = .valid 3 ∧ exec (.schk 1) work = .next (work.setSC true) :=
  ⟨⟨_, rfl⟩, ⟨_, rfl, rfl⟩, ⟨_, rfl, rfl⟩, rfl, rfl⟩

/-- The register hypotheses of the command statements: VALID, EMPTY and INVALID sources. -/
theorem witness_sources :
    work.err = false ∧ broken.err = true ∧
    work.f.get (1 : FReg).toFin = .valid (feOf 7) ∧
    work.f.get (2 : FReg).toFin = .valid (feOf 5) ∧ work.f.get (3 : FReg).toFin = .empty ∧
    work.s.get (1 : SReg).toFin = .valid 3 ∧
    work.s.get (2 : SReg).toFin = .valid (.allOnes 256) ∧ work.s.get (3 : SReg).toFin = .empty ∧
    work.p.get (0 : PReg).toFin = .valid basePoint ∧
    work.p.get (1 : PReg).toFin = .valid idPoint ∧ work.p.get (5 : PReg).toFin = .invalid ∧
    work.p.get (3 : PReg).toFin = .empty ∧ onCurve basePoint = true :=
  ⟨rfl, rfl, rfl, rfl, rfl, rfl, rfl, rfl, rfl, rfl, rfl, rfl, Laws.onCurve_base⟩

/-- The range hypotheses of the command statements at their boundaries, for 32 and for 64 bytes. -/
theorem witness_ranges :
    (0x0FE0 : Addr).toNat + 32 ≤ work.params.dmemSize ∧
    work.params.dmemSize < (0x0FE1 : Addr).toNat + 32 ∧
    (0x0FC0 : Addr).toNat + 64 ≤ work.params.dmemSize ∧
    work.params.dmemSize < (0x0FC1 : Addr).toNat + 64 ∧
    work.params.dmemSize < (0xFFFF : Addr).toNat + 32 := by decide

/-- DMEM bytes that decode and that do not, for PDEC at both. -/
theorem witness_pdec :
    ptDec false (bytesLE 32 2) = none ∧ ptDec false (bytesLE 32 1) = some idPoint ∧
    (work.dmemWrite 0x0FE0 (bytesLE 32 2)).dmemRead 0x0FE0 32 = bytesLE 32 2 ∧
    (work.dmemWrite 0x0FE0 (bytesLE 32 1)).dmemRead 0x0FE0 32 = bytesLE 32 1 :=
  ⟨by decide +kernel, by decide +kernel, by decide +kernel, by decide +kernel⟩

theorem witness_hash_port : work.mlen = 0 ∧ work.err = false := ⟨rfl, rfl⟩

/-- The pointer hypotheses of KEYEXP, DERIVE, SIGN and VERIFY: in range and out of range. -/
theorem witness_pointers :
    work.skptr.toNat + 32 ≤ work.params.dmemSize ∧ work.pkptr.toNat + 32 ≤ work.params.dmemSize ∧
    work.sgptr.toNat + 64 ≤ work.params.dmemSize ∧
    work.params.dmemSize < ({ work with skptr := 0x0FE1 } : State).skptr.toNat + 32 ∧
    work.params.dmemSize < ({ work with pkptr := 0x0FE1 } : State).pkptr.toNat + 32 ∧
    work.params.dmemSize < ({ work with sgptr := 0x0FC1 } : State).sgptr.toNat + 64 := by decide

/-- A command of each frame that answers a next state in which it has done its work. -/
theorem witness_frames :
    exec (.fadd 3 1 2) work = .next (work.setF 3 (fAdd (feOf 7) (feOf 5))) ∧
    exec (.fst 1 0x0FE0) work = .next (work.dmemWrite 0x0FE0 (fEnc (feOf 7))) ∧
    exec (.sadd 3 1 2) work = .next (work.setS 3 (sAdd 3 (.allOnes 256))) ∧
    exec (.sst 1 0x0FE0) work = .next (work.dmemWrite 0x0FE0 (scalarBytes 3)) ∧
    exec (.schk 1) work = .next (work.setSC (scalarCanonical 3)) ∧
    exec (.pmov 3 0) work = .next (work.setP 3 (.valid basePoint)) ∧
    exec (.penc 0 0x0FE0) work = .next (work.dmemWrite 0x0FE0 (ptEnc basePoint)) ∧
    exec .nop work = .next work ∧ exec .clr work = .next work.clearWorking ∧
    exec .hinit work = .next (work.setHbuf []) ∧
    storesTo work (.fst 1 0x0FE0) = some (0x0FE0, 32) :=
  ⟨rfl, rfl, rfl, rfl, rfl, rfl, rfl, rfl, rfl, rfl, rfl⟩

theorem witness_frame_of_pdec :
    ∃ t : State, exec (.pdec 2 0x0FE0) (work.dmemWrite 0x0FE0 (bytesLE 32 1)) = .next t ∧
      t.err = false := ⟨_, rfl, rfl⟩

theorem witness_frames_of_the_pipeline :
    (∃ t : State, exec (.keyexp 4 0x0FE0) work = .next t ∧ t.err = false) ∧
    (∃ t : State, exec .derive work = .next t ∧ t.err = false) ∧
    (∃ t : State, exec .sign work = .next t ∧ t.err = false) ∧
    ∃ t : State, exec .verify work = .next t ∧ t.err = false :=
  ⟨⟨_, rfl, rfl⟩, ⟨_, rfl, rfl⟩, ⟨_, rfl, rfl⟩, ⟨_, rfl, rfl⟩⟩

theorem witness_field_functions :
    feOf 7 ≠ feOf 0 ∧ (bytesLE 32 P).length = 32 ∧ leNat (bytesLE 32 (P - 1)) < P := by
  decide +kernel

theorem witness_scalar_functions : 255 < 256 ∧ (List.replicate 30 (0xFF : Byte)).length = 30 := by
  decide

/-- Points of the curve, and quadruples that represent them. -/
theorem witness_points :
    onCurve basePoint = true ∧ onCurve idPoint = true ∧
    onCurve ⟨feOf 0, feOf (P - 1)⟩ = true ∧ onCurve ⟨sqrtM1, feOf 0⟩ = true ∧
    (0 < 1 ∧ 1 < groupOrder) ∧ (0 < groupOrder - 1 ∧ groupOrder - 1 < groupOrder) :=
  ⟨by decide +kernel, by decide +kernel, by decide +kernel, by decide +kernel, by decide, by decide⟩

/-- A quadruple with `Z ≠ 1` that represents the base point. -/
theorem witness_represents :
    ExtPoint.represents ⟨fMul (feOf 2) basePoint.x, fMul (feOf 2) basePoint.y, feOf 2,
      fMul (feOf 2) (fMul basePoint.x basePoint.y)⟩ basePoint :=
  ⟨by decide +kernel, by decide +kernel, by decide +kernel, by decide +kernel⟩

/-- Strings that decode and that do not, canonical and not (PD6, PD22, PD24, PD25). -/
theorem witness_decoding :
    (bytesLE 32 2).length = 32 ∧ ptDec false (bytesLE 32 2) = none ∧
    ptDec true (0xEE :: List.replicate 31 0xFF) = none ∧
    ptDec false (0xEE :: List.replicate 31 0xFF) = some idPoint ∧
    ptDec false (bytesLE 32 P) = some ⟨sqrtM1, feOf 0⟩ :=
  ⟨by decide +kernel, by decide +kernel, by decide +kernel, by decide +kernel, by decide +kernel⟩

/-- `u/v` with a root (4), and without one (2). -/
theorem witness_square_roots :
    feOf 1 ≠ feOf 0 ∧ feOf 2 ≠ feOf 0 ∧
    (∃ x0 : Fe, sqrtRatio (feOf 4) (feOf 1) = some x0) ∧ sqrtRatio (feOf 2) (feOf 1) = none :=
  ⟨by decide +kernel, by decide +kernel, Option.isSome_iff_exists.1 (by decide +kernel), by decide +kernel⟩

theorem witness_x_zero_sign_one :
    (0xEC :: List.replicate 31 0xFF : List Byte).length = 32 ∧
    (onCurve ⟨feOf 0, feOf (leNat (0xEC :: List.replicate 31 0xFF) % 2 ^ 255)⟩ = true ∧
      leNat (0xEC :: List.replicate 31 0xFF) / 2 ^ 255 = 1) ∧
    ¬(onCurve ⟨feOf 0, feOf (leNat (bytesLE 32 1) % 2 ^ 255)⟩ = true ∧
      leNat (bytesLE 32 1) / 2 ^ 255 = 1) :=
  ⟨by decide, ⟨by decide +kernel, by decide +kernel⟩, by decide +kernel⟩

/-- The degenerate signature: both halves decode and `S < L`. -/
theorem witness_verification :
    (ptEnc idPoint ++ bytesLE 32 0).length = 64 ∧
    ptDec false ((ptEnc idPoint ++ bytesLE 32 0).take 32) = some idPoint ∧
    ptDec false (ptEnc idPoint) = some idPoint ∧
    leNat ((ptEnc idPoint ++ bytesLE 32 0).drop 32) < groupOrder :=
  ⟨by decide +kernel, by decide +kernel, by decide +kernel, by decide +kernel⟩

/-- The default mailbox: in range and disjoint. -/
theorem witness_mailbox :
    work.err = false ∧ work.params.wellFormed = true ∧
    work.skptr.toNat + 32 ≤ work.params.dmemSize ∧ work.pkptr.toNat + 32 ≤ work.params.dmemSize ∧
    work.sgptr.toNat + 64 ≤ work.params.dmemSize ∧
    rangesDisjoint work.skptr 32 work.pkptr 32 ∧ rangesDisjoint work.pkptr 32 work.sgptr 64 :=
  ⟨rfl, by decide, by decide, by decide, by decide, .inl (by decide), .inl (by decide)⟩

/-- One state for each way VERIFY answers 0: `S = L`, an undecodable `R`, an undecodable key. -/
theorem witness_rejections :
    groupOrder ≤ leNat (((work.dmemWrite 0x0060 (bytesLE 32 groupOrder)).dmemRead 0x0040 64).drop
      32) ∧
    ptDec false (((work.dmemWrite 0x0040 (bytesLE 32 2)).dmemRead 0x0040 64).take 32) = none ∧
    ptDec false ((work.dmemWrite 0x0020 (bytesLE 32 2)).dmemRead 0x0020 32) = none :=
  ⟨by decide +kernel, by decide +kernel, by decide +kernel⟩

/-- Two different states with the same key, public key and message. -/
theorem witness_determinism :
    work.dmemRead work.skptr 32 = (work.setF 3 (feOf 1)).dmemRead (work.setF 3 (feOf 1)).skptr 32 ∧
    work.dmemRead work.pkptr 32 = (work.setF 3 (feOf 1)).dmemRead (work.setF 3 (feOf 1)).pkptr 32 ∧
    work.message = (work.setF 3 (feOf 1)).message ∧
    (∃ t : State, exec .sign (work.setF 3 (feOf 1)) = .next t ∧ t.err = false) ∧
    ∃ t : State, exec .derive (work.setF 3 (feOf 1)) = .next t ∧ t.err = false :=
  ⟨rfl, rfl, rfl, ⟨_, rfl, rfl⟩, ⟨_, rfl, rfl⟩⟩

/-- The scratch ranges of program P3. -/
theorem witness_sequences :
    work.err = false ∧ work.params.wellFormed = true ∧
    (0x0140 : Addr).toNat + 64 ≤ work.params.dmemSize ∧
    (0x0100 : Addr).toNat + 32 ≤ work.params.dmemSize ∧
    (0x0180 : Addr).toNat + 64 ≤ work.params.dmemSize ∧
    (0x0200 : Addr).toNat + 64 ≤ work.params.dmemSize ∧
    rangesDisjoint 0x0140 64 work.pkptr 32 ∧ rangesDisjoint 0x0100 32 work.pkptr 32 ∧
    rangesDisjoint 0x0200 64 work.pkptr 32 ∧ rangesDisjoint 0x0180 64 0x0200 64 :=
  ⟨rfl, by decide, by decide, by decide, by decide, by decide, .inr (by decide), .inr (by decide),
    .inr (by decide), .inl (by decide)⟩

end Sys2Proof.Tests
end

section
/-!
The little-endian integers of 00_scope R12: `leNat` as a sum over the bytes and bit by bit, and the
obligation O19.
-/

namespace Sys2Proof.Machine

/-- `LE(b)` is the sum of its bytes, each weighted by its power of 256. -/
theorem leNat_eq_sum (bs : List Byte) :
    leNat bs = ∑ i : Fin bs.length, bs[i].toNat * 256 ^ i.val := by
  induction bs with
  | nil => rfl
  | cons b bs ih =>
    have shift : ∀ i : Fin bs.length,
        bs[i].toNat * 256 ^ (i.val + 1) = 256 * (bs[i].toNat * 256 ^ i.val) := fun i => by ring
    calc leNat (b :: bs)
        = b.toNat + ∑ i : Fin bs.length, bs[i].toNat * 256 ^ (i.val + 1) := by
          rw [leNat, ih, Finset.mul_sum, Finset.sum_congr rfl fun i _ => shift i]
      _ = ∑ i : Fin (b :: bs).length, (b :: bs)[i].toNat * 256 ^ i.val := by
          simp [Fin.sum_univ_succ]

/-- The low eight bits of `LE(b :: bs)` are those of `b`, the others those of `LE(bs)`. -/
theorem testBit_leNat_cons (b : Byte) (bs : List Byte) (j : Nat) :
    (leNat (b :: bs)).testBit j = if j < 8 then b.getLsbD j else (leNat bs).testBit (j - 8) := by
  rw [leNat, Nat.add_comm, Nat.testBit_two_pow_mul_add (i := 8) (leNat bs) b.isLt j]
  rfl

/-- Bit `j` of `LE(b)` is bit `j mod 8` of byte `j div 8`. -/
theorem testBit_leNat (bs : List Byte) (j : Nat) (h : j / 8 < bs.length) :
    (leNat bs).testBit j = bs[j / 8].getLsbD (j % 8) := by
  induction bs generalizing j with
  | nil => simp at h
  | cons b bs ih =>
    rw [testBit_leNat_cons]
    split
    next low => simp [Nat.div_eq_of_lt low, Nat.mod_eq_of_lt low]
    next high =>
      have hdiv : j / 8 = (j - 8) / 8 + 1 := by omega
      have hmod : (j - 8) % 8 = j % 8 := by omega
      have hlen : (j - 8) / 8 < bs.length := by rw [List.length_cons] at h; omega
      rw [ih (j - 8) hlen, hmod]
      simp only [hdiv, List.getElem_cons_succ]

/-- Settles O19: the sum and the bit rule by induction on the bytes, the round trips by the model's
own laws of `bytesLE`. -/
theorem littleEndianBytesAndIntegers : Obligations.LittleEndianBytesAndIntegers :=
  ⟨leNat_eq_sum, fun n v hv => ⟨bytesLE_length n v, leNat_bytesLE hv⟩, bytesLE_leNat, testBit_leNat⟩

end Sys2Proof.Machine
end

section
/-!
What a command reads and writes of the flags and of `STATUS.ERR` (10_state R25, 30_encoding R78), from
one fact about all commands: laying other flags over the state before a command only lays other flags
over the state after it.
-/

namespace Sys2Proof.Machine

/-- The state with other flags and another `STATUS.ERR`. -/
def State.overlay (s : State) (g : Flags) (e : Bool) : State := { s with flags := g, err := e }

/-! ### Reads do not see the overlay, writes commute with it -/

section Overlay

variable (s : State) (g : Flags) (e : Bool)

theorem State.overlay_self : s.overlay s.flags s.err = s := rfl

@[simp] theorem State.overlay_fieldAt (r : FReg) : (s.overlay g e).fieldAt r = s.fieldAt r := rfl
@[simp] theorem State.overlay_scalarAt (r : SReg) : (s.overlay g e).scalarAt r = s.scalarAt r := rfl
@[simp] theorem State.overlay_pointAt (r : PReg) : (s.overlay g e).pointAt r = s.pointAt r := rfl
@[simp] theorem State.overlay_present (l : List Source) :
    (s.overlay g e).present l = s.present l := rfl
@[simp] theorem State.overlay_inDmem (a : Addr) (n : Nat) :
    (s.overlay g e).inDmem a n = s.inDmem a n := rfl
@[simp] theorem State.overlay_dmemRead (a : Addr) (n : Nat) :
    (s.overlay g e).dmemRead a n = s.dmemRead a n := rfl
@[simp] theorem State.overlay_message : (s.overlay g e).message = s.message := rfl
@[simp] theorem State.overlay_hbuf : (s.overlay g e).hbuf = s.hbuf := rfl
@[simp] theorem State.overlay_skptr : (s.overlay g e).skptr = s.skptr := rfl
@[simp] theorem State.overlay_pkptr : (s.overlay g e).pkptr = s.pkptr := rfl
@[simp] theorem State.overlay_sgptr : (s.overlay g e).sgptr = s.sgptr := rfl
@[simp] theorem State.overlay_params : (s.overlay g e).params = s.params := rfl

@[simp] theorem State.overlay_setF (r : FReg) (v : Fe) :
    (s.overlay g e).setF r v = (s.setF r v).overlay g e := rfl
@[simp] theorem State.overlay_setS (r : SReg) (v : BitVec 256) :
    (s.overlay g e).setS r v = (s.setS r v).overlay g e := rfl
@[simp] theorem State.overlay_setP (r : PReg) (v : PointCell) :
    (s.overlay g e).setP r v = (s.setP r v).overlay g e := rfl
@[simp] theorem State.overlay_setHbuf (b : List Byte) :
    (s.overlay g e).setHbuf b = (s.setHbuf b).overlay g e := rfl
@[simp] theorem State.overlay_dmemWrite (a : Addr) (b : List Byte) :
    (s.overlay g e).dmemWrite a b = (s.dmemWrite a b).overlay g e := rfl
@[simp] theorem State.overlay_setV (b : Bool) :
    (s.overlay g e).setV b = (s.setV b).overlay { g with v := b } e := rfl
@[simp] theorem State.overlay_setPV (b : Bool) :
    (s.overlay g e).setPV b = (s.setPV b).overlay { g with pv := b } e := rfl
@[simp] theorem State.overlay_setSC (b : Bool) :
    (s.overlay g e).setSC b = (s.setSC b).overlay { g with sc := b } e := rfl
@[simp] theorem State.overlay_clearWorking :
    (s.overlay g e).clearWorking = s.clearWorking.overlay s.clearWorking.flags e := rfl

end Overlay

/-! ### The body of a command -/

/-- The flags after command `i` completes from the flags `old`, where `new` holds what it writes:
VERIFY writes V, PDEC writes PV, SCHK writes SC, CLR writes all three, no other command any. -/
def flagsAfter (i : Instr) (old new : Flags) : Flags :=
  match i with
  | .clr => new
  | .verify => { old with v := new.v }
  | .pdec _ _ => { old with pv := new.pv }
  | .schk _ => { old with sc := new.sc }
  | _ => old

theorem flagsAfter_v {i : Instr} (hv : i ≠ .verify) (hc : i ≠ .clr) (old new : Flags) :
    (flagsAfter i old new).v = old.v := by
  cases i <;> simp_all [flagsAfter]

theorem flagsAfter_pv {i : Instr} (hp : ∀ (pd : PReg) (addr : Addr), i ≠ .pdec pd addr)
    (hc : i ≠ .clr) (old new : Flags) : (flagsAfter i old new).pv = old.pv := by
  cases i <;> simp_all [flagsAfter]

theorem flagsAfter_sc {i : Instr} (hs : ∀ r : SReg, i ≠ .schk r) (hc : i ≠ .clr)
    (old new : Flags) : (flagsAfter i old new).sc = old.sc := by
  cases i <;> simp_all [flagsAfter]

/-- `body` is what `i` does between the test of `STATUS.ERR` and fault entry (30_encoding R78). -/
structure IsBody (i : Instr) (body : State → Except Cause State) : Prop where
  exec_eq (s : State) : exec i s = s.command i (body s)
  cause_ne_none (s : State) : body s ≠ .error .none
  overlay (s : State) (g : Flags) (e : Bool) :
    body (s.overlay g e) = (fun t => t.overlay (flagsAfter i g t.flags) e) <$> body s

/-- Every command has a body: for each one, the body its meaning names. -/
theorem exists_isBody (i : Instr) : ∃ body, IsBody i body := by
  cases i
  all_goals
    apply Exists.intro
    constructor
    case exec_eq => intro s; unfold exec; rfl
    case cause_ne_none =>
      intro s
      simp [Except.bind_error_iff, State.fieldAt_eq_error, State.scalarAt_eq_error,
        State.pointAt_eq_error, State.present_eq_error, State.inDmem_eq_error]
    case overlay => intro s g e; simp [flagsAfter]

/-- A body that completes writes the flags `flagsAfter` names and leaves `STATUS.ERR`. -/
theorem IsBody.flags_err_of_ok {i : Instr} {body : State → Except Cause State}
    (hbody : IsBody i body) {s t : State} (ht : body s = .ok t) :
    t.flags = flagsAfter i s.flags t.flags ∧ t.err = s.err := by
  have same := hbody.overlay s s.flags s.err
  rw [State.overlay_self, ht] at same
  have same : t = t.overlay (flagsAfter i s.flags t.flags) s.err := Except.ok.inj same
  exact ⟨(congrArg State.flags same :), (congrArg State.err same :)⟩

/-- Everything a command can do to the flags and to `STATUS.ERR`: it is dropped, it faults, or it
completes outside the error state. -/
theorem exec_cases {i : Instr} {s t : State} (h : exec i s = .next t) :
    Dropped s t ∨ Faulted i s t ∨
      (s.err = false ∧ t.err = false ∧ t.flags = flagsAfter i s.flags t.flags) := by
  obtain ⟨body, hbody⟩ := exists_isBody i
  rw [hbody.exec_eq] at h
  obtain hd | hf | ⟨he, ht⟩ := command_inversion h (hbody.cause_ne_none s)
  · exact .inl hd
  · exact .inr (.inl hf)
  · obtain ⟨hflags, herr⟩ := hbody.flags_err_of_ok ht
    exact .inr (.inr ⟨he, herr.trans he, hflags⟩)

/-- A command does the same from other flags, up to the flags. -/
theorem exec_overlay_flags {i : Instr} {s t : State} (g : Flags) (h : exec i s = .next t) :
    ∃ t' : State, exec i (s.overlay g s.err) = .next t' ∧ { t' with flags := t.flags } = t := by
  obtain ⟨body, hbody⟩ := exists_isBody i
  rw [hbody.exec_eq] at h ⊢
  rw [hbody.overlay]
  obtain ⟨he, rfl⟩ | ⟨he, ht⟩ | ⟨he, c, hc, rfl⟩ := State.command_cases h
  · exact ⟨_, State.command_dropped _ _ _ he, rfl⟩
  · obtain ⟨-, herr⟩ := hbody.flags_err_of_ok ht
    exact ⟨_, State.command_completes _ _ he (by rw [ht]; rfl), by rw [← herr]; rfl⟩
  · exact ⟨_, State.command_faults _ _ he (by rw [hc]; rfl), rfl⟩

/-- In the error state every command is dropped (60_exceptions R219). -/
theorem exec_of_err {s : State} (he : s.err = true) (i : Instr) : exec i s = .next s := by
  obtain ⟨body, hbody⟩ := exists_isBody i
  rw [hbody.exec_eq, State.command_dropped _ _ _ he]

/-! ### The flags (O23) -/

/-- A command after which the error state holds has written no flag. -/
theorem exec_flags_of_faulted {i : Instr} {s t : State} (h : exec i s = .next t)
    (ht : t.err = true) : t.flags = s.flags := by
  obtain ⟨-, rfl⟩ | ⟨-, c, -, rfl⟩ | ⟨-, herr, -⟩ := exec_cases h
  · rfl
  · rfl
  · simp [ht] at herr

/-- A command leaves the flags or writes those `flagsAfter` names. -/
theorem exec_flags {i : Instr} {s t : State} (h : exec i s = .next t) :
    t.flags = s.flags ∨ t.flags = flagsAfter i s.flags t.flags := by
  obtain ⟨-, rfl⟩ | ⟨-, c, -, rfl⟩ | ⟨-, -, hflags⟩ := exec_cases h
  · exact .inl rfl
  · exact .inl rfl
  · exact .inr hflags

/-- Only VERIFY and CLR write V. -/
theorem exec_flags_v {i : Instr} {s t : State} (h : exec i s = .next t) (hv : i ≠ .verify)
    (hc : i ≠ .clr) : t.flags.v = s.flags.v := by
  obtain same | after := exec_flags h
  · rw [same]
  · rw [after, flagsAfter_v hv hc]

/-- Only PDEC and CLR write PV. -/
theorem exec_flags_pv {i : Instr} {s t : State} (h : exec i s = .next t)
    (hp : ∀ (pd : PReg) (addr : Addr), i ≠ .pdec pd addr) (hc : i ≠ .clr) :
    t.flags.pv = s.flags.pv := by
  obtain same | after := exec_flags h
  · rw [same]
  · rw [after, flagsAfter_pv hp hc]

/-- Only SCHK and CLR write SC. -/
theorem exec_flags_sc {i : Instr} {s t : State} (h : exec i s = .next t)
    (hs : ∀ r : SReg, i ≠ .schk r) (hc : i ≠ .clr) : t.flags.sc = s.flags.sc := by
  obtain same | after := exec_flags h
  · rw [same]
  · rw [after, flagsAfter_sc hs hc]

/-- CLR outside the error state (45_system R201). -/
theorem execClr_of_not_err {s : State} (he : s.err = false) :
    exec .clr s = .next s.clearWorking :=
  State.command_completes s .clr he rfl

/-- SCHK on a VALID scalar completes (41_scalar R129). -/
theorem execSchk_of_valid {r : SReg} {a : BitVec 256} {s : State} (he : s.err = false)
    (ha : s.s.get r.toFin = .valid a) :
    exec (.schk r) s = .next (s.setSC (scalarCanonical a)) :=
  State.command_completes s (.schk r) he (by rw [(s.scalarAt_eq_ok r a).2 ha]; rfl)

/-- V after a VERIFY that completes (44_pipeline R187). -/
theorem execVerify_v {s t : State} (he : s.err = false) (h : exec .verify s = .next t)
    (ht : t.err = false) :
    t.flags.v = verifySig Config.hash512 s.params.x0Sign1Reject (s.dmemRead s.sgptr 64)
      (s.dmemRead s.pkptr 32) s.message := by
  obtain ⟨err, -⟩ | ⟨-, c, -, rfl⟩ | ⟨b, -, hb, -, -, rfl⟩ := execVerify_cases h
  · simp [he] at err
  · simp at ht
  · rw [State.setV_flags, hb]

/-- PV after a PDEC that completes (42_point R159). -/
theorem execPdec_pv {pd : PReg} {addr : Addr} {s t : State} (he : s.err = false)
    (h : exec (.pdec pd addr) s = .next t) (ht : t.err = false) :
    t.flags.pv = (ptDec s.params.x0Sign1Reject (s.dmemRead addr 32)).isSome := by
  obtain ⟨err, -⟩ | ⟨-, c, -, rfl⟩ | ⟨r, -, hr, -, rfl⟩ := execPdec_cases h
  · simp [he] at err
  · simp at ht
  · rw [State.setPV_flags, hr]

/-- `FLAGS` as a number (45_system R202). -/
theorem Flags.toNat_word (g : Flags) :
    g.word.toNat = g.v.toNat + 2 * g.pv.toNat + 4 * g.sc.toNat := by
  obtain ⟨v, pv, sc⟩ := g
  revert v pv sc
  decide

/-- Settles O23: the writers by `flagsAfter`, the values by each writer's own law, and that no
command reads a flag by `exec_overlay_flags`. -/
theorem eachFlagHasOneWriter : Obligations.EachFlagHasOneWriter := by
  refine ⟨fun i s t h =>
      ⟨exec_flags_v h, exec_flags_pv h, exec_flags_sc h, fun _ => exec_flags_of_faulted h⟩,
    fun i s t g h => exec_overlay_flags g h, rfl, ?clr, fun s t => execVerify_v,
    fun pd addr s t => execPdec_pv, ?schk, fun s => s.flags.toNat_word⟩
  case clr =>
    intro s t he h
    rw [execClr_of_not_err he] at h
    injection h with ht
    rw [← ht, State.clearWorking_flags]
  case schk =>
    intro r a s t he ha h
    rw [execSchk_of_valid he ha] at h
    injection h with ht
    rw [← ht, State.setSC_flags]
    rfl

end Sys2Proof.Machine
end

section
/-! Leaving the error state (10_state R32, 60_exceptions R220). -/

namespace Sys2Proof.Machine

/-- Everything a host action can do: a read, a command, another CSR write, a byte written to a memory,
or the reset. -/
theorem perform_cases {a : HostAction} {s t : State} (h : perform a s = .next t) :
    (∃ v : Word, t = s.receive v) ∨
    (∃ (w : Word) (u : State), a = .csrWrite 0x00 w ∧ execWord w s = .next u ∧ t = u.advance) ∨
    (∃ (off : Nat) (v : Word), a = .csrWrite off v ∧ off ≠ 0x00 ∧ t = s.csrWrite off v) ∨
    (∃ m : Memory, t = { s with dmem := m }) ∨ (∃ m : Memory, t = { s with msg := m }) ∨
    (a = .reset ∧ t = s.externalReset) := by
  unfold perform at h
  split at h
  next =>
    cases a with
    | csrRead off => injection h with h; exact .inl ⟨_, h.symm⟩
    | dmemRead addr => injection h with h; exact .inl ⟨_, h.symm⟩
    | msgRead addr => injection h with h; exact .inl ⟨_, h.symm⟩
    | csrWrite off v =>
      dsimp only at h
      split at h
      next hoff =>
        obtain ⟨u, hu, rfl⟩ := advancePc_eq_next.1 h
        exact .inr (.inl ⟨v, u, by rw [hoff]; rfl, hu, rfl⟩)
      next hoff => injection h with h; exact .inr (.inr (.inl ⟨off, v, rfl, hoff, h.symm⟩))
    | dmemWrite addr b => injection h with h; exact .inr (.inr (.inr (.inl ⟨_, h.symm⟩)))
    | msgWrite addr b => injection h with h; exact .inr (.inr (.inr (.inr (.inl ⟨_, h.symm⟩))))
    | reset => injection h with h; exact .inr (.inr (.inr (.inr (.inr ⟨rfl, h.symm⟩))))
  next => cases h

/-- A write to `CTRL` (10_state R32). -/
theorem State.csrWrite_ctrl (s : State) (v : Word) :
    s.csrWrite 0x14 v = if v.getLsbD 0 then s.clearFault else s := rfl

/-- No CSR write but `CTRL` with bit 0 set changes `STATUS.ERR`. -/
theorem State.csrWrite_err (s : State) (off : Nat) (v : Word) :
    (s.csrWrite off v).err = s.err ∨ off = 0x14 ∧ v.getLsbD 0 = true := by
  unfold State.csrWrite
  split
  next =>
    split
    next hv => exact .inr ⟨rfl, hv⟩
    next => exact .inl rfl
  all_goals exact .inl rfl

/-- In the error state every word is dropped (60_exceptions R219). -/
theorem execWord_of_err {s : State} (he : s.err = true) (w : Word) : execWord w s = .next s := by
  unfold execWord
  split
  next i _ => exact exec_of_err he i
  next => simp [State.illegal, he]

/-- A word that enters the error state does so by fault entry, and by nothing else (60_exceptions
R216). -/
theorem execWord_faulted {w : Word} {s t : State} (he : s.err = false)
    (h : execWord w s = .next t) (ht : t.err = true) :
    ∃ (c : Cause) (w' : Word), t = s.raise c w' := by
  unfold execWord at h
  split at h
  next i _ =>
    obtain ⟨err, -⟩ | ⟨-, c, -, hc⟩ | ⟨-, err, -⟩ := exec_cases h
    · simp [he] at err
    · exact ⟨c, _, hc⟩
    · simp [ht] at err
  next =>
    simp only [State.illegal, he] at h
    injection h with h
    exact ⟨_, _, h.symm⟩

/-- Clearing the record after fault entry gives back a state whose record was clear. -/
theorem State.clearFault_raise {s : State} (he : s.err = false) (hc : s.cause = .none)
    (hw : s.errcmd = 0) (c : Cause) (w : Word) : (s.raise c w).clearFault = s := by
  calc (s.raise c w).clearFault
      = { s with err := false, cause := .none, errcmd := 0 } := rfl
    _ = s := by rw [← he, ← hc, ← hw]

/-- A host action that leaves the error state is a `CTRL` write with bit 0 set, or the reset. -/
theorem perform_leaves_err {a : HostAction} {s t : State} (he : s.err = true)
    (h : perform a s = .next t) (ht : t.err = false) :
    (∃ v : Word, a = .csrWrite 0x14 v ∧ v.getLsbD 0 = true) ∨ a = .reset := by
  obtain ⟨v, rfl⟩ | ⟨w, u, -, hu, rfl⟩ | ⟨off, v, rfl, -, rfl⟩ | ⟨m, rfl⟩ | ⟨m, rfl⟩ | ⟨ha, -⟩ :=
    perform_cases h
  · simp [he] at ht
  · rw [execWord_of_err he] at hu
    injection hu with hu
    simp [← hu, he] at ht
  · obtain same | ⟨hoff, hv⟩ := s.csrWrite_err off v
    · simp [same, he] at ht
    · exact .inl ⟨v, by rw [hoff], hv⟩
  · simp [he] at ht
  · simp [he] at ht
  · exact .inr ha

/-- Settles O13: the clear by `csrWrite_ctrl`, fault and clear by `execWord_faulted`, and the converse
by the cases of a host action. -/
theorem onlyClearAndResetLeaveTheErrorState :
    Obligations.OnlyClearAndResetLeaveTheErrorState := by
  refine ⟨fun s v hv => ?_, fun s v hv => ?_, ?_, ?_⟩
  · rw [State.csrWrite_ctrl, if_pos hv]
    rfl
  · rw [State.csrWrite_ctrl, hv]
    rfl
  · intro w v s t he hc hw h ht hv
    obtain ⟨c, w', rfl⟩ := execWord_faulted he h ht
    rw [State.csrWrite_ctrl, if_pos hv, State.clearFault_raise he hc hw]
  · intro s t he h ht
    have h : hostStep s = .next t := h
    cases htodo : s.todo with
    | nil =>
      rw [hostStep_idle htodo] at h
      injection h with h
      simp [← h, he] at ht
    | cons a rest =>
      rw [hostStep_cons htodo] at h
      obtain ⟨v, rfl, hv⟩ | rfl := perform_leaves_err (s := { s with todo := rest }) he h ht
      · exact .inl ⟨v, rest, rfl, hv⟩
      · exact .inr ⟨rest, rfl⟩

end Sys2Proof.Machine
end

section
/-! The reset table (10_state R37). -/

namespace Sys2Proof.Machine

/-- Settles O1: the register files hold EMPTY everywhere, the memories list no byte, and every other
row of the table is the reset state's own value. -/
theorem resetStateIsTheResetTable : Obligations.ResetStateIsTheResetTable :=
  ⟨State.reset.clearWorking_f_get, State.reset.clearWorking_s_get, State.reset.clearWorking_p_get,
    rfl, rfl, rfl, rfl, rfl, rfl, rfl, rfl, rfl,
    fun _ => ⟨rfl, rfl⟩, rfl⟩

end Sys2Proof.Machine
end

section
/-!
The memory operations `MemRead`, `MemWrite` and `MsgRead` (20_memory R53 to R55), and the state that no
command writes, MSG among it.
-/

namespace Sys2Proof.Machine

/-! ### Byte strings read from a memory -/

/-- The bytes of a string that is read come lowest address first. -/
theorem bytesFrom_getElem? (byteAt : Nat → Byte) (a : Nat) {n i : Nat} (h : i < n) :
    (bytesFrom byteAt a n)[i]? = some (byteAt (a + i)) := by
  rw [List.getElem?_eq_getElem (by rwa [bytesFrom_length]), bytesFrom_getElem]

/-- The range check, on the address and the length as numbers, which cannot wrap around (20_memory
R57). -/
theorem State.inDmem_eq_ite (s : State) (addr : Addr) (n : Nat) :
    s.inDmem addr n =
      if addr.toNat + n ≤ s.params.dmemSize then .ok () else .error .addressRange := by
  simp only [State.inDmem, State.rangeOk_iff]

/-- Settles O20: the check by `inDmem_eq_ite`, the read by the laws of `bytesFrom`, the write by the
model's own laws of the bytes inside and outside the written range. -/
theorem memReadAndMemWriteTouchExactlyTheirRange :
    Obligations.MemReadAndMemWriteTouchExactlyTheirRange :=
  ⟨State.inDmem_eq_ite,
    fun s addr n => ⟨s.dmemRead_length addr n, fun _ hi => bytesFrom_getElem? _ _ hi⟩,
    fun _ _ _ => rfl, State.dmemByte_dmemWrite_inside, State.dmemByte_dmemWrite_outside⟩

/-! ### What no command writes

The settings are what `sameSettings` lists: MSG, `MLEN`, the pointers, the parameters and the host's own
data. None of the writes that commands are made of reaches them. -/

section Writes

variable (s t : State)

@[simp] theorem sameSettings_refl : sameSettings s s := by simp [sameSettings]

@[simp] theorem sameSettings_setF (r : FReg) (v : Fe) :
    sameSettings s (t.setF r v) ↔ sameSettings s t := Iff.rfl
@[simp] theorem sameSettings_setS (r : SReg) (v : BitVec 256) :
    sameSettings s (t.setS r v) ↔ sameSettings s t := Iff.rfl
@[simp] theorem sameSettings_setP (r : PReg) (v : PointCell) :
    sameSettings s (t.setP r v) ↔ sameSettings s t := Iff.rfl
@[simp] theorem sameSettings_setHbuf (b : List Byte) :
    sameSettings s (t.setHbuf b) ↔ sameSettings s t := Iff.rfl
@[simp] theorem sameSettings_dmemWrite (a : Addr) (b : List Byte) :
    sameSettings s (t.dmemWrite a b) ↔ sameSettings s t := Iff.rfl
@[simp] theorem sameSettings_setV (b : Bool) :
    sameSettings s (t.setV b) ↔ sameSettings s t := Iff.rfl
@[simp] theorem sameSettings_setPV (b : Bool) :
    sameSettings s (t.setPV b) ↔ sameSettings s t := Iff.rfl
@[simp] theorem sameSettings_setSC (b : Bool) :
    sameSettings s (t.setSC b) ↔ sameSettings s t := Iff.rfl
@[simp] theorem sameSettings_clearWorking :
    sameSettings s t.clearWorking ↔ sameSettings s t := Iff.rfl
@[simp] theorem sameSettings_raise (c : Cause) (w : Word) :
    sameSettings s (t.raise c w) ↔ sameSettings s t := Iff.rfl

end Writes

/-- A body that completes leaves the settings. -/
def KeepsSettings (s : State) (body : Except Cause State) : Prop :=
  ∀ t : State, body = .ok t → sameSettings s t

theorem keepsSettings_pure {s t : State} (h : sameSettings s t) : KeepsSettings s (pure t) := by
  intro u hu
  rwa [← Except.ok.inj hu]

/-- A check, or the read of an operand, writes nothing: what counts is what comes after it. -/
theorem keepsSettings_bind {α : Type} {s : State} {check : Except Cause α}
    {rest : α → Except Cause State} (h : ∀ a, KeepsSettings s (rest a)) :
    KeepsSettings s (check >>= rest) := by
  intro t ht
  obtain ⟨a, -, ha⟩ := (Except.bind_ok_iff check rest t).1 ht
  exact h a t ha

/-- Every command is the frame of R78 around checks and a final write, and no final write reaches the
settings. -/
theorem exec_eq_command_keepsSettings (i : Instr) (s : State) :
    ∃ body, exec i s = s.command i body ∧ KeepsSettings s body := by
  cases i
  all_goals
    unfold exec
    refine ⟨_, rfl, ?_⟩
    repeat refine keepsSettings_bind fun _ => ?_
    exact keepsSettings_pure (by simp)

/-- No command writes the settings, whether it is dropped, completes or faults (10_state R24, R27, R28,
R34, R35). -/
theorem exec_sameSettings {i : Instr} {s t : State} (h : exec i s = .next t) :
    sameSettings s t := by
  obtain ⟨body, hexec, hkeeps⟩ := exec_eq_command_keepsSettings i s
  rw [hexec] at h
  obtain ⟨-, rfl⟩ | ⟨-, ht⟩ | ⟨-, c, -, rfl⟩ := State.command_cases h
  · exact sameSettings_refl _
  · exact hkeeps t ht
  · exact (sameSettings_raise s s c _).2 (sameSettings_refl s)

/-- No command writes MSG (20_memory R55). -/
theorem exec_msg {i : Instr} {s t : State} (h : exec i s = .next t) : t.msg = s.msg := by
  obtain ⟨-, -, -, -, hmsg, -⟩ := exec_sameSettings h
  exact hmsg

/-! ### The message (20_memory R55) -/

/-- Settles O22: the message by the laws of `bytesFrom`, the frame by `exec_msg`. -/
theorem msgReadGivesTheMessage : Obligations.MsgReadGivesTheMessage := by
  refine ⟨fun s => ⟨bytesFrom_length _ _ _, fun i hi => ?byte⟩, fun s hs => ?empty,
    fun _ _ _ => exec_msg⟩
  case byte => rw [State.message, bytesFrom_getElem? _ _ hi, Nat.zero_add]
  case empty =>
    rw [State.message, hs]
    rfl

end Sys2Proof.Machine
end

section
/-!
The opcode map read by opcode (30_encoding R77): a row's words are those with the row's opcode and no
must-be-zero bit set, and no two rows have one opcode. A word no row holds is illegal (R79).
-/

namespace Sys2Proof

open Laws Machine

/-! ### A row's words, by opcode and must-be-zero bits -/

/-- The opcode of a row: bits 31:24 of its match (R77). -/
def OpcodeRow.opcode (r : OpcodeRow) : BitVec 8 := r.pattern.extractLsb' 24 8

/-- The must-be-zero bits of a row: those of its mask below the opcode (R77). -/
def OpcodeRow.mustBeZero (r : OpcodeRow) : Word := 0#8 ++ r.mask.extractLsb' 0 24

theorem append_eq_append_iff {m n : Nat} {a c : BitVec m} {b d : BitVec n} :
    a ++ b = c ++ d ↔ a = c ∧ b = d := by
  constructor
  · intro h
    have left := congrArg (BitVec.extractLsb' n m) h
    have right := congrArg (BitVec.extractLsb' 0 n) h
    simp only [BitVec.extractLsb'_append_eq_left, BitVec.extractLsb'_append_eq_right] at left right
    exact ⟨left, right⟩
  · rintro ⟨rfl, rfl⟩
    rfl

/-- A mask that holds the whole opcode tests the opcode and the bits below it apart. -/
theorem and_mask_eq_iff (w : Word) (op : BitVec 8) (z : BitVec 24) :
    w &&& (0xFF#8 ++ z) = op ++ 0#24 ↔ w.extractLsb' 24 8 = op ∧ w &&& (0#8 ++ z) = 0 := by
  have halves : w = w.extractLsb' 24 8 ++ w.extractLsb' 0 24 :=
    (BitVec.extractLsb'_append_extractLsb' (w := 8) (len := 24)).symm
  have zero : (0 : Word) = 0#8 ++ 0#24 := rfl
  generalize w.extractLsb' 24 8 = hi at halves ⊢
  generalize w.extractLsb' 0 24 = lo at halves
  rw [halves, zero, BitVec.and_append, BitVec.and_append, append_eq_append_iff, append_eq_append_iff,
    op_and]
  simp

/-- Every row's mask holds the whole opcode, and its match has no bit below the opcode. -/
theorem opcodeMap_shape : ∀ r ∈ opcodeMap,
    r.mask = 0xFF#8 ++ r.mask.extractLsb' 0 24 ∧ r.pattern = r.opcode ++ 0#24 := by
  decide +kernel

theorem matchesWord_iff {r : OpcodeRow} (hr : r ∈ opcodeMap) (w : Word) :
    r.matchesWord w = true ↔
      w.extractLsb' 24 8 = r.opcode ∧ w &&& r.mustBeZero = 0 := by
  obtain ⟨hmask, hpattern⟩ := opcodeMap_shape r hr
  rw [OpcodeRow.matchesWord, beq_iff_eq, hmask, hpattern]
  exact and_mask_eq_iff w _ _

/-! ### One row per opcode -/

theorem opcodeMap_opcodes_nodup : (opcodeMap.map OpcodeRow.opcode).Nodup := by decide +kernel

theorem row_eq_of_opcode_eq {r q : OpcodeRow} (hr : r ∈ opcodeMap) (hq : q ∈ opcodeMap)
    (h : r.opcode = q.opcode) : r = q :=
  List.inj_on_of_nodup_map opcodeMap_opcodes_nodup hr hq h

/-! ### Decoding by opcode -/

/-- A word is illegal exactly when it matches no row (R79). -/
theorem decode_eq_none_iff (w : Word) :
    decode w = none ↔ ∀ r ∈ opcodeMap, ¬ r.matchesWord w = true := by
  rw [decode, Option.map_eq_none_iff, List.find?_eq_none]

theorem decode_eq_none_of_opcode_notMem {w : Word}
    (h : w.extractLsb' 24 8 ∉ opcodeMap.map OpcodeRow.opcode) : decode w = none := by
  rw [decode_eq_none_iff]
  intro r hr hm
  obtain ⟨hop, -⟩ := (matchesWord_iff hr w).1 hm
  exact h (List.mem_map.2 ⟨r, hr, hop.symm⟩)

/-- What the words with a row's opcode mean is the row's alone to say (R77). -/
theorem opcodeMeans_of_row {r : OpcodeRow} (hr : r ∈ opcodeMap) :
    opcodeMeans r.opcode r.mustBeZero r.build := by
  intro w hop
  split
  next hz => exact decode_of_row hr ((matchesWord_iff hr w).2 ⟨hop, hz⟩)
  next hz =>
    rw [decode_eq_none_iff]
    intro q hq hm
    obtain ⟨hopq, hzq⟩ := (matchesWord_iff hq w).1 hm
    obtain rfl := row_eq_of_opcode_eq hr hq (hop.symm.trans hopq)
    exact hz hzq

/-- A property of every member of a list, written out member by member before a last conjunct: the
shape of the opcode map as a statement. -/
theorem foldr_and_of_forall {α : Type} {p : α → Prop} {q : Prop} {l : List α}
    (h : ∀ a ∈ l, p a) (hq : q) : l.foldr (fun a rest => p a ∧ rest) q := by
  induction l with
  | nil => exact hq
  | cons a l ih =>
    exact ⟨h a List.mem_cons_self, ih fun b hb => h b (List.mem_cons_of_mem a hb)⟩

/-- Settles O7: the map's rows one by one, each by `opcodeMeans_of_row`, and last the opcodes of no
row. -/
theorem opcodeMapDecodesByOpcode : Obligations.OpcodeMapDecodesByOpcode := by
  have rows : ∀ r ∈ opcodeMap, opcodeMeans r.opcode r.mustBeZero r.build :=
    fun _ => opcodeMeans_of_row
  have noRow : ∀ w : Word, w.extractLsb' 24 8 ∉ opcodeMap.map OpcodeRow.opcode → decode w = none :=
    fun _ => decode_eq_none_of_opcode_notMem
  exact foldr_and_of_forall rows noRow

/-! ### Illegal words (R79, 60_exceptions R212) -/

/-- Outside the error state an illegal word is fault entry with `IllegalCommand`. -/
theorem execWord_of_decode_eq_none {w : Word} {s : State} (hw : decode w = none)
    (he : s.err = false) : execWord w s = .next (s.raise .illegalCommand w) := by
  rw [execWord, hw]
  simp [State.illegal, he]

/-- The opcodes R79 lists as having no row. -/
def unassigned (op : Nat) : Prop :=
  (0x02 ≤ op ∧ op ≤ 0x0F) ∨ (0x19 ≤ op ∧ op ≤ 0x1F) ∨ (0x28 ≤ op ∧ op ≤ 0x2F) ∨
    (0x38 ≤ op ∧ op ≤ 0x3F) ∨ (0x44 ≤ op ∧ op ≤ 0x4F) ∨ (0x54 ≤ op ∧ op ≤ 0xFF)

theorem not_unassigned_of_row :
    ∀ r ∈ opcodeMap, ¬ unassigned r.opcode.toNat := by
  unfold unassigned
  decide +kernel

/-- Settles O9: no row by `decode_eq_none_iff`, the effect by fault entry, the example words by
decoding them, and the listed opcodes because no row has one of them. -/
theorem illegalWordsRaiseIllegalCommand : Obligations.IllegalWordsRaiseIllegalCommand := by
  refine ⟨fun w => ?noRow, fun w s hw he => execWord_of_decode_eq_none hw he,
    rfl, rfl, rfl, rfl, rfl, rfl, rfl, rfl, ?unassigned⟩
  case noRow => simp only [decode_eq_none_iff, OpcodeRow.matchesWord, beq_iff_eq, ne_eq]
  case unassigned =>
    rintro w _ rfl hop
    apply decode_eq_none_of_opcode_notMem
    intro hmem
    obtain ⟨r, hr, hrop⟩ := List.mem_map.1 hmem
    exact not_unassigned_of_row r hr (hrop ▸ hop)

end Sys2Proof
end

section
/-!
The field functions as numbers (40_field R100, R101), the field laws (R113) and field elements as bytes
(R102, R103): the values are read off the model's own residues, the laws are those of `ZMod P`, carried
over by `toZ`.
-/

namespace Sys2Proof.Laws

open Sys2Proof.Machine

/-! ### Values (R101) -/

/-- The element of the field that a natural number stands for in `ZMod P` is its residue. -/
theorem val_eq_mod_of_toZ_eq_natCast {a : Fe} {n : Nat} (h : toZ a = (n : ZMod P)) :
    a.val = n % P := by
  rw [← toZ_feOf, toZ_inj] at h
  rw [h, feOf_val]

/-- `P - b` stands for `-b`: one `P` more, which the residue does not see. -/
theorem fSub_val (a b : Fe) :
    ((fSub a b).val : Int) = ((a.val : Int) - (b.val : Int)) % (P : Int) := by
  calc ((fSub a b).val : Int)
      = ((a.val : Int) + ((P : Int) - (b.val : Int))) % (P : Int) := by
        rw [fSub, feOf_val, Int.natCast_emod, Nat.cast_add, Nat.cast_sub b.isLt.le]
    _ = ((a.val : Int) - (b.val : Int) + (P : Int)) % (P : Int) := by
        congr 1
        ring
    _ = ((a.val : Int) - (b.val : Int)) % (P : Int) := Int.add_emod_right ..

theorem fPow_val (a : Fe) {e : Nat} (he : e < 2 ^ 256) : (fPow a e).val = a.val ^ e % P :=
  val_eq_mod_of_toZ_eq_natCast (by rw [toZ_fPow a he, Nat.cast_pow, toZ])

theorem fInv_val (a : Fe) : (fInv a).val = a.val ^ (P - 2) % P := fPow_val a (by decide)

/-! ### The laws (R113) -/

theorem fAdd_comm (a b : Fe) : fAdd a b = fAdd b a := by
  rw [← toZ_inj, toZ_fAdd, toZ_fAdd, add_comm]

theorem fMul_comm (a b : Fe) : fMul a b = fMul b a := by
  rw [← toZ_inj, toZ_fMul, toZ_fMul, mul_comm]

theorem fAdd_assoc (a b c : Fe) : fAdd (fAdd a b) c = fAdd a (fAdd b c) := by
  simp only [← toZ_inj, toZ_fAdd, add_assoc]

theorem fMul_assoc (a b c : Fe) : fMul (fMul a b) c = fMul a (fMul b c) := by
  simp only [← toZ_inj, toZ_fMul, mul_assoc]

theorem fMul_fAdd (a b c : Fe) : fMul a (fAdd b c) = fAdd (fMul a b) (fMul a c) := by
  simp only [← toZ_inj, toZ_fMul, toZ_fAdd, mul_add]

theorem fAdd_zero (a : Fe) : fAdd a (feOf 0) = a := by
  rw [← toZ_inj, toZ_fAdd, toZ_feOf, Nat.cast_zero, add_zero]

theorem fMul_one (a : Fe) : fMul a (feOf 1) = a := by
  rw [← toZ_inj, toZ_fMul, toZ_feOf, Nat.cast_one, mul_one]

theorem fMul_zero (a : Fe) : fMul a (feOf 0) = feOf 0 := by
  rw [← toZ_inj, toZ_fMul, toZ_feOf, Nat.cast_zero, mul_zero]

theorem fSub_eq_fAdd_neg (a b : Fe) : fSub a b = fAdd a (fSub (feOf 0) b) := by
  rw [← toZ_inj, toZ_fAdd, toZ_fSub, toZ_fSub, toZ_feOf, Nat.cast_zero, zero_sub, sub_eq_add_neg]

theorem fAdd_neg (a : Fe) : fAdd a (fSub (feOf 0) a) = feOf 0 := by
  rw [← fSub_eq_fAdd_neg, ← toZ_inj, toZ_fSub, toZ_feOf, Nat.cast_zero, sub_self]

theorem fSub_fAdd_cancel (a b : Fe) : fSub (fAdd a b) b = a := by
  rw [← toZ_inj, toZ_fSub, toZ_fAdd, add_sub_cancel_right]

theorem feOf_zero_ne_one : feOf 0 ≠ feOf 1 := by decide

/-! ### Inversion (R101, R113) -/

theorem fInv_zero : fInv (feOf 0) = feOf 0 := by
  have := fact_prime_P
  rw [← toZ_inj, toZ_fInv, toZ_feOf, Nat.cast_zero, inv_zero]

theorem fInv_fInv (a : Fe) : fInv (fInv a) = a := by
  have := fact_prime_P
  rw [← toZ_inj, toZ_fInv, toZ_fInv, inv_inv]

theorem fMul_fInv {a : Fe} (h : a ≠ feOf 0) : fMul a (fInv a) = feOf 1 := by
  have := fact_prime_P
  rw [← toZ_inj, toZ_fMul, toZ_fInv, toZ_feOf, Nat.cast_one]
  exact mul_inv_cancel₀ (mt toZ_eq_zero.1 h)

/-- Only zero has no inverse. -/
theorem fInv_fMul_eq_one_iff (a : Fe) : fMul (fInv a) a = feOf 1 ↔ a ≠ feOf 0 := by
  constructor
  · rintro h rfl
    exact feOf_zero_ne_one ((fMul_zero _).symm.trans h)
  · exact fun h => (fMul_comm _ _).trans (fMul_fInv h)

/-- Settles O42: the values by the residues, the laws by those of `ZMod P`, one lemma each. -/
theorem fieldFunctionsAreArithmeticModuloP : Obligations.FieldFunctionsAreArithmeticModuloP :=
  ⟨by norm_num [P], fun a => a.isLt, fun _ _ => feOf_val _, fSub_val, fun _ _ => feOf_val _,
    fInv_val, fInv_zero, fun _ => fMul_fInv, fun a b => ⟨fAdd_comm a b, fMul_comm a b⟩,
    fun a b c => ⟨fAdd_assoc a b c, fMul_assoc a b c, fMul_fAdd a b c⟩,
    fun a => ⟨fAdd_zero a, fMul_one a, fAdd_neg a⟩, fSub_eq_fAdd_neg, fInv_fMul_eq_one_iff,
    feOf_zero_ne_one⟩

/-! ### Field elements as 32 bytes (R102, R103) -/

/-- Bit 7 of the last byte of 32 is bit 255 of their integer, so it is clear below `2^255`. -/
theorem lastByte_topBit_of_lt {b : List Byte} (hlen : b.length = 32) (hb : leNat b < 2 ^ 255) :
    (b[31]?.getD 0).getLsbD 7 = false := by
  have h31 : 31 < b.length := by omega
  rw [List.getElem?_eq_getElem h31, Option.getD_some, ← Nat.testBit_lt_two_pow hb]
  exact (testBit_leNat b 255 h31).symm

theorem val_lt_two_pow (v : Fe) : v.val < 2 ^ 255 := lt_trans v.isLt (by norm_num [P])

theorem fEnc_topBit (v : Fe) : ((fEnc v)[31]?.getD 0).getLsbD 7 = false :=
  lastByte_topBit_of_lt (fEnc_length v) ((leNat_fEnc v).trans_lt (val_lt_two_pow v))

theorem fDec_fEnc (v : Fe) : fDec (fEnc v) = v := by rw [fDec, leNat_fEnc, feOf_self]

/-- Decoding loses nothing exactly of the canonical strings. -/
theorem fEnc_fDec_iff {b : List Byte} (hlen : b.length = 32) :
    fEnc (fDec b) = b ↔ leNat b < P := by
  constructor
  · intro h
    rw [← h, leNat_fEnc]
    exact (fDec b).isLt
  · intro h
    calc fEnc (fDec b) = bytesLE 32 (leNat b % P) := rfl
      _ = bytesLE b.length (leNat b) := by rw [Nat.mod_eq_of_lt h, hlen]
      _ = b := bytesLE_leNat b

/-- Settles O43: the round trips by those of `leNat` and `bytesLE`, the top bit by the bit rule of
`leNat`. -/
theorem fieldBytesDecodeAndEncode : Obligations.FieldBytesDecodeAndEncode :=
  ⟨fun _ _ => feOf_val _,
    fun v => ⟨fEnc_length v, leNat_fEnc v, fEnc_topBit v, fDec_fEnc v⟩,
    fun _ => fEnc_fDec_iff⟩

end Sys2Proof.Laws
end

section
/-!
The field commands (40_field R104 to R112). The commands that compute share two bodies, of one and of
two sources; each command is `State.command` of its body, so its meaning is read off the body's answer.
-/

namespace Sys2Proof.Machine

open Laws

/-! ### Operands -/

theorem State.fieldAt_of_empty {s : State} {r : FReg} (h : s.f.get r.toFin = .empty) :
    s.fieldAt r = .error .emptyRegister := (s.fieldAt_eq_error r _).2 ⟨h, rfl⟩

theorem State.fieldAt_of_valid {s : State} {r : FReg} {a : Fe} (h : s.f.get r.toFin = .valid a) :
    s.fieldAt r = .ok a := (s.fieldAt_eq_ok r a).2 h

theorem State.inDmem_of_le {s : State} {addr : Addr} {n : Nat}
    (h : addr.toNat + n ≤ s.params.dmemSize) : s.inDmem addr n = .ok () := by
  rw [State.inDmem_eq_ite, if_pos h]

theorem State.inDmem_of_lt {s : State} {addr : Addr} {n : Nat}
    (h : s.params.dmemSize < addr.toNat + n) : s.inDmem addr n = .error .addressRange := by
  rw [State.inDmem_eq_ite, if_neg (Nat.not_le.2 h)]

/-- Writing to a register the value it holds changes nothing. -/
theorem State.setF_of_valid {s : State} {r : FReg} {a : Fe} (h : s.f.get r.toFin = .valid a) :
    s.setF r a = s := by
  rw [State.setF, ← h, get_eq_getElem16, Vector.set_getElem_self]

/-! ### A command by its body -/

theorem exec_of_body {i : Instr} {s t : State} {body : Except Cause State}
    (hexec : exec i s = s.command i body) (he : s.err = false) (hbody : body = .ok t) :
    exec i s = .next t := hexec.trans (s.command_completes i he hbody)

theorem faultsWith_of_body {i : Instr} {s : State} {c : Cause} {body : Except Cause State}
    (hexec : exec i s = s.command i body) (he : s.err = false) (hbody : body = .error c) :
    faultsWith i s c := hexec.trans (s.command_faults i he hbody)

/-! ### Bodies of one and of two sources -/

/-- The body of FADD, FSUB and FMUL, for their operation. -/
def State.fieldBinary (s : State) (op : Fe → Fe → Fe) (fd fs1 fs2 : FReg) : Except Cause State := do
  let a ← s.fieldAt fs1
  let b ← s.fieldAt fs2
  return s.setF fd (op a b)

/-- The body of FSQR, FINV and FMOV, for their operation. -/
def State.fieldUnary (s : State) (op : Fe → Fe) (fd fs1 : FReg) : Except Cause State := do
  let a ← s.fieldAt fs1
  return s.setF fd (op a)

theorem exec_fadd (fd fs1 fs2 : FReg) (s : State) :
    exec (.fadd fd fs1 fs2) s = s.command (.fadd fd fs1 fs2) (s.fieldBinary fAdd fd fs1 fs2) := rfl
theorem exec_fsub (fd fs1 fs2 : FReg) (s : State) :
    exec (.fsub fd fs1 fs2) s = s.command (.fsub fd fs1 fs2) (s.fieldBinary fSub fd fs1 fs2) := rfl
theorem exec_fmul (fd fs1 fs2 : FReg) (s : State) :
    exec (.fmul fd fs1 fs2) s = s.command (.fmul fd fs1 fs2) (s.fieldBinary fMul fd fs1 fs2) := rfl
theorem exec_fsqr (fd fs1 : FReg) (s : State) :
    exec (.fsqr fd fs1) s = s.command (.fsqr fd fs1) (s.fieldUnary (fun a => fMul a a) fd fs1) := rfl
theorem exec_finv (fd fs1 : FReg) (s : State) :
    exec (.finv fd fs1) s = s.command (.finv fd fs1) (s.fieldUnary fInv fd fs1) := rfl
theorem exec_fmov (fd fs1 : FReg) (s : State) :
    exec (.fmov fd fs1) s = s.command (.fmov fd fs1) (s.fieldUnary id fd fs1) := rfl

section Bodies

variable {s : State} {fd fs1 fs2 : FReg} {a b : Fe}

theorem State.fieldBinary_of_valid (op : Fe → Fe → Fe) (ha : s.f.get fs1.toFin = .valid a)
    (hb : s.f.get fs2.toFin = .valid b) :
    s.fieldBinary op fd fs1 fs2 = .ok (s.setF fd (op a b)) := by
  rw [State.fieldBinary, State.fieldAt_of_valid ha, State.fieldAt_of_valid hb]
  rfl

/-- An EMPTY source faults, whether the other one is read before it or not at all. -/
theorem State.fieldBinary_of_empty (op : Fe → Fe → Fe)
    (h : s.f.get fs1.toFin = .empty ∨ s.f.get fs2.toFin = .empty) :
    s.fieldBinary op fd fs1 fs2 = .error .emptyRegister := by
  rw [State.fieldBinary]
  cases h1 : s.f.get fs1.toFin with
  | empty =>
    rw [State.fieldAt_of_empty h1]
    rfl
  | valid a =>
    have h2 : s.f.get fs2.toFin = .empty := h.resolve_left (by simp [h1])
    rw [State.fieldAt_of_valid h1, State.fieldAt_of_empty h2]
    rfl

theorem State.fieldUnary_of_valid (op : Fe → Fe) (ha : s.f.get fs1.toFin = .valid a) :
    s.fieldUnary op fd fs1 = .ok (s.setF fd (op a)) := by
  rw [State.fieldUnary, State.fieldAt_of_valid ha]
  rfl

theorem State.fieldUnary_of_empty (op : Fe → Fe) (h : s.f.get fs1.toFin = .empty) :
    s.fieldUnary op fd fs1 = .error .emptyRegister := by
  rw [State.fieldUnary, State.fieldAt_of_empty h]
  rfl

end Bodies

/-! ### FADD, FSUB, FMUL (R104 to R106) -/

/-- Settles O25: the words by the opcode map, the faults and the results by the body of two sources,
the values by the field functions. -/
theorem faddFsubFmulDoWhatTheirRulesSay : Obligations.FaddFsubFmulDoWhatTheirRulesSay := by
  obtain ⟨-, -, fadd, fsub, fmul, -⟩ := opcodeMapDecodesByOpcode
  refine ⟨fadd, fsub, fmul, fun fd fs1 fs2 s he h => ⟨?_, ?_, ?_⟩,
    fun fd fs1 fs2 a b s he ha hb => ⟨fAdd a b, feOf_val _, ?_⟩,
    fun fd fs1 fs2 a b s he ha hb => ⟨fSub a b, fSub_val a b, ?_⟩,
    fun fd fs1 fs2 a b s he ha hb => ⟨fMul a b, feOf_val _, ?_⟩, fSub_fAdd_cancel⟩
  · exact faultsWith_of_body (exec_fadd ..) he (State.fieldBinary_of_empty fAdd h)
  · exact faultsWith_of_body (exec_fsub ..) he (State.fieldBinary_of_empty fSub h)
  · exact faultsWith_of_body (exec_fmul ..) he (State.fieldBinary_of_empty fMul h)
  · exact exec_of_body (exec_fadd ..) he (State.fieldBinary_of_valid fAdd ha hb)
  · exact exec_of_body (exec_fsub ..) he (State.fieldBinary_of_valid fSub ha hb)
  · exact exec_of_body (exec_fmul ..) he (State.fieldBinary_of_valid fMul ha hb)

/-! ### FSQR, FINV, FMOV (R107 to R109) -/

section Unary

variable {fd fs1 : FReg} {a : Fe} {s : State}

theorem execFsqr_of_valid (he : s.err = false) (ha : s.f.get fs1.toFin = .valid a) :
    exec (.fsqr fd fs1) s = .next (s.setF fd (fMul a a)) :=
  exec_of_body (exec_fsqr ..) he (State.fieldUnary_of_valid (fun a => fMul a a) ha)

/-- FSQR is FMUL with one register as both sources (R107). -/
theorem execFsqr_eq_fmul (he : s.err = false) (ha : s.f.get fs1.toFin = .valid a) :
    exec (.fsqr fd fs1) s = exec (.fmul fd fs1 fs1) s := by
  rw [execFsqr_of_valid he ha]
  exact (exec_of_body (exec_fmul ..) he (State.fieldBinary_of_valid fMul ha ha)).symm

theorem execFmov_of_valid (he : s.err = false) (ha : s.f.get fs1.toFin = .valid a) :
    exec (.fmov fd fs1) s = .next (s.setF fd a) :=
  exec_of_body (exec_fmov ..) he (State.fieldUnary_of_valid id ha)

end Unary

/-- Settles O26: the words by the opcode map, the faults and the results by the body of one source,
the values by the field functions. -/
theorem fsqrFinvFmovDoWhatTheirRulesSay : Obligations.FsqrFinvFmovDoWhatTheirRulesSay := by
  obtain ⟨-, -, -, -, -, fsqr, finv, fmov, -⟩ := opcodeMapDecodesByOpcode
  refine ⟨fsqr, finv, fmov, fun fd fs1 s he h => ⟨?_, ?_, ?_⟩,
    fun fd fs1 a s he ha =>
      ⟨⟨fMul a a, feOf_val _, execFsqr_of_valid he ha⟩, execFsqr_eq_fmul he ha⟩,
    fun fd fs1 a s he ha => ⟨fInv a, fInv_val a, ?_⟩, fInv_fInv,
    fun fd fs1 a s => execFmov_of_valid, fun r a s he ha => ?_⟩
  · exact faultsWith_of_body (exec_fsqr ..) he (State.fieldUnary_of_empty _ h)
  · exact faultsWith_of_body (exec_finv ..) he (State.fieldUnary_of_empty _ h)
  · exact faultsWith_of_body (exec_fmov ..) he (State.fieldUnary_of_empty _ h)
  · exact exec_of_body (exec_finv ..) he (State.fieldUnary_of_valid fInv ha)
  · rw [execFmov_of_valid he ha, State.setF_of_valid ha]

/-! ### FLI, FLD, FST (R110 to R112) -/

/-- A 16-bit immediate is below `P`, so FLI writes it as it is. -/
theorem feOf_imm_val (imm16 : BitVec 16) : (feOf imm16.toNat).val = imm16.toNat := by
  rw [feOf_val, Nat.mod_eq_of_lt (imm16.isLt.trans (by decide))]

section Access

variable {r : FReg} {addr : Addr} {v : Fe} {s : State}

theorem execFli_of_not_err (imm16 : BitVec 16) (he : s.err = false) :
    exec (.fli r imm16) s = .next (s.setF r (feOf imm16.toNat)) :=
  s.command_completes (.fli r imm16) he rfl

theorem execFld_of_lt (he : s.err = false) (h : s.params.dmemSize < addr.toNat + 32) :
    faultsWith (.fld r addr) s .addressRange :=
  s.command_faults _ he (by rw [State.inDmem_of_lt h]; rfl)

theorem execFld_of_le (he : s.err = false) (h : addr.toNat + 32 ≤ s.params.dmemSize) :
    exec (.fld r addr) s = .next (s.setF r (fDec (s.dmemRead addr 32))) :=
  s.command_completes _ he (by rw [State.inDmem_of_le h]; rfl)

/-- The source's tag is tested before the range (60_exceptions R217). -/
theorem execFst_of_empty (he : s.err = false) (h : s.f.get r.toFin = .empty) :
    faultsWith (.fst r addr) s .emptyRegister :=
  s.command_faults _ he (by rw [State.fieldAt_of_empty h]; rfl)

theorem execFst_of_lt (he : s.err = false) (hv : s.f.get r.toFin = .valid v)
    (h : s.params.dmemSize < addr.toNat + 32) : faultsWith (.fst r addr) s .addressRange :=
  s.command_faults _ he (by rw [State.fieldAt_of_valid hv, State.inDmem_of_lt h]; rfl)

theorem execFst_of_le (he : s.err = false) (hv : s.f.get r.toFin = .valid v)
    (h : addr.toNat + 32 ≤ s.params.dmemSize) :
    exec (.fst r addr) s = .next (s.dmemWrite addr (fEnc v)) :=
  s.command_completes _ he (by rw [State.fieldAt_of_valid hv, State.inDmem_of_le h]; rfl)

end Access

/-- Settles O27: the words by the opcode map, the faults and the results command by command, the bytes
FST stores by the laws of `fEnc`. -/
theorem fliFldFstDoWhatTheirRulesSay : Obligations.FliFldFstDoWhatTheirRulesSay := by
  obtain ⟨-, -, -, -, -, -, -, -, fli, fld, fst, -⟩ := opcodeMapDecodesByOpcode
  exact ⟨fli, fld, fst,
    fun _ imm16 _ he => ⟨feOf imm16.toNat, feOf_imm_val imm16, execFli_of_not_err imm16 he⟩,
    fun _ _ _ => execFld_of_lt,
    fun _ addr s he h => ⟨fDec (s.dmemRead addr 32), feOf_val _, execFld_of_le he h⟩,
    fun _ _ _ => execFst_of_empty, fun _ _ _ _ => execFst_of_lt,
    fun _ _ v _ he hv h =>
      ⟨fEnc v, fEnc_length v, leNat_fEnc v, fEnc_topBit v, execFst_of_le he hv h⟩⟩

end Sys2Proof.Machine
end

section
/-!
The scalar functions (41_scalar R120 to R126) as numbers, bit by bit and as bytes, and the scalar laws
(R130). The bytes of a clamped value are read off the two masks: `bytesLE` takes AND and OR of numbers
to AND and OR byte by byte.
-/

namespace Sys2Proof.Laws

open Sys2Proof.Machine

/-! ### Reduction (R120) -/

theorem groupOrder_lt_two_pow_253 : groupOrder < 2 ^ 253 := by norm_num [groupOrder]

theorem toNat_scRed_lt (v : Nat) : (scRed v).toNat < groupOrder :=
  (toNat_scRed v).trans_lt (Nat.mod_lt v groupOrder_pos)

theorem scalarCanonical_iff (v : BitVec 256) : scalarCanonical v = true ↔ v.toNat < groupOrder :=
  decide_eq_true_iff

/-! ### Clamping as a number and bit by bit (R121) -/

theorem toNat_clamp (v : BitVec 256) :
    (clamp v).toNat = (v.toNat &&& (2 ^ 255 - 8)) ||| 2 ^ 254 := by
  rw [clamp, BitVec.toNat_or, BitVec.toNat_and, BitVec.toNat_ofNat, BitVec.toNat_ofNat,
    Nat.mod_eq_of_lt (by norm_num : 2 ^ 255 - 8 < 2 ^ 256),
    Nat.mod_eq_of_lt (by norm_num : 2 ^ 254 < 2 ^ 256)]

/-- The AND mask holds the bits 3 to 254: it is `2^3` times a number of 252 ones. -/
theorem testBit_clampMask (i : Nat) : (2 ^ 255 - 8).testBit i = decide (3 ≤ i ∧ i < 255) := by
  have shape : 2 ^ 255 - 8 = 2 ^ 3 * (2 ^ 252 - 1) := by norm_num
  have width : 3 ≤ i → (i - 3 < 252 ↔ i < 255) := by omega
  rw [shape, Nat.testBit_two_pow_mul, Nat.testBit_two_pow_sub_one, ← Bool.decide_and]
  exact decide_eq_decide.2 (and_congr_right width)

theorem getLsbD_clamp (v : BitVec 256) {i : Nat} (hi : i < 256) :
    (clamp v).getLsbD i =
      if i = 0 ∨ i = 1 ∨ i = 2 ∨ i = 255 then false else if i = 254 then true else v.getLsbD i := by
  have masks : (clamp v).getLsbD i = (v.getLsbD i && decide (3 ≤ i ∧ i < 255) || decide (254 = i)) := by
    rw [← BitVec.testBit_toNat, toNat_clamp, Nat.testBit_or, Nat.testBit_and, testBit_clampMask,
      Nat.testBit_two_pow, BitVec.testBit_toNat]
  rw [masks]
  split_ifs with cleared top
  · have outside : ¬ (3 ≤ i ∧ i < 255) ∧ 254 ≠ i := by omega
    simp [outside]
  · simp [top]
  · have inside : 3 ≤ i ∧ i < 255 := by omega
    simp [inside, Ne.symm top]

/-- The bits that clamping writes are the same the second time. -/
theorem clamp_clamp (v : BitVec 256) : clamp (clamp v) = clamp v := by
  refine BitVec.eq_of_getLsbD_eq fun i hi => ?_
  rw [getLsbD_clamp (clamp v) hi, getLsbD_clamp v hi]
  split_ifs <;> rfl

/-! ### The range of a clamped value (R121) -/

theorem two_pow_254_le_clamp (v : BitVec 256) : 2 ^ 254 ≤ (clamp v).toNat := by
  rw [toNat_clamp]
  exact Nat.right_le_or

theorem clamp_lt_two_pow_255 (v : BitVec 256) : (clamp v).toNat < 2 ^ 255 := by
  rw [toNat_clamp]
  exact Nat.or_lt_two_pow (Nat.and_lt_two_pow _ (by norm_num)) (by norm_num)

theorem clamp_mod_eight (v : BitVec 256) : (clamp v).toNat % 8 = 0 := by
  rw [toNat_clamp]
  calc ((v.toNat &&& (2 ^ 255 - 8)) ||| 2 ^ 254) % 2 ^ 3
      = (v.toNat % 2 ^ 3 &&& (2 ^ 255 - 8) % 2 ^ 3) ||| 2 ^ 254 % 2 ^ 3 := by
        rw [Nat.or_mod_two_pow, Nat.and_mod_two_pow]
    _ = 0 := by norm_num

theorem clamp_le (v : BitVec 256) : (clamp v).toNat ≤ 2 ^ 255 - 8 := by
  have below := clamp_lt_two_pow_255 v
  have multiple := clamp_mod_eight v
  omega

/-- A clamped value has bit 254 set, and `L` is below `2^253`. -/
theorem groupOrder_le_clamp (v : BitVec 256) : groupOrder ≤ (clamp v).toNat :=
  calc groupOrder ≤ 2 ^ 253 := groupOrder_lt_two_pow_253.le
    _ ≤ 2 ^ 254 := by norm_num
    _ ≤ (clamp v).toNat := two_pow_254_le_clamp v

theorem scalarCanonical_clamp (v : BitVec 256) : scalarCanonical (clamp v) = false :=
  decide_eq_false (Nat.not_lt.2 (groupOrder_le_clamp v))

/-! ### Scalars as 32 bytes (R121, R125, R126) -/

theorem scalarBytes_scalarOfBytes {b : List Byte} (h : b.length = 32) :
    scalarBytes (scalarOfBytes b) = b := by
  rw [scalarBytes, toNat_scalarOfBytes h, ← h, bytesLE_leNat]

theorem bytesLE_and (n v w : Nat) :
    bytesLE n (v &&& w) = List.zipWith (· &&& ·) (bytesLE n v) (bytesLE n w) := by
  induction n generalizing v w with
  | zero => rfl
  | succ n ih =>
    have rest : (v &&& w) / 256 = v / 256 &&& w / 256 := Nat.and_div_two_pow (n := 8)
    rw [bytesLE, rest, ih, BitVec.ofNat_and]
    rfl

theorem bytesLE_or (n v w : Nat) :
    bytesLE n (v ||| w) = List.zipWith (· ||| ·) (bytesLE n v) (bytesLE n w) := by
  induction n generalizing v w with
  | zero => rfl
  | succ n ih =>
    have rest : (v ||| w) / 256 = v / 256 ||| w / 256 := Nat.or_div_two_pow (n := 8)
    rw [bytesLE, rest, ih, BitVec.ofNat_or]
    rfl

theorem bytesLE_clampMask : bytesLE 32 (2 ^ 255 - 8) = 0xF8 :: List.replicate 30 0xFF ++ [0x7F] := by
  decide +kernel

theorem bytesLE_two_pow_254 : bytesLE 32 (2 ^ 254) = 0x00 :: List.replicate 30 0x00 ++ [0x40] := by
  decide +kernel

/-- Byte by byte, an operation that has `c` as its neutral element on the right leaves a string of
`n` bytes as it is. -/
theorem zipWith_replicate_right_neutral {op : Byte → Byte → Byte} {c : Byte} (neutral : ∀ b, op b c = b)
    {l : List Byte} {n : Nat} (h : l.length = n) : List.zipWith op l (List.replicate n c) = l := by
  subst h
  induction l with
  | nil => rfl
  | cons b l ih => rw [List.length_cons, List.replicate_succ, List.zipWith_cons_cons, neutral, ih]

theorem zipWith_first_last {op : Byte → Byte → Byte} {c c0 c31 : Byte} (neutral : ∀ b, op b c = b)
    {mid : List Byte} {n : Nat} (h : mid.length = n) (b0 b31 : Byte) :
    List.zipWith op (b0 :: mid ++ [b31]) (c0 :: List.replicate n c ++ [c31]) =
      op b0 c0 :: mid ++ [op b31 c31] := by
  rw [List.zipWith_append (by simp [h]), List.zipWith_cons_cons,
    zipWith_replicate_right_neutral neutral h]
  rfl

/-- Clamping touches the first and the last byte only. -/
theorem scalarBytes_clamp (b0 b31 : Byte) {mid : List Byte} (h : mid.length = 30) :
    scalarBytes (clamp (scalarOfBytes (b0 :: mid ++ [b31]))) =
      (b0 &&& 0xF8) :: mid ++ [(b31 &&& 0x7F) ||| 0x40] := by
  have hlen : (b0 :: mid ++ [b31]).length = 32 := by simp [h]
  have bytes : bytesLE 32 (scalarOfBytes (b0 :: mid ++ [b31])).toNat = b0 :: mid ++ [b31] :=
    scalarBytes_scalarOfBytes hlen
  have and_ones : ∀ b : Byte, b &&& 0xFF = b := fun _ => BitVec.and_allOnes
  have or_zero : ∀ b : Byte, b ||| 0x00 = b := fun _ => BitVec.or_zero
  rw [scalarBytes, toNat_clamp, bytesLE_or, bytesLE_and, bytes, bytesLE_clampMask,
    bytesLE_two_pow_254, zipWith_first_last and_ones h, zipWith_first_last or_zero h, or_zero]

/-! ### Sum and product modulo `L` (R130) -/

theorem sAdd_scRed (a b : BitVec 256) : sAdd a b = sAdd (scRed a.toNat) (scRed b.toNat) := by
  apply BitVec.eq_of_toNat_eq
  rw [toNat_sAdd, toNat_sAdd, toNat_scRed, toNat_scRed, ← Nat.add_mod]

theorem sMul_scRed_right (a b : BitVec 256) : sMul a (scRed b.toNat) = sMul a b := by
  apply BitVec.eq_of_toNat_eq
  rw [toNat_sMul, toNat_sMul, toNat_scRed, Nat.mul_mod_mod]

theorem sAdd_comm (a b : BitVec 256) : sAdd a b = sAdd b a := by rw [sAdd, sAdd, Nat.add_comm]

theorem sMul_comm (a b : BitVec 256) : sMul a b = sMul b a := by rw [sMul, sMul, Nat.mul_comm]

theorem sMul_scRed (a b : BitVec 256) : sMul a b = sMul (scRed a.toNat) (scRed b.toNat) := by
  apply BitVec.eq_of_toNat_eq
  rw [toNat_sMul, toNat_sMul, toNat_scRed, toNat_scRed, ← Nat.mul_mod]

theorem sAdd_assoc (a b c : BitVec 256) : sAdd (sAdd a b) c = sAdd a (sAdd b c) := by
  apply BitVec.eq_of_toNat_eq
  simp only [toNat_sAdd, Nat.mod_add_mod, Nat.add_mod_mod, Nat.add_assoc]

theorem sMul_assoc (a b c : BitVec 256) : sMul (sMul a b) c = sMul a (sMul b c) := by
  apply BitVec.eq_of_toNat_eq
  simp only [toNat_sMul, Nat.mod_mul_mod, Nat.mul_mod_mod, Nat.mul_assoc]

theorem sMul_sAdd (a b c : BitVec 256) : sMul a (sAdd b c) = sAdd (sMul a b) (sMul a c) := by
  apply BitVec.eq_of_toNat_eq
  simp only [toNat_sMul, toNat_sAdd, Nat.mul_mod_mod, Nat.mod_add_mod, Nat.add_mod_mod, Nat.mul_add]

/-- Settles O44: reduction by its value, clamping by its two masks as a number, bit by bit and byte by
byte, the scalar laws by those of the natural numbers, one lemma each. -/
theorem scalarFunctionsAndTheirLaws : Obligations.ScalarFunctionsAndTheirLaws :=
  ⟨by norm_num [groupOrder], fun v => ⟨toNat_scRed v, toNat_scRed_lt v⟩, groupOrder_lt_two_pow_253,
    scalarCanonical_iff, toNat_clamp, fun v _ => getLsbD_clamp v,
    fun v => ⟨two_pow_254_le_clamp v, clamp_le v, clamp_mod_eight v, groupOrder_le_clamp v⟩,
    clamp_clamp, fun b0 b31 _ => scalarBytes_clamp b0 b31,
    fun a b => ⟨toNat_sAdd a b, toNat_sMul a b⟩, fun a b => ⟨sAdd_scRed a b, sMul_scRed a b⟩,
    fun _ k a => by rw [sMul_scRed_right k a], fun a b => ⟨sAdd_comm a b, sMul_comm a b⟩,
    fun a b c => ⟨sAdd_assoc a b c, sMul_assoc a b c, sMul_sAdd a b c⟩⟩

end Sys2Proof.Laws
end

section
/-!
The scalar commands (41_scalar R122 to R129). SADD and SMUL share a body of two sources, SMOV and SCLAMP
one of one source, SLD and SRED one that loads from DMEM; each command is `State.command` of its body, so
its meaning is read off the body's answer.
-/

namespace Sys2Proof.Machine

open Laws

/-! ### Operands -/

theorem State.scalarAt_of_empty {s : State} {r : SReg} (h : s.s.get r.toFin = .empty) :
    s.scalarAt r = .error .emptyRegister := (s.scalarAt_eq_error r _).2 ⟨h, rfl⟩

theorem State.scalarAt_of_valid {s : State} {r : SReg} {a : BitVec 256}
    (h : s.s.get r.toFin = .valid a) : s.scalarAt r = .ok a := (s.scalarAt_eq_ok r a).2 h

/-! ### Bodies -/

/-- The body of SADD and SMUL, for their operation. -/
def State.scalarBinary (s : State) (op : BitVec 256 → BitVec 256 → BitVec 256) (sd ss1 ss2 : SReg) :
    Except Cause State := do
  let a ← s.scalarAt ss1
  let b ← s.scalarAt ss2
  return s.setS sd (op a b)

/-- The body of SMOV and SCLAMP, for their operation. -/
def State.scalarUnary (s : State) (op : BitVec 256 → BitVec 256) (sd ss1 : SReg) :
    Except Cause State := do
  let a ← s.scalarAt ss1
  return s.setS sd (op a)

/-- The body of SLD and SRED, for the number of bytes and the value those stand for. -/
def State.scalarLoad (s : State) (n : Nat) (value : List Byte → BitVec 256) (sd : SReg) (addr : Addr) :
    Except Cause State := do
  s.inDmem addr n
  return s.setS sd (value (s.dmemRead addr n))

theorem exec_sadd (sd ss1 ss2 : SReg) (s : State) :
    exec (.sadd sd ss1 ss2) s = s.command (.sadd sd ss1 ss2) (s.scalarBinary sAdd sd ss1 ss2) := rfl
theorem exec_smul (sd ss1 ss2 : SReg) (s : State) :
    exec (.smul sd ss1 ss2) s = s.command (.smul sd ss1 ss2) (s.scalarBinary sMul sd ss1 ss2) := rfl
theorem exec_smov (sd ss1 : SReg) (s : State) :
    exec (.smov sd ss1) s = s.command (.smov sd ss1) (s.scalarUnary id sd ss1) := rfl
theorem exec_sclamp (sd ss1 : SReg) (s : State) :
    exec (.sclamp sd ss1) s = s.command (.sclamp sd ss1) (s.scalarUnary clamp sd ss1) := rfl
theorem exec_sld (sd : SReg) (addr : Addr) (s : State) :
    exec (.sld sd addr) s = s.command (.sld sd addr) (s.scalarLoad 32 scalarOfBytes sd addr) := rfl
theorem exec_sred (sd : SReg) (addr : Addr) (s : State) :
    exec (.sred sd addr) s =
      s.command (.sred sd addr) (s.scalarLoad 64 (fun b => scRed (leNat b)) sd addr) := rfl

section Bodies

variable {s : State} {sd ss1 ss2 : SReg} {a b : BitVec 256} {addr : Addr} {n : Nat}

theorem State.scalarBinary_of_valid (op : BitVec 256 → BitVec 256 → BitVec 256)
    (ha : s.s.get ss1.toFin = .valid a) (hb : s.s.get ss2.toFin = .valid b) :
    s.scalarBinary op sd ss1 ss2 = .ok (s.setS sd (op a b)) := by
  rw [State.scalarBinary, State.scalarAt_of_valid ha, State.scalarAt_of_valid hb]
  rfl

/-- An EMPTY source faults, whether the other one is read before it or not at all. -/
theorem State.scalarBinary_of_empty (op : BitVec 256 → BitVec 256 → BitVec 256)
    (h : s.s.get ss1.toFin = .empty ∨ s.s.get ss2.toFin = .empty) :
    s.scalarBinary op sd ss1 ss2 = .error .emptyRegister := by
  rw [State.scalarBinary]
  cases h1 : s.s.get ss1.toFin with
  | empty =>
    rw [State.scalarAt_of_empty h1]
    rfl
  | valid a =>
    have h2 : s.s.get ss2.toFin = .empty := h.resolve_left (by simp [h1])
    rw [State.scalarAt_of_valid h1, State.scalarAt_of_empty h2]
    rfl

theorem State.scalarUnary_of_valid (op : BitVec 256 → BitVec 256)
    (ha : s.s.get ss1.toFin = .valid a) : s.scalarUnary op sd ss1 = .ok (s.setS sd (op a)) := by
  rw [State.scalarUnary, State.scalarAt_of_valid ha]
  rfl

theorem State.scalarUnary_of_empty (op : BitVec 256 → BitVec 256)
    (h : s.s.get ss1.toFin = .empty) : s.scalarUnary op sd ss1 = .error .emptyRegister := by
  rw [State.scalarUnary, State.scalarAt_of_empty h]
  rfl

theorem State.scalarLoad_of_le (value : List Byte → BitVec 256)
    (h : addr.toNat + n ≤ s.params.dmemSize) :
    s.scalarLoad n value sd addr = .ok (s.setS sd (value (s.dmemRead addr n))) := by
  rw [State.scalarLoad, State.inDmem_of_le h]
  rfl

theorem State.scalarLoad_of_lt (value : List Byte → BitVec 256)
    (h : s.params.dmemSize < addr.toNat + n) :
    s.scalarLoad n value sd addr = .error .addressRange := by
  rw [State.scalarLoad, State.inDmem_of_lt h]
  rfl

end Bodies

/-! ### SADD, SMUL (R122, R123) -/

/-- Settles O28: the words by the opcode map, the faults and the results by the body of two sources,
the values and the laws of the product by the scalar functions. -/
theorem saddSmulDoWhatTheirRulesSay : Obligations.SaddSmulDoWhatTheirRulesSay := by
  obtain ⟨-, -, -, -, -, -, -, -, -, -, -, sadd, smul, -⟩ := opcodeMapDecodesByOpcode
  refine ⟨sadd, smul, fun sd ss1 ss2 s he h => ⟨?_, ?_⟩,
    fun sd ss1 ss2 a b s he ha hb => ⟨sAdd a b, toNat_sAdd a b, ?_⟩,
    fun sd ss1 ss2 a b s he ha hb => ⟨sMul a b, toNat_sMul a b, ?_⟩, sMul_comm, sMul_assoc⟩
  · exact faultsWith_of_body (exec_sadd ..) he (State.scalarBinary_of_empty sAdd h)
  · exact faultsWith_of_body (exec_smul ..) he (State.scalarBinary_of_empty sMul h)
  · exact exec_of_body (exec_sadd ..) he (State.scalarBinary_of_valid sAdd ha hb)
  · exact exec_of_body (exec_smul ..) he (State.scalarBinary_of_valid sMul ha hb)

/-! ### SMOV, SCLAMP, SCHK (R124, R128, R129) -/

theorem execSchk_of_empty {ss1 : SReg} {s : State} (he : s.err = false)
    (h : s.s.get ss1.toFin = .empty) : faultsWith (.schk ss1) s .emptyRegister :=
  s.command_faults _ he (by rw [State.scalarAt_of_empty h]; rfl)

/-- Settles O29: the words by the opcode map, the faults and the results of SMOV and SCLAMP by the body
of one source, those of SCHK by its own, the clamped value by its two masks. -/
theorem smovSclampSchkDoWhatTheirRulesSay : Obligations.SmovSclampSchkDoWhatTheirRulesSay := by
  obtain ⟨-, -, -, -, -, -, -, -, -, -, -, -, -, smov, -, -, -, sclamp, schk, -⟩ :=
    opcodeMapDecodesByOpcode
  refine ⟨smov, sclamp, schk, fun sd ss1 s he h => ⟨?_, ?_, execSchk_of_empty he h⟩,
    fun sd ss1 a s he ha => ?_, fun sd ss1 a s he ha => ⟨clamp a, toNat_clamp a, ?_⟩,
    fun ss1 a s => execSchk_of_valid, scalarCanonical_clamp⟩
  · exact faultsWith_of_body (exec_smov ..) he (State.scalarUnary_of_empty id h)
  · exact faultsWith_of_body (exec_sclamp ..) he (State.scalarUnary_of_empty clamp h)
  · exact exec_of_body (exec_smov ..) he (State.scalarUnary_of_valid id ha)
  · exact exec_of_body (exec_sclamp ..) he (State.scalarUnary_of_valid clamp ha)

/-! ### SLD, SST, SRED (R125 to R127) -/

section Access

variable {r : SReg} {addr : Addr} {v : BitVec 256} {s : State}

theorem execSld_of_le (he : s.err = false) (h : addr.toNat + 32 ≤ s.params.dmemSize) :
    exec (.sld r addr) s = .next (s.setS r (scalarOfBytes (s.dmemRead addr 32))) :=
  exec_of_body (exec_sld ..) he (State.scalarLoad_of_le scalarOfBytes h)

/-- The source's tag is tested before the range (60_exceptions R217). -/
theorem execSst_of_empty (he : s.err = false) (h : s.s.get r.toFin = .empty) :
    faultsWith (.sst r addr) s .emptyRegister :=
  s.command_faults _ he (by rw [State.scalarAt_of_empty h]; rfl)

theorem execSst_of_lt (he : s.err = false) (hv : s.s.get r.toFin = .valid v)
    (h : s.params.dmemSize < addr.toNat + 32) : faultsWith (.sst r addr) s .addressRange :=
  s.command_faults _ he (by rw [State.scalarAt_of_valid hv, State.inDmem_of_lt h]; rfl)

theorem execSst_of_le (he : s.err = false) (hv : s.s.get r.toFin = .valid v)
    (h : addr.toNat + 32 ≤ s.params.dmemSize) :
    exec (.sst r addr) s = .next (s.dmemWrite addr (scalarBytes v)) :=
  s.command_completes _ he (by rw [State.scalarAt_of_valid hv, State.inDmem_of_le h]; rfl)

/-- SST stores a register that holds the value of 32 bytes as these 32 bytes: nothing reduces. -/
theorem execSst_of_scalarOfBytes {b : List Byte} (hb : b.length = 32) (he : s.err = false)
    (hv : s.s.get r.toFin = .valid (scalarOfBytes b)) (h : addr.toNat + 32 ≤ s.params.dmemSize) :
    exec (.sst r addr) s = .next (s.dmemWrite addr b) := by
  rw [execSst_of_le he hv h, scalarBytes_scalarOfBytes hb]

end Access

/-- Settles O30: the words by the opcode map, SLD and SRED by the body that loads, SST by its own, the
bytes SST stores by the laws of `scalarBytes`. -/
theorem sldSstSredDoWhatTheirRulesSay : Obligations.SldSstSredDoWhatTheirRulesSay := by
  obtain ⟨-, -, -, -, -, -, -, -, -, -, -, -, -, -, sld, sst, sred, -⟩ := opcodeMapDecodesByOpcode
  refine ⟨sld, sst, sred, fun sd addr s he h => ?_, fun sd addr s he h => ?_,
    fun sd addr s he h => ⟨scalarOfBytes (s.dmemRead addr 32),
      toNat_scalarOfBytes (s.dmemRead_length addr 32), execSld_of_le he h⟩,
    fun sd addr s he h => ⟨scRed (leNat (s.dmemRead addr 64)), toNat_scRed _, ?_⟩,
    fun _ _ _ => execSst_of_empty, fun _ _ _ _ => execSst_of_lt,
    fun _ _ v _ he hv h =>
      ⟨scalarBytes v, scalarBytes_length v, leNat_scalarBytes v, execSst_of_le he hv h⟩,
    fun r a1 a2 s he h1 h2 => ⟨_, execSld_of_le he h1,
      execSst_of_scalarOfBytes (s.dmemRead_length a1 32) he (by simp) h2⟩⟩
  · exact faultsWith_of_body (exec_sld ..) he (State.scalarLoad_of_lt _ h)
  · exact faultsWith_of_body (exec_sred ..) he (State.scalarLoad_of_lt _ h)
  · exact exec_of_body (exec_sred ..) he (State.scalarLoad_of_le (fun b => scRed (leNat b)) h)

end Sys2Proof.Machine
end

section
/-!
The addition law of the curve (42_point R140, R142) in the machine's own words, and the opposite of a
point (R141).
-/

namespace Sys2Proof.Laws

open Sys2Proof.Machine

/-- The curve equation in the integers (R140): the machine's residues stand for it in `ZMod P`. -/
theorem onCurve_iff_emod (x y : Fe) : onCurve ⟨x, y⟩ = true ↔
    ((y.val : Int) * y.val - (x.val : Int) * x.val - 1 -
      (curveD.val : Int) * x.val * x.val * y.val * y.val) % (P : Int) = 0 := by
  rw [← Int.dvd_iff_emod_eq_zero, ← ZMod.intCast_zmod_eq_zero_iff_dvd, onCurve_iff, Edwards.On]
  push_cast
  simp only [toZ]
  ring_nf

/-- For points of the curve neither denominator of the addition law is zero (R141). -/
theorem ptAdd_den_ne_zero {x1 y1 x2 y2 t : Fe} (ht : t = fMul (fMul (fMul (fMul curveD x1) x2) y1) y2)
    (h1 : onCurve ⟨x1, y1⟩ = true) (h2 : onCurve ⟨x2, y2⟩ = true) :
    fAdd (feOf 1) t ≠ feOf 0 ∧ fSub (feOf 1) t ≠ feOf 0 := by
  have := fact_prime_P
  rw [onCurve_iff] at h1 h2
  have htee : toZ t = Edwards.tee (toZ curveD) (toZ x1) (toZ y1) (toZ x2) (toZ y2) := by
    rw [ht, Edwards.tee]
    simp only [toZ_fMul]
  constructor <;> rw [Ne, ← toZ_eq_zero]
  · rw [toZ_fAdd, toZ_feOf, Nat.cast_one, htee]
    exact Edwards.one_add_tee_ne_zero complete_curveD h1 h2
  · rw [toZ_fSub, toZ_feOf, Nat.cast_one, htee]
    exact Edwards.one_sub_tee_ne_zero complete_curveD h1 h2

/-- A curve point and its opposite sum to ID (R141): the numerator of `x` is `x·y − y·x`, and the curve
equation says that the quotient of `y` is 1. -/
theorem ptAdd_neg {q : Point} (hq : onCurve q = true) :
    ptAdd q ⟨fSub (feOf 0) q.x, q.y⟩ = idPoint := by
  have := fact_prime_P
  have hneg : onCurve ⟨fSub (feOf 0) q.x, q.y⟩ = true := onCurve_neg hq
  rw [onCurve_iff] at hq hneg
  have hden := Edwards.one_sub_tee_ne_zero complete_curveD hq hneg
  apply point_ext_toZ
  · rw [toZ_ptAdd_x]
    simp only [Edwards.addX, idPoint, toZ_fSub, toZ_feOf, Nat.cast_zero]
    rw [div_eq_zero_iff]
    exact .inl (by ring)
  · rw [toZ_ptAdd_y, Edwards.addY, div_eq_iff hden]
    unfold Edwards.On at hq
    simp only [Edwards.tee, idPoint, toZ_fSub, toZ_feOf, Nat.cast_zero, Nat.cast_one]
    linear_combination hq

/-- Settles O45: the equation by residues, the law by its definition, its denominators and closure by
completeness. -/
theorem ptAddIsTheCompleteAdditionLaw : Obligations.PtAddIsTheCompleteAdditionLaw := by
  refine ⟨by decide +kernel, onCurve_iff_emod, ?_, fun x1 y1 x2 y2 t ht h1 h2 => ?_,
    ptAdd_id_right, ptAdd_comm⟩
  · rintro x1 y1 x2 y2 t rfl
    rfl
  · obtain ⟨hadd, hsub⟩ := ptAdd_den_ne_zero ht h1 h2
    exact ⟨hadd, hsub, onCurve_ptAdd h1 h2⟩

end Sys2Proof.Laws
end

section
/-!
Packed points (42_point R149): the bits of the 32 bytes, and that an encoding determines the point of
the curve.
-/

namespace Sys2Proof.Laws

open Sys2Proof.Machine

/-! ### Bytes and bits -/

/-- A byte string of a given length is its integer. -/
theorem eq_iff_leNat_eq {a b : List Byte} (h : a.length = b.length) : a = b ↔ leNat a = leNat b := by
  constructor
  · exact congrArg leNat
  · intro e
    rw [← bytesLE_leNat a, ← bytesLE_leNat b, h, e]

/-- Bit `j` of byte `i` is bit `8·i + j` of the integer. -/
theorem getLsbD_getElem_eq_testBit {b : List Byte} {i j : Nat} (hi : i < b.length) (hj : j < 8) :
    b[i].getLsbD j = (leNat b).testBit (8 * i + j) := by
  have hdiv : (8 * i + j) / 8 = i := by omega
  have hmod : (8 * i + j) % 8 = j := by omega
  rw [testBit_leNat b (8 * i + j) (by rwa [hdiv])]
  simp only [hdiv, hmod]

/-- The low 255 bits of a packed point are `y`, bit 255 is the parity of `x`. -/
theorem testBit_leNat_ptEnc (q : Point) {k : Nat} (hk : k ≤ 255) :
    (leNat (ptEnc q)).testBit k =
      if k = 255 then decide (q.x.val % 2 = 1) else (leNat (fEnc q.y)).testBit k := by
  rw [leNat_ptEnc, leNat_fEnc, Nat.add_comm, Nat.testBit_two_pow_mul_add _ (val_lt_two_pow q.y)]
  split
  next low => rw [if_neg low.ne]
  next high =>
    obtain rfl : k = 255 := by omega
    rw [if_pos rfl, Nat.sub_self, Nat.testBit_zero, Nat.mod_mod]

/-- Byte by byte a packed point is `FEnc(y)`, but for bit 7 of byte 31, the parity of `x`. -/
theorem getLsbD_ptEnc (q : Point) {i j : Nat} (hi : i < 32) (hj : j < 8) :
    ((ptEnc q)[i]?.getD 0).getLsbD j =
      if 8 * i + j = 255 then decide (q.x.val % 2 = 1) else ((fEnc q.y)[i]?.getD 0).getLsbD j := by
  have hp : i < (ptEnc q).length := by rwa [ptEnc_length]
  have hf : i < (fEnc q.y).length := by rwa [fEnc_length]
  rw [List.getElem?_eq_getElem hp, List.getElem?_eq_getElem hf, Option.getD_some, Option.getD_some,
    getLsbD_getElem_eq_testBit hp hj, getLsbD_getElem_eq_testBit hf hj,
    testBit_leNat_ptEnc q (by omega)]

theorem take_ptEnc (q : Point) : (ptEnc q).take 31 = (fEnc q.y).take 31 := by
  apply List.ext_getElem
  · rw [List.length_take, List.length_take, ptEnc_length, fEnc_length]
  · intro i h1 h2
    have hi : i < 31 := by rw [List.length_take] at h1; omega
    rw [List.getElem_take, List.getElem_take]
    apply BitVec.eq_of_getLsbD_eq
    intro j hj
    have h := getLsbD_ptEnc q (show i < 32 by omega) hj
    rw [if_neg (by omega)] at h
    simpa [ptEnc_length, fEnc_length, show i < 32 by omega] using h

/-! ### An encoding determines the point -/

/-- Two points of the curve with the same `y` and the same parity of `x` are equal. -/
theorem eq_of_same_y_parity {x1 x2 y : Fe} (h1 : onCurve ⟨x1, y⟩ = true)
    (h2 : onCurve ⟨x2, y⟩ = true) (hp : x1.val % 2 = x2.val % 2) : x1 = x2 := by
  obtain h | h := same_y h1 h2
  · exact h
  · by_cases h0 : x2 = feOf 0
    · rw [h, h0, neg_zero_fe]
    · have := neg_parity h0
      rw [← h, hp] at this
      omega

theorem ptEnc_inj {a b : Point} (ha : onCurve a = true) (hb : onCurve b = true) :
    ptEnc a = ptEnc b ↔ a = b := by
  constructor
  · intro h
    obtain ⟨xa, ya⟩ := a
    obtain ⟨xb, yb⟩ := b
    have hn := congrArg leNat h
    simp only [leNat_ptEnc] at hn
    have hya := val_lt_two_pow ya
    have hyb := val_lt_two_pow yb
    obtain rfl : ya = yb := Fin.ext (by omega)
    rw [eq_of_same_y_parity ha hb (by omega)]
  · exact congrArg ptEnc

theorem leNat_ptEnc_of_x_zero (y : Fe) : leNat (ptEnc ⟨feOf 0, y⟩) < 2 ^ 255 := by
  rw [leNat_ptEnc]
  simpa using val_lt_two_pow y

/-- Settles O50: the bytes by the bits of their integer, injectivity by the parity that tells `x` from
`P − x`. -/
theorem ptEncIsInjectiveOnTheCurve : Obligations.PtEncIsInjectiveOnTheCurve := by
  refine ⟨fun q => ⟨ptEnc_length q, leNat_ptEnc q⟩, fun q => ⟨take_ptEnc q, fun j hj => ?_⟩,
    fun a b => ptEnc_inj, leNat_ptEnc_of_x_zero⟩
  have htop : 8 * 31 + j = 255 ↔ j = 7 := by omega
  simp only [getLsbD_ptEnc q (show 31 < 32 by norm_num) hj, htop]

end Sys2Proof.Laws
end

section
/-!
The points of the curve as a group (42_point R141, R143, R144, R161). The packed points bound their
number below `16·L`, and the base point and a point of order 8 generate `8·L` of them: so the group is
cyclic of order `8·L`, which says modulo what a `k`-fold sum repeats.
-/

namespace Sys2Proof.Laws

open Sys2Proof.Machine

/-! ### Multiples -/

/-- A sum that has come back to ID starts again. -/
theorem ptSum_mod {q : Point} {n : Nat} (hq : onCurve q = true) (hn : ptSum n q = idPoint) (k : Nat) :
    ptSum k q = ptSum (k % n) q :=
  calc ptSum k q = ptSum (k / n * n + k % n) q := by rw [Nat.div_add_mod']
    _ = ptSum (k % n) q := by rw [ptSum_add hq, ptSum_mul hq, hn, ptSum_id, ptAdd_id_left]

/-! ### The group -/

/-- The points of the curve (R140). -/
abbrev CurvePoint := { q : Point // onCurve q = true }

/-- The opposite point `(P − x, y)` (R141). -/
def CurvePoint.neg (q : CurvePoint) : CurvePoint :=
  ⟨⟨fSub (feOf 0) q.1.x, q.1.y⟩, onCurve_neg q.2⟩

/-- The `k`-fold sum (R144). -/
def CurvePoint.sum (k : Nat) (q : CurvePoint) : CurvePoint := ⟨ptSum k q.1, onCurve_ptSum q.2 k⟩

/-- The group of `PtAdd` on the points of the curve (R141). -/
@[reducible] def curveGroup : AddCommGroup CurvePoint where
  add a b := ⟨ptAdd a.1 b.1, onCurve_ptAdd a.2 b.2⟩
  zero := ⟨idPoint, onCurve_id⟩
  neg := CurvePoint.neg
  nsmul := CurvePoint.sum
  zsmul
    | .ofNat k, q => q.sum k
    | .negSucc k, q => (q.sum (k + 1)).neg
  add_assoc a b c := Subtype.ext (ptAdd_assoc a.2 b.2 c.2)
  add_comm a b := Subtype.ext (ptAdd_comm a.1 b.1)
  zero_add a := Subtype.ext (ptAdd_id_left a.1)
  add_zero a := Subtype.ext (ptAdd_id_right a.1)
  neg_add_cancel a := Subtype.ext ((ptAdd_comm _ _).trans (ptAdd_neg a.2))

/-- A multiple in the group is the `k`-fold sum of R144. -/
theorem curveGroup_nsmul_eq_zero_iff (k : Nat) (q : CurvePoint) :
    letI := curveGroup
    k • q = 0 ↔ ptSum k q.1 = idPoint := Subtype.ext_iff

/-! ### Points of order `L` and of order 8 -/

theorem ptSum_groupOrder_basePoint : ptSum groupOrder basePoint = idPoint := by
  have hladder : ptMul (BitVec.ofNat 256 groupOrder) basePoint = idPoint := by decide +kernel
  rwa [ptMul_eq_ptSum onCurve_base] at hladder

theorem addOrderOf_basePoint :
    letI := curveGroup
    addOrderOf (⟨basePoint, onCurve_base⟩ : CurvePoint) = groupOrder := by
  let := curveGroup
  have : Fact groupOrder.Prime := ⟨prime_L⟩
  refine addOrderOf_eq_prime ((curveGroup_nsmul_eq_zero_iff _ _).2 ptSum_groupOrder_basePoint) fun h => ?_
  exact absurd (congrArg Subtype.val h) (by decide +kernel)

/-- One of the four points of order 8. -/
def pointOfOrder8 : Point where
  x := feOf 0x1fd5b9a006394a28e933993238de4abb5c193c7013e5e238dea14646c545d14a
  y := feOf 0x05fc536d880238b13933c6d305acdfd5f098eff289f4c345b027b2c28f95e826

theorem onCurve_pointOfOrder8 : onCurve pointOfOrder8 = true := by decide +kernel

theorem addOrderOf_pointOfOrder8 :
    letI := curveGroup
    addOrderOf (⟨pointOfOrder8, onCurve_pointOfOrder8⟩ : CurvePoint) = 8 := by
  let := curveGroup
  refine addOrderOf_eq_prime_pow (p := 2) (n := 2) ?_ ?_
  · rw [curveGroup_nsmul_eq_zero_iff]
    decide +kernel
  · rw [curveGroup_nsmul_eq_zero_iff]
    decide +kernel

/-! ### The order of the group -/

/-- A point of the curve is its 32 bytes, a number of 256 bits. -/
theorem packed_injective :
    Function.Injective fun q : CurvePoint => (scalarOfBytes (ptEnc q.1)).toFin := by
  intro a b h
  have hn : leNat (ptEnc a.1) = leNat (ptEnc b.1) := by
    rw [← toNat_scalarOfBytes (ptEnc_length a.1), ← toNat_scalarOfBytes (ptEnc_length b.1)]
    exact congrArg Fin.val h
  have hlen : (ptEnc a.1).length = (ptEnc b.1).length := by rw [ptEnc_length, ptEnc_length]
  exact Subtype.ext ((ptEnc_inj a.2 b.2).1 ((eq_iff_leNat_eq hlen).2 hn))

theorem finite_curvePoint : Finite CurvePoint := Finite.of_injective _ packed_injective

theorem card_curvePoint_le : Nat.card CurvePoint ≤ 2 ^ 256 := by
  simpa using Nat.card_le_card_of_injective _ packed_injective

/-- Two elements of coprime orders whose product exceeds half the order of the group generate it. -/
theorem card_eq_of_coprime_addOrderOf {G : Type} [AddCommGroup G] [Finite G] {a b : G}
    (hab : (addOrderOf a).Coprime (addOrderOf b))
    (hcard : Nat.card G < 2 * (addOrderOf a * addOrderOf b)) :
    Nat.card G = addOrderOf a * addOrderOf b ∧ IsAddCyclic G := by
  have hord := (AddCommute.all a b).addOrderOf_add_eq_mul_addOrderOf_of_coprime hab
  obtain ⟨c, hc⟩ := addOrderOf_dvd_natCard (a + b)
  have hle := Nat.le_of_dvd Nat.card_pos (addOrderOf_dvd_natCard (a + b))
  rw [← hord] at hcard ⊢
  have hone : c = 1 := by
    have hpos : 0 < Nat.card G := Nat.card_pos
    rw [hc] at hcard hpos
    have : c < 2 := lt_of_mul_lt_mul_left (by rwa [mul_comm 2] at hcard) (Nat.zero_le _)
    have : 0 < c := Nat.pos_of_mul_pos_left hpos
    omega
  rw [hone, mul_one] at hc
  exact ⟨hc, isAddCyclic_of_addOrderOf_eq_card (a + b) hc.symm⟩

/-- The points of the curve are a cyclic group of `8·L` elements (R141): `16·L` is above `2^256`. -/
theorem card_and_isAddCyclic_curvePoint :
    letI := curveGroup
    Nat.card CurvePoint = 8 * groupOrder ∧ IsAddCyclic CurvePoint := by
  let := curveGroup
  have := finite_curvePoint
  have h := card_eq_of_coprime_addOrderOf (a := (⟨pointOfOrder8, onCurve_pointOfOrder8⟩ : CurvePoint))
    (b := ⟨basePoint, onCurve_base⟩)
  rw [addOrderOf_pointOfOrder8, addOrderOf_basePoint] at h
  exact h (by decide +kernel) (card_curvePoint_le.trans_lt (by norm_num [groupOrder]))

theorem card_curvePoint : Nat.card CurvePoint = 8 * groupOrder := card_and_isAddCyclic_curvePoint.1

theorem ptSum_card {q : Point} (hq : onCurve q = true) : ptSum (8 * groupOrder) q = idPoint := by
  let := curveGroup
  rw [← card_curvePoint]
  exact (curveGroup_nsmul_eq_zero_iff _ ⟨q, hq⟩).1 card_nsmul_eq_zero'

/-- How many points of the curve have `n`-fold sum ID: the kernel of multiplication by `n` in a cyclic
group. -/
theorem card_ptSum_eq_id (n : Nat) :
    Nat.card { q : Point // onCurve q = true ∧ ptSum n q = idPoint } = (8 * groupOrder).gcd n := by
  let := curveGroup
  have := finite_curvePoint
  have := card_and_isAddCyclic_curvePoint.2
  rw [← card_curvePoint, ← IsAddCyclic.card_nsmulAddMonoidHom_ker]
  refine Nat.card_congr ((Equiv.subtypeSubtypeEquivSubtypeInter _ _).symm.trans
    (Equiv.subtypeEquivRight fun q => ?_))
  exact (curveGroup_nsmul_eq_zero_iff n q).symm

/-! ### The base point (R143) -/

theorem ptSum_basePoint_ne_id {k : Nat} (h0 : 0 < k) (hk : k < groupOrder) :
    ptSum k basePoint ≠ idPoint := by
  let := curveGroup
  intro h
  have hdvd := addOrderOf_dvd_of_nsmul_eq_zero
    ((curveGroup_nsmul_eq_zero_iff k ⟨basePoint, onCurve_base⟩).2 h)
  rw [addOrderOf_basePoint] at hdvd
  exact absurd (Nat.le_of_dvd h0 hdvd) (Nat.not_le.2 hk)

/-- Settles O47: the closed facts by evaluation, the order by the ladder and by the primality of `L`. -/
theorem basePointHasOrderL : Obligations.BasePointHasOrderL :=
  ⟨rfl, by decide +kernel, by decide +kernel, onCurve_base, ptSum_groupOrder_basePoint,
    fun _ => ptSum_basePoint_ne_id, by decide +kernel⟩

/-! ### The points of order 2 and 4 (R161) -/

theorem onCurve_order2 : onCurve ⟨feOf 0, feOf (P - 1)⟩ = true := by decide +kernel

theorem onCurve_order4 : onCurve ⟨sqrtM1, feOf 0⟩ = true := by decide +kernel

theorem ptSum_two_order2 : ptSum 2 ⟨feOf 0, feOf (P - 1)⟩ = idPoint := by decide +kernel

theorem ptSum_four_order4 : ptSum 4 ⟨sqrtM1, feOf 0⟩ = idPoint := by decide +kernel

/-- `L` is odd. -/
theorem ptSum_groupOrder_order2 :
    ptSum groupOrder ⟨feOf 0, feOf (P - 1)⟩ = ⟨feOf 0, feOf (P - 1)⟩ := by
  rw [ptSum_mod onCurve_order2 ptSum_two_order2, show groupOrder % 2 = 1 by norm_num [groupOrder],
    ptSum_one]

/-- `L` is 1 modulo 4. -/
theorem ptSum_groupOrder_order4 : ptSum groupOrder ⟨sqrtM1, feOf 0⟩ = ⟨sqrtM1, feOf 0⟩ := by
  rw [ptSum_mod onCurve_order4 ptSum_four_order4, show groupOrder % 4 = 1 by norm_num [groupOrder],
    ptSum_one]

theorem ptSum_basePoint_mod (k : Nat) : ptSum k basePoint = ptSum (k % groupOrder) basePoint :=
  ptSum_mod onCurve_base ptSum_groupOrder_basePoint k

theorem order2_ne_id : (⟨feOf 0, feOf (P - 1)⟩ : Point) ≠ idPoint := by decide +kernel

/-- Settles O48: the recursion by definition, the ladder by the model's law, what the sums repeat modulo
by the orders of the base point and of the group; the point of order 2 shows that it is not `L`. -/
theorem ptMulIsTheKFoldSum : Obligations.PtMulIsTheKFoldSum := by
  refine ⟨fun _ => rfl, fun _ _ => rfl, fun k q hq => ptMul_eq_ptSum hq k, ptSum_basePoint_mod,
    fun k q hq => ptSum_mod hq (ptSum_card hq) k, ⟨feOf 0, feOf (P - 1)⟩, onCurve_order2, ?_⟩
  rw [ptSum_groupOrder_order2, Nat.mod_self]
  exact order2_ne_id

/-- Settles O54: the listed points by evaluation, their `L`-fold sums by their orders, the number of
points of order dividing 8 by the cyclic group. -/
theorem smallOrderPointsBehaveAsListed : Obligations.SmallOrderPointsBehaveAsListed := by
  refine ⟨by decide +kernel, by decide +kernel, by decide +kernel, by decide +kernel, onCurve_id,
    onCurve_order2, onCurve_order4, onCurve_neg onCurve_order4, ptSum_id 1, ptSum_two_order2,
    by decide +kernel, ptSum_four_order4, by decide +kernel, ptSum_groupOrder_order2,
    ptSum_groupOrder_order4, ?_, ?_⟩
  · rw [Nat.mod_self]
    rfl
  · rw [card_ptSum_eq_id]
    norm_num [groupOrder]

end Sys2Proof.Laws
end

section
/-!
The square root of `u/v` (42_point R151) and the decoding of points (R150, R152).
-/

namespace Sys2Proof.Laws

open Sys2Proof.Machine

/-! ### The square root (R151) -/

/-- Division by a non-zero `v`, in `ZMod P`. -/
theorem fMul_self_eq_ratio_iff {u v x : Fe} (hv : v ≠ feOf 0) :
    fMul x x = fMul u (fInv v) ↔ toZ v * toZ x ^ 2 = toZ u := by
  have := fact_prime_P
  have hv0 : toZ v ≠ 0 := mt toZ_eq_zero.1 hv
  rw [← toZ_inj, toZ_fMul, toZ_fMul, toZ_fInv, eq_mul_inv_iff_mul_eq₀ hv0, ← pow_two, mul_comm]

theorem sqrtRatio_sq {u v x0 : Fe} (hv : v ≠ feOf 0) (h : sqrtRatio u v = some x0) :
    fMul x0 x0 = fMul u (fInv v) := (fMul_self_eq_ratio_iff hv).2 (sqrtRatio_sound h)

/-- None is answered exactly when there is no root. -/
theorem sqrtRatio_eq_none_iff {u v : Fe} (hu : u ≠ feOf 0) (hv : v ≠ feOf 0) :
    sqrtRatio u v = none ↔ ∀ x : Fe, fMul x x ≠ fMul u (fInv v) := by
  have := fact_prime_P
  constructor
  · intro hnone x hx
    rw [fMul_self_eq_ratio_iff hv] at hx
    have hx0 : toZ x ≠ 0 := by
      intro h
      rw [h, zero_pow two_ne_zero, mul_zero] at hx
      exact hu (toZ_eq_zero.1 hx.symm)
    obtain ⟨x0, hsome⟩ := sqrtRatio_complete hx0 (mt toZ_eq_zero.1 hv) (by rw [← hx, mul_comm])
    rw [hnone] at hsome
    cases hsome
  · intro hno
    rw [Option.eq_none_iff_forall_ne_some]
    exact fun x0 hx0 => hno x0 (sqrtRatio_sq hv hx0)

/-- The roots are the one found and its opposite. -/
theorem root_of_ratio_iff {u v x0 : Fe} (hv : v ≠ feOf 0) (h : sqrtRatio u v = some x0) (x : Fe) :
    fMul x x = fMul u (fInv v) ↔ x = x0 ∨ x = fSub (feOf 0) x0 := by
  have := fact_prime_P
  rw [← sqrtRatio_sq hv h, ← toZ_inj, toZ_fMul, toZ_fMul, ← toZ_inj, ← toZ_inj, toZ_fSub, toZ_feOf,
    Nat.cast_zero, zero_sub]
  exact mul_self_eq_mul_self_iff

/-- Settles O52: the computation by its definition, its answer by soundness and completeness of the
root. -/
theorem sqrtRatioFindsARootOrThereIsNone : Obligations.SqrtRatioFindsARootOrThereIsNone := by
  refine ⟨?_, fun u v x0 => sqrtRatio_sq, fun u v => sqrtRatio_eq_none_iff,
    fun u v x0 x hv h => root_of_ratio_iff hv h x⟩
  rintro u v c rfl
  rfl

/-! ### What decoding answers (R150) -/

/-- The sign bit of 32 bytes is what stands above their low 255 bits. -/
theorem sign_lt_two {b : List Byte} (hb : b.length = 32) : leNat b / 2 ^ 255 < 2 := by
  have := leNat_lt b
  rw [hb] at this
  omega

theorem sign_eq_mod_two {b : List Byte} (hb : b.length = 32) :
    leNat b / 2 ^ 255 = leNat b / 2 ^ 255 % 2 := (Nat.mod_eq_of_lt (sign_lt_two hb)).symm

/-- The `y` that a byte string encodes (R150). -/
def encodedY (b : List Byte) : Fe := feOf (leNat b % 2 ^ 255)

/-- A `y` that a point with `x = 0` has is no other point's. -/
theorem x_eq_zero_of_onCurve {x y : Fe} (h0 : onCurve ⟨feOf 0, y⟩ = true)
    (h : onCurve ⟨x, y⟩ = true) : x = feOf 0 := by
  simpa [neg_zero_fe] using same_y h h0

/-- What `PtDec` answers is the point of the curve with the encoded `y` whose `x` is zero or has the
parity of the sign bit, unless the parameter rejects it (R152). -/
theorem ptDec_eq_some_iff {reject : Bool} {b : List Byte} {x y : Fe} (hb : b.length = 32) :
    ptDec reject b = some ⟨x, y⟩ ↔ onCurve ⟨x, y⟩ = true ∧ y = encodedY b ∧
      (x ≠ feOf 0 → x.val % 2 = leNat b / 2 ^ 255) ∧
        ¬(x = feOf 0 ∧ leNat b / 2 ^ 255 = 1 ∧ reject = true) := by
  obtain ⟨h0, ⟨hs, hr, hd⟩ | ⟨hkeep, hd⟩⟩ | ⟨hno, hd⟩ | ⟨x', hx', hon', hpar', hd⟩ :=
    ptDec_cases reject b (sign_eq_mod_two hb) (y := encodedY b) rfl <;> rw [hd]
  · refine ⟨nofun, ?_⟩
    rintro ⟨hon, rfl, -, hkeep⟩
    exact absurd ⟨x_eq_zero_of_onCurve h0 hon, hs, hr⟩ hkeep
  · rw [Option.some_inj, Point.mk.injEq]
    constructor
    · rintro ⟨rfl, rfl⟩
      exact ⟨h0, rfl, fun h => absurd rfl h, fun h => hkeep h.2⟩
    · rintro ⟨hon, rfl, -, -⟩
      exact ⟨(x_eq_zero_of_onCurve h0 hon).symm, rfl⟩
  · refine ⟨nofun, ?_⟩
    rintro ⟨hon, rfl, -, -⟩
    exact absurd hon (by simp [hno x])
  · rw [Option.some_inj, Point.mk.injEq]
    constructor
    · rintro ⟨rfl, rfl⟩
      exact ⟨hon', rfl, fun _ => hpar', fun h => hx' h.1⟩
    · rintro ⟨hon, rfl, hpar, -⟩
      have hx : x ≠ feOf 0 := by
        rintro rfl
        exact hx' (x_eq_zero_of_onCurve hon hon')
      exact ⟨eq_of_same_y_parity hon' hon (hpar'.trans (hpar hx).symm), rfl⟩

/-- INVALID is answered exactly when the curve has no point with the encoded `y`, or when its only one
has `x = 0` and the parameter rejects the sign bit. -/
theorem ptDec_eq_none_iff {reject : Bool} {b : List Byte} (hb : b.length = 32) :
    ptDec reject b = none ↔ (∀ x : Fe, onCurve ⟨x, encodedY b⟩ = false) ∨
      (onCurve ⟨feOf 0, encodedY b⟩ = true ∧ leNat b / 2 ^ 255 = 1 ∧ reject = true) := by
  obtain ⟨h0, ⟨hs, hr, hd⟩ | ⟨hkeep, hd⟩⟩ | ⟨hno, hd⟩ | ⟨x, hx, hon, -, hd⟩ :=
    ptDec_cases reject b (sign_eq_mod_two hb) (y := encodedY b) rfl <;> rw [hd]
  · exact iff_of_true rfl (.inr ⟨h0, hs, hr⟩)
  · refine iff_of_false nofun ?_
    rintro (hno | ⟨-, hrej⟩)
    · exact absurd h0 (by simp [hno])
    · exact hkeep hrej
  · exact iff_of_true rfl (.inl hno)
  · refine iff_of_false nofun ?_
    rintro (hno | ⟨h0, -⟩)
    · exact absurd hon (by simp [hno])
    · exact hx (x_eq_zero_of_onCurve h0 hon)

/-! ### Round trips (R150) -/

theorem leNat_ptEnc_mod (q : Point) : leNat (ptEnc q) % 2 ^ 255 = q.y.val := by
  have hy := val_lt_two_pow q.y
  rw [leNat_ptEnc]
  omega

theorem encodedY_ptEnc (q : Point) : encodedY (ptEnc q) = q.y := by
  rw [encodedY, leNat_ptEnc_mod, feOf_self]

theorem sign_ptEnc (q : Point) : leNat (ptEnc q) / 2 ^ 255 = q.x.val % 2 := by
  have hy := val_lt_two_pow q.y
  rw [leNat_ptEnc]
  omega

theorem ptDec_ptEnc (reject : Bool) {q : Point} (hq : onCurve q = true) :
    ptDec reject (ptEnc q) = some q := by
  rw [ptDec_eq_some_iff (ptEnc_length q), sign_ptEnc]
  refine ⟨hq, (encodedY_ptEnc q).symm, fun _ => rfl, ?_⟩
  rintro ⟨hx, hs, -⟩
  rw [hx, val_zero] at hs
  omega

/-- Encoding what was decoded gives the string back exactly when its `y` is reduced and its sign bit is
the parity of `x`. -/
theorem ptEnc_eq_iff {b : List Byte} {q : Point} (hb : b.length = 32) (hy : q.y = encodedY b) :
    ptEnc q = b ↔ leNat b % 2 ^ 255 < P ∧ q.x.val % 2 = leNat b / 2 ^ 255 := by
  have hyv : q.y.val = leNat b % 2 ^ 255 % P := by rw [hy, encodedY, feOf_val]
  have hlt : q.y.val < P := q.y.isLt
  have hlt2 := val_lt_two_pow q.y
  rw [eq_iff_leNat_eq (by rw [ptEnc_length, hb]), leNat_ptEnc]
  constructor
  · intro h
    omega
  · rintro ⟨hcanon, hpar⟩
    rw [Nat.mod_eq_of_lt hcanon] at hyv
    omega

theorem ptEnc_of_ptDec_iff {b : List Byte} {q : Point} (hb : b.length = 32)
    (h : ptDec false b = some q) :
    ptEnc q = b ↔ leNat b % 2 ^ 255 < P ∧ ¬(q.x = feOf 0 ∧ leNat b / 2 ^ 255 = 1) := by
  obtain ⟨-, hy, hpar, -⟩ := (ptDec_eq_some_iff hb).1 h
  have hs := sign_lt_two hb
  rw [ptEnc_eq_iff hb hy]
  refine and_congr_right fun _ => ?_
  by_cases hx : q.x = feOf 0
  · simp only [hx, val_zero, true_and]
    omega
  · simp [hx, hpar hx]

/-- Settles O51: what is decoded and what is not by the two characterisations, the round trips by the
integer of a packed point. -/
theorem ptDecFindsThePointOrThereIsNone : Obligations.PtDecFindsThePointOrThereIsNone := by
  have := fact_prime_P
  refine ⟨fun reject b q hb h => ?_, fun reject b => ptDec_eq_none_iff, fun y => ?_,
    fun reject q => ptDec_ptEnc reject, fun b q => ptEnc_of_ptDec_iff⟩
  · obtain ⟨hon, hy, hpar, -⟩ := (ptDec_eq_some_iff hb).1 h
    exact ⟨hon, by rw [hy]; rfl, hpar⟩
  · rw [Ne, ← toZ_eq_zero]
    simpa using decode_den_ne_zero (toZ y)

/-! ### The inputs with `x = 0` and sign bit 1 (R152) -/

theorem onCurve_x_zero_iff (y : Fe) :
    onCurve ⟨feOf 0, y⟩ = true ↔ y = feOf 1 ∨ y = feOf (P - 1) := by
  have := fact_prime_P
  have hsq : onCurve ⟨feOf 0, y⟩ = true ↔ toZ y ^ 2 = 1 := by
    rw [onCurve_iff_square, toZ_feOf, Nat.cast_zero, zero_pow two_ne_zero, mul_zero, eq_comm,
      sub_eq_zero]
  rw [hsq, sq_eq_one_iff, ← toZ_inj, ← toZ_inj, toZ_neg_one, toZ_feOf, Nat.cast_one]

/-- The three strings of R152. -/
def IsXZeroSignOne (b : List Byte) : Prop :=
  b = 0x01 :: List.replicate 30 0x00 ++ [0x80] ∨ b = 0xEE :: List.replicate 31 0xFF ∨
    b = 0xEC :: List.replicate 31 0xFF

/-- The three strings as integers: above the sign bit they are 1, `P + 1` and `P − 1`. -/
theorem isXZeroSignOne_iff_leNat {b : List Byte} (hb : b.length = 32) :
    IsXZeroSignOne b ↔
      leNat b = 2 ^ 255 + 1 ∨ leNat b = 2 ^ 255 + (P + 1) ∨ leNat b = 2 ^ 255 + (P - 1) := by
  have h1 : leNat (0x01 :: List.replicate 30 0x00 ++ [0x80]) = 2 ^ 255 + 1 := by decide
  have h2 : leNat (0xEE :: List.replicate 31 0xFF) = 2 ^ 255 + (P + 1) := by decide
  have h3 : leNat (0xEC :: List.replicate 31 0xFF) = 2 ^ 255 + (P - 1) := by decide
  rw [IsXZeroSignOne, eq_iff_leNat_eq (by simp [hb]), eq_iff_leNat_eq (by simp [hb]),
    eq_iff_leNat_eq (by simp [hb]), h1, h2, h3]

/-- Below `2^255` the residues 1 and `P − 1` are those of 1, `P + 1` and `P − 1`. -/
theorem x_zero_sign_one_iff {b : List Byte} (hb : b.length = 32) :
    onCurve ⟨feOf 0, encodedY b⟩ = true ∧ leNat b / 2 ^ 255 = 1 ↔ IsXZeroSignOne b := by
  rw [isXZeroSignOne_iff_leNat hb, onCurve_x_zero_iff, encodedY, Fin.ext_iff, Fin.ext_iff, feOf_val,
    feOf_val, feOf_val]
  simp only [P]
  omega

theorem IsXZeroSignOne.length {b : List Byte} (h : IsXZeroSignOne b) : b.length = 32 := by
  obtain rfl | rfl | rfl := h <;> simp

/-- Without such an input the parameter is not looked at. -/
theorem ptDec_true_eq_false {b : List Byte} (hb : b.length = 32)
    (h : ¬(onCurve ⟨feOf 0, encodedY b⟩ = true ∧ leNat b / 2 ^ 255 = 1)) :
    ptDec true b = ptDec false b := by
  apply Option.ext
  rintro ⟨x, y⟩
  rw [ptDec_eq_some_iff hb, ptDec_eq_some_iff hb]
  refine and_congr_right fun hon => and_congr_right fun hy => and_congr_right fun _ => ?_
  refine iff_of_true ?_ (by simp)
  rintro ⟨rfl, hs, -⟩
  exact h ⟨hy ▸ hon, hs⟩

/-- Settles O53: the curve equation at `x = 0`, the three strings as integers, the decoding by its
characterisations. -/
theorem threeInputsHaveXZeroAndSignOne : Obligations.ThreeInputsHaveXZeroAndSignOne := by
  refine ⟨rfl, onCurve_x_zero_iff, fun b => x_zero_sign_one_iff, fun b h => ?_,
    fun b => ptDec_true_eq_false⟩
  have hb := IsXZeroSignOne.length h
  obtain ⟨hon, hs⟩ := (x_zero_sign_one_iff hb).2 h
  exact ⟨(ptDec_eq_some_iff hb).2 ⟨hon, rfl, fun hx => absurd rfl hx, by simp⟩,
    (ptDec_eq_none_iff hb).2 (.inr ⟨hon, hs, rfl⟩)⟩

end Sys2Proof.Laws
end

section
/-!
The point commands (42_point R153 to R160). PDBL and PMOV share a body of one source; each command is
`State.command` of its body, so its meaning is read off the body's answer.
-/

namespace Sys2Proof.Machine

open Laws

/-! ### Operands -/

section Operands

variable {s : State} {r : PReg}

theorem State.pointAt_of_empty (h : s.p.get r.toFin = .empty) :
    s.pointAt r = .error .emptyRegister := (s.pointAt_eq_error r _).2 (.inl ⟨h, rfl⟩)

theorem State.pointAt_of_invalid (h : s.p.get r.toFin = .invalid) :
    s.pointAt r = .error .invalidPointOperand := (s.pointAt_eq_error r _).2 (.inr ⟨h, rfl⟩)

theorem State.pointAt_of_valid {q : Point} (h : s.p.get r.toFin = .valid q) :
    s.pointAt r = .ok q := (s.pointAt_eq_ok r q).2 h

theorem State.sourceEmpty_p : s.sourceEmpty (.p r) = true ↔ s.p.get r.toFin = .empty := beq_iff_eq

theorem State.sourceEmpty_s {k : SReg} : s.sourceEmpty (.s k) = true ↔ s.s.get k.toFin = .empty :=
  beq_iff_eq

/-- The first check loop of 30_encoding R78 over two sources. -/
theorem State.present_pair_of_empty {a b : Source}
    (h : s.sourceEmpty a = true ∨ s.sourceEmpty b = true) :
    s.present [a, b] = .error .emptyRegister :=
  (s.present_eq_error _ _).2 ⟨by simpa using h, rfl⟩

theorem State.present_pair_of_not_empty {a b : Source} (ha : ¬s.sourceEmpty a = true)
    (hb : ¬s.sourceEmpty b = true) : s.present [a, b] = .ok () :=
  (s.present_eq_ok _ _).2 (by simp [ha, hb])

end Operands

/-! ### PADD, PDBL, PMOV, PLDB (R153, R154, R157, R158) -/

/-- The body of PDBL and PMOV, for their operation. -/
def State.pointUnary (s : State) (op : Point → Point) (pd ps1 : PReg) : Except Cause State := do
  let q ← s.pointAt ps1
  return s.setP pd (.valid (op q))

theorem exec_pdbl (pd ps1 : PReg) (s : State) :
    exec (.pdbl pd ps1) s = s.command (.pdbl pd ps1) (s.pointUnary (fun q => ptAdd q q) pd ps1) := rfl
theorem exec_pmov (pd ps1 : PReg) (s : State) :
    exec (.pmov pd ps1) s = s.command (.pmov pd ps1) (s.pointUnary id pd ps1) := rfl

section Additions

variable {s : State} {pd ps1 ps2 : PReg} {q q1 q2 : Point}

theorem State.pointUnary_of_valid (op : Point → Point) (h : s.p.get ps1.toFin = .valid q) :
    s.pointUnary op pd ps1 = .ok (s.setP pd (.valid (op q))) := by
  rw [State.pointUnary, State.pointAt_of_valid h]
  rfl

theorem State.pointUnary_of_empty (op : Point → Point) (h : s.p.get ps1.toFin = .empty) :
    s.pointUnary op pd ps1 = .error .emptyRegister := by
  rw [State.pointUnary, State.pointAt_of_empty h]
  rfl

theorem State.pointUnary_of_invalid (op : Point → Point) (h : s.p.get ps1.toFin = .invalid) :
    s.pointUnary op pd ps1 = .error .invalidPointOperand := by
  rw [State.pointUnary, State.pointAt_of_invalid h]
  rfl

/-- An EMPTY source faults before an INVALID one (60_exceptions R217). -/
theorem execPadd_of_empty (he : s.err = false)
    (h : s.p.get ps1.toFin = .empty ∨ s.p.get ps2.toFin = .empty) :
    faultsWith (.padd pd ps1 ps2) s .emptyRegister :=
  s.command_faults _ he (by
    rw [State.present_pair_of_empty (by rwa [State.sourceEmpty_p, State.sourceEmpty_p])]
    rfl)

theorem State.present_of_points (h1 : s.p.get ps1.toFin ≠ .empty) (h2 : s.p.get ps2.toFin ≠ .empty) :
    s.present [.p ps1, .p ps2] = .ok () :=
  State.present_pair_of_not_empty (mt State.sourceEmpty_p.1 h1) (mt State.sourceEmpty_p.1 h2)

/-- An INVALID source faults, whether the other one is read before it or not at all. -/
theorem execPadd_of_invalid (he : s.err = false) (h1 : s.p.get ps1.toFin ≠ .empty)
    (h2 : s.p.get ps2.toFin ≠ .empty)
    (h : s.p.get ps1.toFin = .invalid ∨ s.p.get ps2.toFin = .invalid) :
    faultsWith (.padd pd ps1 ps2) s .invalidPointOperand := by
  refine s.command_faults _ he ?_
  rw [State.present_of_points h1 h2]
  cases hcell : s.p.get ps1.toFin with
  | empty => exact absurd hcell h1
  | invalid =>
    rw [State.pointAt_of_invalid hcell]
    rfl
  | valid q =>
    have hinvalid : s.p.get ps2.toFin = .invalid := h.resolve_left (by simp [hcell])
    rw [State.pointAt_of_valid hcell, State.pointAt_of_invalid hinvalid]
    rfl

theorem execPadd_of_valid (he : s.err = false) (h1 : s.p.get ps1.toFin = .valid q1)
    (h2 : s.p.get ps2.toFin = .valid q2) :
    exec (.padd pd ps1 ps2) s = .next (s.setP pd (.valid (ptAdd q1 q2))) :=
  s.command_completes _ he (by
    rw [State.present_of_points (by simp [h1]) (by simp [h2]), State.pointAt_of_valid h1,
      State.pointAt_of_valid h2]
    rfl)

theorem execPdbl_of_valid (he : s.err = false) (h : s.p.get ps1.toFin = .valid q) :
    exec (.pdbl pd ps1) s = .next (s.setP pd (.valid (ptAdd q q))) :=
  exec_of_body (exec_pdbl ..) he (State.pointUnary_of_valid (fun q => ptAdd q q) h)

theorem execPldb_of_not_err (he : s.err = false) :
    exec (.pldb pd) s = .next (s.setP pd (.valid basePoint)) :=
  s.command_completes (.pldb pd) he rfl

end Additions

/-- Settles O31: the words by the opcode map, the faults and the results by the bodies, the corner cases
by the addition law and, of closed points, by evaluation. -/
theorem paddPdblPmovPldbDoWhatTheirRulesSay : Obligations.PaddPdblPmovPldbDoWhatTheirRulesSay := by
  obtain ⟨-, -, -, -, -, -, -, -, -, -, -, -, -, -, -, -, -, -, -, padd, pdbl, -, -, pmov, pldb, -⟩ :=
    opcodeMapDecodesByOpcode
  refine ⟨padd, pdbl, fun _ _ _ _ => execPadd_of_empty, fun _ _ _ _ => execPadd_of_invalid,
    fun _ _ _ _ _ _ => execPadd_of_valid, fun pd ps1 s he h => ?_, fun pd ps1 s he h => ?_,
    fun pd ps1 q s he h => ⟨execPdbl_of_valid he h, ?_⟩, pmov, pldb, fun pd ps1 s he h => ?_,
    fun pd ps1 s he h => ?_, fun pd ps1 q s he h => ?_, fun _ _ => execPldb_of_not_err,
    ptAdd_id_right, fun q => ptAdd_neg, by decide +kernel, by decide +kernel, by decide +kernel⟩
  · exact faultsWith_of_body (exec_pdbl ..) he (State.pointUnary_of_empty _ h)
  · exact faultsWith_of_body (exec_pdbl ..) he (State.pointUnary_of_invalid _ h)
  · rw [execPdbl_of_valid he h, execPadd_of_valid he h h]
  · exact faultsWith_of_body (exec_pmov ..) he (State.pointUnary_of_empty _ h)
  · exact faultsWith_of_body (exec_pmov ..) he (State.pointUnary_of_invalid _ h)
  · exact exec_of_body (exec_pmov ..) he (State.pointUnary_of_valid id h)

/-! ### PSMUL, PSMULB (R155, R156) -/

section Multiplications

variable {s : State} {pd ps1 : PReg} {sk : SReg} {q : Point} {k : BitVec 256}

/-- A second write to a register replaces the first. -/
theorem State.setP_setP (c d : PointCell) : (s.setP pd c).setP pd d = s.setP pd d := by
  simp [State.setP]

theorem execPsmul_of_empty (he : s.err = false)
    (h : s.p.get ps1.toFin = .empty ∨ s.s.get sk.toFin = .empty) :
    faultsWith (.psmul pd ps1 sk) s .emptyRegister :=
  s.command_faults _ he (by
    rw [State.present_pair_of_empty (by rwa [State.sourceEmpty_p, State.sourceEmpty_s])]
    rfl)

theorem State.present_of_point_scalar (h1 : s.p.get ps1.toFin ≠ .empty) (h2 : s.s.get sk.toFin ≠ .empty) :
    s.present [.p ps1, .s sk] = .ok () :=
  State.present_pair_of_not_empty (mt State.sourceEmpty_p.1 h1) (mt State.sourceEmpty_s.1 h2)

theorem execPsmul_of_invalid (he : s.err = false) (h1 : s.p.get ps1.toFin = .invalid)
    (h2 : s.s.get sk.toFin ≠ .empty) : faultsWith (.psmul pd ps1 sk) s .invalidPointOperand :=
  s.command_faults _ he (by
    rw [State.present_of_point_scalar (by simp [h1]) h2, State.pointAt_of_invalid h1]
    rfl)

theorem execPsmul_of_valid (he : s.err = false) (h1 : s.p.get ps1.toFin = .valid q)
    (h2 : s.s.get sk.toFin = .valid k) :
    exec (.psmul pd ps1 sk) s = .next (s.setP pd (.valid (ptMul k q))) :=
  s.command_completes _ he (by
    rw [State.present_of_point_scalar (by simp [h1]) (by simp [h2]), State.pointAt_of_valid h1,
      State.scalarAt_of_valid h2]
    rfl)

theorem execPsmulb_of_empty (he : s.err = false) (h : s.s.get sk.toFin = .empty) :
    faultsWith (.psmulb pd sk) s .emptyRegister :=
  s.command_faults _ he (by rw [State.scalarAt_of_empty h]; rfl)

theorem execPsmulb_of_valid (he : s.err = false) (h : s.s.get sk.toFin = .valid k) :
    exec (.psmulb pd sk) s = .next (s.setP pd (.valid (ptMul k basePoint))) :=
  s.command_completes _ he (by rw [State.scalarAt_of_valid h]; rfl)

/-- PSMULB is PLDB, then PSMUL (R156). -/
theorem execPsmul_after_pldb (he : s.err = false) (h : s.s.get sk.toFin = .valid k) :
    exec (.psmul pd pd sk) (s.setP pd (.valid basePoint)) = exec (.psmulb pd sk) s := by
  have hbase : (s.setP pd (.valid basePoint)).p.get pd.toFin = .valid basePoint := by simp
  rw [execPsmul_of_valid (s := s.setP pd (.valid basePoint)) he hbase h, execPsmulb_of_valid he h,
    State.setP_setP]

end Multiplications

/-- Settles O32: the words by the opcode map, the faults and the results command by command, the values
by the law of the ladder and the orders of the points. -/
theorem psmulPsmulbDoWhatTheirRulesSay : Obligations.PsmulPsmulbDoWhatTheirRulesSay := by
  obtain ⟨-, -, -, -, -, -, -, -, -, -, -, -, -, -, -, -, -, -, -, -, -, psmul, psmulb, -⟩ :=
    opcodeMapDecodesByOpcode
  refine ⟨psmul, psmulb, fun _ _ _ _ => execPsmul_of_empty, fun _ _ _ _ => execPsmul_of_invalid,
    fun pd ps1 sk q k s he hq hk =>
      ⟨ptMul k q, execPsmul_of_valid he hq hk, fun hon => ptMul_eq_ptSum hon k⟩,
    fun _ _ _ => execPsmulb_of_empty, fun pd sk k s he hk =>
      ⟨?_, _, execPldb_of_not_err he, execPsmul_after_pldb he hk⟩,
    ptSum_basePoint_mod, ptSum_groupOrder_order2⟩
  rw [← ptMul_eq_ptSum onCurve_base, execPsmulb_of_valid he hk]

/-! ### PDEC, PENC (R159, R160) -/

section Packing

variable {s : State} {r : PReg} {addr : Addr} {q : Point}

theorem execPdec_of_lt (he : s.err = false) (h : s.params.dmemSize < addr.toNat + 32) :
    faultsWith (.pdec r addr) s .addressRange :=
  s.command_faults _ he (by rw [State.inDmem_of_lt h]; rfl)

/-- A failed decode is an answer, not a fault. -/
theorem execPdec_of_le {d : Option Point} (he : s.err = false)
    (h : addr.toNat + 32 ≤ s.params.dmemSize)
    (hd : ptDec s.params.x0Sign1Reject (s.dmemRead addr 32) = d) :
    exec (.pdec r addr) s = .next ((s.setP r (decodedCell d)).setPV d.isSome) :=
  s.command_completes _ he (by rw [State.inDmem_of_le h, hd]; rfl)

/-- The source's tag is tested before the range (60_exceptions R217). -/
theorem execPenc_of_empty (he : s.err = false) (h : s.p.get r.toFin = .empty) :
    faultsWith (.penc r addr) s .emptyRegister :=
  s.command_faults _ he (by rw [State.pointAt_of_empty h]; rfl)

theorem execPenc_of_invalid (he : s.err = false) (h : s.p.get r.toFin = .invalid) :
    faultsWith (.penc r addr) s .invalidPointOperand :=
  s.command_faults _ he (by rw [State.pointAt_of_invalid h]; rfl)

theorem execPenc_of_lt (he : s.err = false) (hq : s.p.get r.toFin = .valid q)
    (h : s.params.dmemSize < addr.toNat + 32) : faultsWith (.penc r addr) s .addressRange :=
  s.command_faults _ he (by rw [State.pointAt_of_valid hq, State.inDmem_of_lt h]; rfl)

theorem execPenc_of_le (he : s.err = false) (hq : s.p.get r.toFin = .valid q)
    (h : addr.toNat + 32 ≤ s.params.dmemSize) :
    exec (.penc r addr) s = .next (s.dmemWrite addr (ptEnc q)) :=
  s.command_completes _ he (by rw [State.pointAt_of_valid hq, State.inDmem_of_le h]; rfl)

end Packing

/-- Settles O33: the words by the opcode map, the faults and the results command by command, the bytes
PENC stores by the integer of a packed point. -/
theorem pdecPencDoWhatTheirRulesSay : Obligations.PdecPencDoWhatTheirRulesSay := by
  obtain ⟨-, -, -, -, -, -, -, -, -, -, -, -, -, -, -, -, -, -, -, -, -, -, -, -, -, pdec, penc, -⟩ :=
    opcodeMapDecodesByOpcode
  exact ⟨pdec, penc, fun _ _ _ => execPdec_of_lt, fun _ _ _ => execPdec_of_le,
    fun _ _ _ _ => execPdec_of_le, fun _ _ _ => execPenc_of_empty, fun _ _ _ => execPenc_of_invalid,
    fun _ _ _ _ => execPenc_of_lt, fun _ _ q _ he hq h =>
      ⟨ptEnc q, ptEnc_length q, leNat_ptEnc q, (leNat_ptEnc_mod q).trans_lt q.y.isLt,
        execPenc_of_le he hq h⟩⟩

end Sys2Proof.Machine
end

section
/-!
The hash-port commands (43_hash_port R171 to R174). Nothing about `Config.hash512` is used but that it
answers 64 bytes, so the results hold of every hash function.
-/

namespace Sys2Proof.Machine

open Laws

section HashPort

variable {s : State} {addr : Addr}

/-! ### HINIT, HUPD, HUPDM (R171 to R173) -/

theorem execHinit_of_not_err (he : s.err = false) :
    exec .hinit s = .next { s with hbuf := [] } := s.command_completes .hinit he rfl

theorem execHupd_of_lt (he : s.err = false) (h : s.params.dmemSize < addr.toNat + 32) :
    faultsWith (.hupd addr) s .addressRange :=
  s.command_faults _ he (by rw [State.inDmem_of_lt h]; rfl)

theorem execHupd_of_le (he : s.err = false) (h : addr.toNat + 32 ≤ s.params.dmemSize) :
    exec (.hupd addr) s = .next { s with hbuf := s.hbuf ++ s.dmemRead addr 32 } :=
  s.command_completes _ he (by rw [State.inDmem_of_le h]; rfl)

theorem execHupdm_of_not_err (he : s.err = false) :
    exec .hupdm s = .next { s with hbuf := s.hbuf ++ s.message } := s.command_completes .hupdm he rfl

theorem State.message_of_mlen_eq_zero (h : s.mlen = 0) : s.message = [] := by
  rw [State.message, h]
  rfl

/-- HUPDM with `MLEN` 0 appends the empty string (R173). -/
theorem execHupdm_of_mlen_eq_zero (he : s.err = false) (h : s.mlen = 0) :
    exec .hupdm s = .next s := by
  rw [execHupdm_of_not_err he, State.message_of_mlen_eq_zero h, List.append_nil]

/-! ### HFIN (R174) -/

theorem execHfin_of_lt (he : s.err = false) (h : s.params.dmemSize < addr.toNat + 64) :
    faultsWith (.hfin addr) s .addressRange :=
  s.command_faults _ he (by rw [State.inDmem_of_lt h]; rfl)

theorem execHfin_of_le (he : s.err = false) (h : addr.toNat + 64 ≤ s.params.dmemSize) :
    exec (.hfin addr) s = .next ((s.dmemWrite addr (Config.hash512 s.hbuf).toList).setHbuf []) :=
  s.command_completes _ he (by rw [State.inDmem_of_le h]; rfl)

end HashPort

/-- The bytes of a digest read back from where they were written. -/
theorem State.dmemRead_dmemWrite_digest (s : State) (addr : Addr) (d : Vector Byte 64) :
    (s.dmemWrite addr d.toList).dmemRead addr 64 = d.toList := by
  have h := s.dmemRead_dmemWrite_same addr d.toList
  rwa [Vector.length_toList] at h

/-- A byte outside the 64 where a digest was written reads as before. -/
theorem State.dmemByte_dmemWrite_digest (s : State) (addr : Addr) (d : Vector Byte 64) {x : Nat}
    (h : x < addr.toNat ∨ addr.toNat + 64 ≤ x) :
    (s.dmemWrite addr d.toList).dmemByte x = s.dmemByte x :=
  s.dmemByte_dmemWrite_outside addr d.toList x (by rwa [Vector.length_toList])

/-- Settles O34: the words by the opcode map, the faults and the results command by command, the bytes
HFIN stores by the rules of a memory write, which emptying `HBUF` does not touch. -/
theorem hashPortCommandsDoWhatTheirRulesSay : Obligations.HashPortCommandsDoWhatTheirRulesSay := by
  obtain ⟨-, -, -, -, -, -, -, -, -, -, -, -, -, -, -, -, -, -, -, -, -, -, -, -, -, -, -, hinit, hupd,
    hupdm, hfin, -⟩ := opcodeMapDecodesByOpcode
  refine ⟨hinit, hupd, hupdm, hfin, fun _ => execHinit_of_not_err, fun _ _ => execHupd_of_lt,
    fun _ _ => execHupd_of_le, fun _ => execHupdm_of_not_err, fun _ => execHupdm_of_mlen_eq_zero,
    fun _ _ => execHfin_of_lt, fun addr s he h => ⟨_, execHfin_of_le he h, ?digest, ?frame, rfl⟩⟩
  case digest =>
    calc ((s.dmemWrite addr (Config.hash512 s.hbuf).toList).setHbuf []).dmemRead addr 64
        = (s.dmemWrite addr (Config.hash512 s.hbuf).toList).dmemRead addr 64 :=
          State.dmemRead_congr rfl rfl addr 64
      _ = (Config.hash512 s.hbuf).toList := s.dmemRead_dmemWrite_digest addr _
  case frame =>
    intro x hx
    calc ((s.dmemWrite addr (Config.hash512 s.hbuf).toList).setHbuf []).dmemByte x
        = (s.dmemWrite addr (Config.hash512 s.hbuf).toList).dmemByte x :=
          State.dmemByte_congr rfl rfl x
      _ = s.dmemByte x := s.dmemByte_dmemWrite_digest addr _ hx

end Sys2Proof.Machine
end

section
/-!
The functions of the signature scheme (44_pipeline R180 to R183) in the natural numbers, for every hash
function: scalars become their numbers, and `PtMul` the `k`-fold sum, since the base point and every
decoded point lie on the curve.
-/

namespace Sys2Proof.Laws

open Sys2Proof.Machine

/-! ### Key expansion and derivation (R180, R181) -/

/-- The secret scalar is the first half of the hash, clamped (R180). -/
theorem toNat_expandKey (hash : HashFn) (sk : List Byte) :
    (expandKey hash sk).1.toNat =
      (leNat ((hash sk).toList.take 32) &&& (2 ^ 255 - 8)) ||| 2 ^ 254 := by
  rw [expandKey, toNat_clamp, toNat_scalarOfBytes (by simp)]

theorem derivePub_eq_ptSum (hash : HashFn) (sk : List Byte) :
    derivePub hash sk = ptEnc (ptSum (expandKey hash sk).1.toNat basePoint) := by
  rw [derivePub, ptMul_eq_ptSum onCurve_base]

/-- Settles O55: the two halves of the hash by `expandKey`, the scalar's range by clamping, the public
key by the ladder that computes the sum. -/
theorem keyExpansionAndDerivation : Obligations.KeyExpansionAndDerivation := fun hash sk =>
  ⟨toNat_expandKey hash sk, two_pow_254_le_clamp _, clamp_lt_two_pow_255 _, clamp_mod_eight _, rfl,
    expandKey_length hash sk, derivePub_eq_ptSum hash sk, derivePub_length hash sk⟩

/-! ### Signing (R182) -/

/-- The six steps of signing, each value given by its own equation in the natural numbers. -/
theorem signMsg_eq_append (hash : HashFn) (pub sk m : List Byte) {r sPre : Nat} {bigR : List Byte}
    (hr : r = leNat (hash ((expandKey hash sk).2 ++ m)).toList % groupOrder)
    (hR : bigR = ptEnc (ptSum r basePoint))
    (hs : sPre = leNat (hash (bigR ++ pub ++ m)).toList % groupOrder) :
    signMsg hash pub sk m =
      bigR ++ bytesLE 32 ((r + sPre * (expandKey hash sk).1.toNat) % groupOrder) := by
  subst hr hR hs
  simp only [signMsg, scalarBytes, toNat_scRed, toNat_hashScalar, ptMul_eq_ptSum onCurve_base]

/-! ### Verification (R183) -/

section Verification

variable {hash : HashFn} {reject : Bool} {sig pub m : List Byte}

/-- Acceptance: both points decode, `S` is canonical, and the two encodings are equal (R183). -/
theorem verifySig_eq_true_iff (hsig : sig.length = 64) :
    verifySig hash reject sig pub m = true ↔ ∃ rp a : Point,
      ptDec reject (sig.take 32) = some rp ∧ ptDec reject pub = some a ∧
      leNat (sig.drop 32) < groupOrder ∧
      ptEnc (ptSum (leNat (sig.drop 32)) basePoint) = ptEnc (ptAdd rp
        (ptSum (leNat (hash (sig.take 32 ++ pub ++ m)).toList % groupOrder) a)) := by
  have hS : (sig.drop 32).length = 32 := by rw [List.length_drop, hsig]
  rw [verifySig, whenBothDecode_eq_true]
  refine exists_congr fun rp => exists_congr fun a => and_congr_right fun _ =>
    and_congr_right fun ha => ?_
  rw [Bool.and_eq_true, scalarCanonical_iff, beq_iff_eq, ptMul_eq_ptSum onCurve_base,
    ptMul_eq_ptSum (onCurve_ptDec ha), toNat_scalarOfBytes hS, toNat_hashScalar]

/-- With both points decoded and `S` canonical, acceptance is equality of the two points: both lie on
the curve, where an encoding determines the point. -/
theorem verifySig_eq_true_iff_points {rp a : Point} (hsig : sig.length = 64)
    (hr : ptDec reject (sig.take 32) = some rp) (ha : ptDec reject pub = some a)
    (hS : leNat (sig.drop 32) < groupOrder) :
    verifySig hash reject sig pub m = true ↔ ptSum (leNat (sig.drop 32)) basePoint =
      ptAdd rp (ptSum (leNat (hash (sig.take 32 ++ pub ++ m)).toList % groupOrder) a) := by
  have sides (k : Nat) := ptEnc_inj (onCurve_ptSum onCurve_base (leNat (sig.drop 32)))
    (onCurve_ptAdd (onCurve_ptDec hr) (onCurve_ptSum (onCurve_ptDec ha) k))
  rw [verifySig_eq_true_iff hsig, ← sides]
  constructor
  · rintro ⟨rp', a', hr', ha', -, h⟩
    obtain rfl : rp = rp' := Option.some.inj (hr.symm.trans hr')
    obtain rfl : a = a' := Option.some.inj (ha.symm.trans ha')
    exact h
  · exact fun h => ⟨rp, a, hr, ha, hS, h⟩

/-- `R = ID`, `S = 0` under the key `ID`: both sides of the identity are ID, whatever the hash. -/
theorem verifySig_degenerate :
    verifySig hash reject (ptEnc idPoint ++ bytesLE 32 0) (ptEnc idPoint) m = true := by
  have hR : (ptEnc idPoint ++ bytesLE 32 0).take 32 = ptEnc idPoint :=
    List.take_left' (ptEnc_length _)
  have hS : leNat ((ptEnc idPoint ++ bytesLE 32 0).drop 32) = 0 := by
    rw [List.drop_left' (ptEnc_length _), leNat_bytesLE (by norm_num)]
  have hdec : ptDec reject (ptEnc idPoint) = some idPoint := ptDec_ptEnc reject onCurve_id
  rw [verifySig_eq_true_iff_points (by simp [ptEnc_length]) (by rw [hR, hdec]) hdec
    (by rw [hS]; exact groupOrder_pos), hS, ptSum_id, ptAdd_id_left]
  rfl

end Verification

/-- Settles O56: acceptance by the steps of verification, equality of encodings turned into equality of
points, and the degenerate signature by both sides being ID. -/
theorem verificationAcceptsExactlyTheIdentity : Obligations.VerificationAcceptsExactlyTheIdentity :=
  ⟨fun _ _ _ _ _ => verifySig_eq_true_iff, fun _ _ _ _ _ _ _ => verifySig_eq_true_iff_points,
    fun _ _ _ => verifySig_degenerate⟩

end Sys2Proof.Laws
end

section
/-!
The pipeline commands KEYEXP, DERIVE, SIGN and VERIFY (44_pipeline R184 to R187): each checks its ranges
one after another, so it faults as soon as one of them is out of DMEM, and else has the effect its rule
names.
-/

namespace Sys2Proof.Machine

open Laws

section Pipeline

variable {s : State} {sd : SReg} {addr : Addr}

/-- A range check followed by more of a command faults when the range is out of DMEM, or when what
follows faults with the same cause. -/
theorem State.inDmem_bind_of_lt_or {n : Nat} {rest : Except Cause State}
    (h : s.params.dmemSize < addr.toNat + n ∨ rest = .error .addressRange) :
    (s.inDmem addr n >>= fun _ => rest) = .error .addressRange := by
  by_cases hlt : s.params.dmemSize < addr.toNat + n
  · rw [State.inDmem_of_lt hlt]
    rfl
  · rw [State.inDmem_of_le (Nat.not_lt.1 hlt)]
    exact h.resolve_left hlt

theorem State.inDmem_pair_of_lt {addr2 : Addr} {n n2 : Nat} {rest : Except Cause State}
    (h : s.params.dmemSize < addr.toNat + n ∨ s.params.dmemSize < addr2.toNat + n2) :
    (s.inDmem addr n >>= fun _ => s.inDmem addr2 n2 >>= fun _ => rest) = .error .addressRange :=
  State.inDmem_bind_of_lt_or (h.imp_right fun h2 => State.inDmem_bind_of_lt_or (.inl h2))

/-! ### KEYEXP, DERIVE (R184, R185) -/

theorem execKeyexp_of_lt (he : s.err = false)
    (h : s.params.dmemSize < s.skptr.toNat + 32 ∨ s.params.dmemSize < addr.toNat + 32) :
    faultsWith (.keyexp sd addr) s .addressRange :=
  s.command_faults _ he (State.inDmem_pair_of_lt h)

theorem execKeyexp_of_le (he : s.err = false) (hsk : s.skptr.toNat + 32 ≤ s.params.dmemSize)
    (haddr : addr.toNat + 32 ≤ s.params.dmemSize) :
    exec (.keyexp sd addr) s =
      .next ((s.setS sd (expandKey Config.hash512 (s.dmemRead s.skptr 32)).1).dmemWrite addr
        (expandKey Config.hash512 (s.dmemRead s.skptr 32)).2) :=
  s.command_completes _ he (by rw [State.inDmem_of_le hsk, State.inDmem_of_le haddr]; rfl)

/-- The 32 bytes at `addr` are then the nonce seed. -/
theorem State.dmemRead_dmemWrite_nonceSeed (s : State) (addr : Addr) (hash : HashFn) (sk : List Byte) :
    (s.dmemWrite addr (expandKey hash sk).2).dmemRead addr 32 = (expandKey hash sk).2 := by
  have h := s.dmemRead_dmemWrite_same addr (expandKey hash sk).2
  rwa [expandKey_length] at h

theorem execDerive_of_lt (he : s.err = false)
    (h : s.params.dmemSize < s.skptr.toNat + 32 ∨ s.params.dmemSize < s.pkptr.toNat + 32) :
    faultsWith .derive s .addressRange :=
  s.command_faults _ he (State.inDmem_pair_of_lt h)

theorem execDerive_of_le (he : s.err = false) (hsk : s.skptr.toNat + 32 ≤ s.params.dmemSize)
    (hpk : s.pkptr.toNat + 32 ≤ s.params.dmemSize) :
    exec .derive s =
      .next (s.dmemWrite s.pkptr (derivePub Config.hash512 (s.dmemRead s.skptr 32))) :=
  s.command_completes _ he (by rw [State.inDmem_of_le hsk, State.inDmem_of_le hpk]; rfl)

/-! ### SIGN, VERIFY (R186, R187) -/

theorem execSign_of_lt (he : s.err = false)
    (h : s.params.dmemSize < s.skptr.toNat + 32 ∨ s.params.dmemSize < s.pkptr.toNat + 32 ∨
      s.params.dmemSize < s.sgptr.toNat + 64) : faultsWith .sign s .addressRange :=
  s.command_faults _ he (State.inDmem_bind_of_lt_or (h.imp_right State.inDmem_pair_of_lt))

theorem execSign_of_le (he : s.err = false) (hsk : s.skptr.toNat + 32 ≤ s.params.dmemSize)
    (hpk : s.pkptr.toNat + 32 ≤ s.params.dmemSize) (hsg : s.sgptr.toNat + 64 ≤ s.params.dmemSize) :
    exec .sign s = .next (s.dmemWrite s.sgptr (signMsg Config.hash512
      (s.dmemRead s.pkptr 32) (s.dmemRead s.skptr 32) s.message)) :=
  s.command_completes _ he (by
    rw [State.inDmem_of_le hsk, State.inDmem_of_le hpk, State.inDmem_of_le hsg]; rfl)

theorem execVerify_of_lt (he : s.err = false)
    (h : s.params.dmemSize < s.sgptr.toNat + 64 ∨ s.params.dmemSize < s.pkptr.toNat + 32) :
    faultsWith .verify s .addressRange :=
  s.command_faults _ he (State.inDmem_pair_of_lt h)

/-- VERIFY answers in `V` alone; bad data never faults (R187). -/
theorem execVerify_of_le (he : s.err = false) (hsg : s.sgptr.toNat + 64 ≤ s.params.dmemSize)
    (hpk : s.pkptr.toNat + 32 ≤ s.params.dmemSize) :
    exec .verify s = .next (s.setV (verifySig Config.hash512 s.params.x0Sign1Reject
      (s.dmemRead s.sgptr 64) (s.dmemRead s.pkptr 32) s.message)) :=
  s.command_completes _ he (by rw [State.inDmem_of_le hsg, State.inDmem_of_le hpk]; rfl)

end Pipeline

/-- Settles O35: the words by the opcode map, the faults and the results command by command, the bytes
KEYEXP stores read back by the rules of a memory write. -/
theorem keyexpDeriveDoWhatTheirRulesSay : Obligations.KeyexpDeriveDoWhatTheirRulesSay := by
  obtain ⟨-, -, -, -, -, -, -, -, -, -, -, -, -, -, -, -, -, -, -, -, -, -, -, -, -, -, -, -, -, -, -,
    keyexp, derive, -⟩ := opcodeMapDecodesByOpcode
  exact ⟨keyexp, derive, fun _ _ _ => execKeyexp_of_lt,
    fun _ _ _ he hsk haddr => ⟨_, execKeyexp_of_le he hsk haddr, rfl,
      State.dmemRead_dmemWrite_nonceSeed ..⟩,
    fun _ => execDerive_of_lt, fun _ => execDerive_of_le⟩

/-- Settles O36: the words by the opcode map, the faults and the results command by command, the
signature by its six steps. -/
theorem signVerifyDoWhatTheirRulesSay : Obligations.SignVerifyDoWhatTheirRulesSay := by
  obtain ⟨-, -, -, -, -, -, -, -, -, -, -, -, -, -, -, -, -, -, -, -, -, -, -, -, -, -, -, -, -, -, -,
    -, -, sign, verify, -⟩ := opcodeMapDecodesByOpcode
  exact ⟨sign, verify, fun _ => execSign_of_lt, fun _ => execSign_of_le,
    fun _ => execVerify_of_lt, fun _ => execVerify_of_le,
    fun hash pub sk m => ⟨signMsg_eq_append hash pub sk m rfl rfl rfl,
      signMsg_length hash pub sk m, Nat.mod_lt _ groupOrder_pos⟩⟩

end Sys2Proof.Machine
end

section
/-!
The system commands NOP and CLR (45_system R200, R201) and the host's accesses to the CSR block (R202,
R203): what each returns or leaves, offset by offset, and that the offsets outside the map read 0 and
ignore a write.
-/

namespace Sys2Proof.Machine

section System

variable {s : State} {off : Nat}

/-! ### NOP and CLR (R200, R201) -/

/-- NOP leaves the state, whether it completes or is dropped (R200). -/
theorem execNop_eq (s : State) : exec .nop s = .next s := by
  cases he : s.err with
  | false => exact State.command_completes s .nop he rfl
  | true => exact exec_of_err he .nop

/-! ### A CSR write as an action of the host (R203) -/

/-- A write to `CMD` executes the word and advances the index. -/
theorem perform_csrWrite_cmd (s : State) (v : Word) :
    perform (.csrWrite 0x00 v) s = advancePc (execWord v s) := rfl

/-- A write anywhere else executes nothing. -/
theorem perform_csrWrite_of_ne (h : off ≠ 0x00) (v : Word) :
    perform (.csrWrite off v) s = .next (s.csrWrite off v) := by
  rw [perform, HostAction.wellFormed, if_pos rfl]
  exact if_neg h

/-- Issuing a word that decodes runs the command and advances the index (10_state R31). -/
theorem perform_csrWrite_cmd_of_decode {v : Word} {i : Instr} {t : State} (hv : decode v = some i)
    (ht : exec i s = .next t) : perform (.csrWrite 0x00 v) s = .next t.advance := by
  rw [perform_csrWrite_cmd, execWord, hv]
  exact advancePc_eq_next.2 ⟨t, ht, rfl⟩

/-! ### The CSR maps (R202, R203) -/

theorem State.csrRead_of_notMem
    (h : off ∉ [0x00, 0x04, 0x08, 0x0C, 0x10, 0x14, 0x18, 0x1C, 0x20, 0x24]) :
    s.csrRead off = 0 := by
  unfold State.csrRead
  split
  case h_9 => rfl
  all_goals exact absurd (by decide) h

theorem State.csrWrite_of_notMem (h : off ∉ [0x00, 0x14, 0x18, 0x1C, 0x20, 0x24]) (v : Word) :
    s.csrWrite off v = s := by
  unfold State.csrWrite
  split
  case h_6 => rfl
  all_goals exact absurd (by decide) h

end System

/-- Settles O24: the words by the opcode map, NOP by `execNop_eq`, CLR by `clearWorking` outside the
error state and by dropping in it. -/
theorem nopAndClrDoWhatTheirRulesSay : Obligations.NopAndClrDoWhatTheirRulesSay := by
  obtain ⟨nop, clr, -⟩ := opcodeMapDecodesByOpcode
  exact ⟨nop, clr, execNop_eq,
    fun s => perform_csrWrite_cmd_of_decode (nop 0 rfl) (execNop_eq s),
    fun s he => ⟨s.clearWorking, execClr_of_not_err he, s.clearWorking_f_get, s.clearWorking_s_get,
      s.clearWorking_p_get, rfl⟩,
    fun _ he => exec_of_err he .clr⟩

/-- Settles O15: each row of the map is the model's own arm, read as a number where the register is
narrower than the word, and the offsets of no row by `csrRead_of_notMem`. -/
theorem csrReadsFollowTheMap : Obligations.CsrReadsFollowTheMap := by
  have pointer : ∀ a : Addr, (a.setWidth 32).toNat = a.toNat :=
    fun _ => BitVec.toNat_setWidth_of_le (by decide)
  exact ⟨fun _ => rfl, fun _ => rfl, fun _ => rfl, fun _ => rfl, fun s => s.flags.toNat_word,
    fun _ => rfl, fun _ => rfl, fun s => pointer s.skptr, fun s => pointer s.pkptr,
    fun s => pointer s.sgptr, fun _ _ => State.csrRead_of_notMem⟩

/-- Settles O16: `CMD` executes, every other offset is the plain write of `csrWrite`, whose arms are the
map's rows and which ignores the offsets of no row. -/
theorem csrWritesFollowTheMap : Obligations.CsrWritesFollowTheMap := by
  have ignored : ∀ (s : State) (off : Nat) (v : Word), off ∉ [0x00, 0x14, 0x18, 0x1C, 0x20, 0x24] →
      perform (.csrWrite off v) s = .next s := by
    intro s off v h
    rw [perform_csrWrite_of_ne (List.ne_of_not_mem_cons h), State.csrWrite_of_notMem h]
  exact ⟨perform_csrWrite_cmd, fun _ => perform_csrWrite_of_ne (by decide),
    fun _ => perform_csrWrite_of_ne (by decide), fun _ => perform_csrWrite_of_ne (by decide),
    fun _ => perform_csrWrite_of_ne (by decide), fun _ => perform_csrWrite_of_ne (by decide), ignored⟩

end Sys2Proof.Machine
end

section
/-!
Encoding what a word decodes to gives the word back (30_encoding R71 to R77): a row's mask leaves no bit
of its words outside the fields that the row's command is built from.
-/

namespace Sys2Proof

open Laws Machine

/-! ### Words of each format, by a mask in its layout -/

theorem exists_eq_append {m n : Nat} (w : BitVec (m + n)) :
    ∃ (x : BitVec m) (y : BitVec n), w = x ++ y :=
  ⟨w.extractLsb' n m, w.extractLsb' 0 n, BitVec.extractLsb'_append_extractLsb'.symm⟩

/-- A mask in two parts tests the two parts of a bit string apart. -/
theorem exists_append_of_and {m n : Nat} {w : BitVec (m + n)} {x mx : BitVec m} {y my : BitVec n}
    (h : w &&& (mx ++ my) = x ++ y) :
    ∃ (u : BitVec m) (v : BitVec n), w = u ++ v ∧ u &&& mx = x ∧ v &&& my = y := by
  obtain ⟨u, v, rfl⟩ := exists_eq_append w
  rw [BitVec.and_append, append_eq_append_iff] at h
  exact ⟨u, v, rfl, h⟩

/-- A word of format R whose mask lets only bits of its three register fields vary. -/
theorem exists_eq_encR_of_and {w : Word} {op : BitVec 8} {ma mb mc : BitVec 4}
    (h : w &&& maskR ma mb mc = encR op 0 0 0) :
    ∃ a b c : BitVec 4, w = encR op a b c ∧ a &&& ma = 0 ∧ b &&& mb = 0 ∧ c &&& mc = 0 := by
  obtain ⟨u3, lo, rfl, h3, hlo⟩ := exists_append_of_and (m := 8 + 4 + 4 + 4) (n := 12) h
  obtain ⟨u2, c, rfl, h2, hc⟩ := exists_append_of_and h3
  obtain ⟨u1, b, rfl, h1, hb⟩ := exists_append_of_and h2
  obtain ⟨o, a, rfl, ho, ha⟩ := exists_append_of_and h1
  have ho : o = op := (op_and o).symm.trans ho
  have hlo : lo = 0 := BitVec.and_allOnes.symm.trans hlo
  exact ⟨a, b, c, by rw [ho, hlo]; rfl, ha, hb, hc⟩

/-- A word of format M or I whose mask lets only its immediate and bits of its register field vary. -/
theorem exists_eq_encM_of_and {w : Word} {op : BitVec 8} {mr : BitVec 4}
    (h : w &&& maskM mr = encM op 0 0) :
    ∃ (a : BitVec 4) (imm : BitVec 16), w = encM op a imm ∧ a &&& mr = 0 := by
  obtain ⟨u2, imm, rfl, h2, -⟩ := exists_append_of_and (m := 8 + 4 + 4) (n := 16) h
  obtain ⟨u1, z, rfl, h1, hz⟩ := exists_append_of_and h2
  obtain ⟨o, a, rfl, ho, ha⟩ := exists_append_of_and h1
  have ho : o = op := (op_and o).symm.trans ho
  have hz : z = 0 := BitVec.and_allOnes.symm.trans hz
  exact ⟨a, imm, by rw [ho, hz]; rfl, ha⟩

/-- Format N is format R with every field zero. -/
theorem encN_eq_encR (op : BitVec 8) : encN op = encR op 0 0 0 := by
  revert op
  decide

/-- A 4-bit field whose high bit is zero is a 3-bit index (R76). -/
theorem reg4_setWidth_of_and {a : BitVec 4} (h : a &&& 8#4 = 0#4) : reg4 (a.setWidth 3) = a := by
  revert a
  decide

theorem and_fifteen (a : BitVec 4) : a &&& 15#4 = a := BitVec.and_allOnes

/-! ### The rows -/

/-- From each of its words the row builds the command whose encoding is this word. -/
def OpcodeRow.Rebuilds (r : OpcodeRow) : Prop :=
  ∀ w : Word, r.matchesWord w = true → encode (r.build w) = w

/-- A row of format R or N, by the reserved bits of its three fields: 0 for none (a field register), 8
for the high one (a scalar or point register), 15 for all. -/
theorem OpcodeRow.Rebuilds.ofR {r : OpcodeRow} (ma mb mc : BitVec 4)
    (hmask : r.mask = maskR ma mb mc := by decide)
    (hpattern : r.pattern = encR r.opcode 0 0 0 := by decide)
    (hbuild : ∀ a b c : BitVec 4, a &&& ma = 0 → b &&& mb = 0 → c &&& mc = 0 →
      encode (r.build (encR r.opcode a b c)) = encR r.opcode a b c := by
        simp +contextual [encode, OpcodeRow.opcode, reg4_setWidth_of_and, and_fifteen,
          encN_eq_encR]) : r.Rebuilds := by
  intro w hw
  rw [OpcodeRow.matchesWord, beq_iff_eq, hmask, hpattern] at hw
  obtain ⟨a, b, c, rfl, ha, hb, hc⟩ := exists_eq_encR_of_and hw
  exact hbuild a b c ha hb hc

/-- A row of format M or I, by the reserved bits of its register field. -/
theorem OpcodeRow.Rebuilds.ofM {r : OpcodeRow} (mr : BitVec 4)
    (hmask : r.mask = maskM mr := by decide)
    (hpattern : r.pattern = encM r.opcode 0 0 := by decide)
    (hbuild : ∀ (a : BitVec 4) (imm : BitVec 16), a &&& mr = 0 →
      encode (r.build (encM r.opcode a imm)) = encM r.opcode a imm := by
        simp +contextual [encode, OpcodeRow.opcode, reg4_setWidth_of_and, and_fifteen]) :
    r.Rebuilds := by
  intro w hw
  rw [OpcodeRow.matchesWord, beq_iff_eq, hmask, hpattern] at hw
  obtain ⟨a, imm, rfl, ha⟩ := exists_eq_encM_of_and hw
  exact hbuild a imm ha

theorem rebuilds_systemRows : ∀ r ∈ systemRows, r.Rebuilds := by
  simp only [systemRows, List.forall_mem_cons]
  exact ⟨.ofR 15 15 15, .ofR 15 15 15, nofun⟩

theorem rebuilds_fieldRows : ∀ r ∈ fieldRows, r.Rebuilds := by
  simp only [fieldRows, List.forall_mem_cons]
  exact ⟨.ofR 0 0 0, .ofR 0 0 0, .ofR 0 0 0, .ofR 0 0 15, .ofR 0 0 15, .ofR 0 0 15, .ofM 0, .ofM 0,
    .ofM 0, nofun⟩

theorem rebuilds_scalarRows : ∀ r ∈ scalarRows, r.Rebuilds := by
  simp only [scalarRows, List.forall_mem_cons]
  exact ⟨.ofR 8 8 8, .ofR 8 8 8, .ofR 8 8 15, .ofM 8, .ofM 8, .ofM 8, .ofR 8 8 15, .ofR 15 8 15,
    nofun⟩

theorem rebuilds_pointRows : ∀ r ∈ pointRows, r.Rebuilds := by
  simp only [pointRows, List.forall_mem_cons]
  exact ⟨.ofR 8 8 8, .ofR 8 8 15, .ofR 8 8 8, .ofR 8 15 8, .ofR 8 8 15, .ofR 8 15 15, .ofM 8, .ofM 8,
    nofun⟩

theorem rebuilds_schemeRows : ∀ r ∈ schemeRows, r.Rebuilds := by
  simp only [schemeRows, List.forall_mem_cons]
  exact ⟨.ofR 15 15 15, .ofM 15, .ofR 15 15 15, .ofM 15, .ofM 8, .ofR 15 15 15, .ofR 15 15 15,
    .ofR 15 15 15, nofun⟩

theorem rebuilds_opcodeMap : ∀ r ∈ opcodeMap, r.Rebuilds := by
  simp only [opcodeMap, List.forall_mem_append]
  exact ⟨⟨⟨⟨rebuilds_systemRows, rebuilds_fieldRows⟩, rebuilds_scalarRows⟩, rebuilds_pointRows⟩,
    rebuilds_schemeRows⟩

/-- A command has no word but its encoding. -/
theorem encode_of_decode {w : Word} {i : Instr} (h : decode w = some i) : encode i = w := by
  obtain ⟨r, hr, hw, rfl⟩ := row_of_decode h
  exact rebuilds_opcodeMap r hr w hw

end Sys2Proof
end

section
/-!
Which fault a command raises (60_exceptions R211 to R217): the body of every command is a chain of checks
whose first failure is `faultOf`, and then one write that leaves the fault record alone.
-/

namespace Sys2Proof.Machine

/-! ### Writes that leave the fault record -/

/-- The fault record is the same in both states. -/
def SameRecord (s t : State) : Prop := t.err = s.err ∧ t.cause = s.cause ∧ t.errcmd = s.errcmd

section Writes

variable (s t : State)

@[simp] theorem sameRecord_refl : SameRecord s s := ⟨rfl, rfl, rfl⟩

@[simp] theorem sameRecord_setF (r : FReg) (v : Fe) :
    SameRecord s (t.setF r v) ↔ SameRecord s t := Iff.rfl
@[simp] theorem sameRecord_setS (r : SReg) (v : BitVec 256) :
    SameRecord s (t.setS r v) ↔ SameRecord s t := Iff.rfl
@[simp] theorem sameRecord_setP (r : PReg) (v : PointCell) :
    SameRecord s (t.setP r v) ↔ SameRecord s t := Iff.rfl
@[simp] theorem sameRecord_setHbuf (b : List Byte) :
    SameRecord s (t.setHbuf b) ↔ SameRecord s t := Iff.rfl
@[simp] theorem sameRecord_dmemWrite (a : Addr) (b : List Byte) :
    SameRecord s (t.dmemWrite a b) ↔ SameRecord s t := Iff.rfl
@[simp] theorem sameRecord_setV (b : Bool) : SameRecord s (t.setV b) ↔ SameRecord s t := Iff.rfl
@[simp] theorem sameRecord_setPV (b : Bool) : SameRecord s (t.setPV b) ↔ SameRecord s t := Iff.rfl
@[simp] theorem sameRecord_setSC (b : Bool) : SameRecord s (t.setSC b) ↔ SameRecord s t := Iff.rfl
@[simp] theorem sameRecord_clearWorking :
    SameRecord s t.clearWorking ↔ SameRecord s t := Iff.rfl

end Writes

/-! ### The cause a check ends with -/

/-- The cause that a check, the read of an operand or a whole body ends with, if it fails. -/
def causeOf {α : Type} : Except Cause α → Option Cause
  | .ok _ => none
  | .error c => some c

theorem causeOf_eq_some {α : Type} {x : Except Cause α} {c : Cause} :
    causeOf x = some c ↔ x = .error c := by
  cases x <;> simp [causeOf]

theorem causeOf_eq_none {α : Type} {x : Except Cause α} : causeOf x = none ↔ ∃ a, x = .ok a := by
  cases x <;> simp [causeOf]

section Checks

variable (s : State)

@[simp] theorem State.sourceInvalid_f (r : FReg) : s.sourceInvalid (.f r) = false := rfl
@[simp] theorem State.sourceInvalid_s (r : SReg) : s.sourceInvalid (.s r) = false := rfl

theorem causeOf_fieldAt (r : FReg) :
    causeOf (s.fieldAt r) = if s.sourceEmpty (.f r) then some .emptyRegister else none := by
  cases h : s.f.get r.toFin <;> simp [State.fieldAt, State.sourceEmpty, causeOf, h]

theorem causeOf_scalarAt (r : SReg) :
    causeOf (s.scalarAt r) = if s.sourceEmpty (.s r) then some .emptyRegister else none := by
  cases h : s.s.get r.toFin <;> simp [State.scalarAt, State.sourceEmpty, causeOf, h]

theorem causeOf_pointAt (r : PReg) :
    causeOf (s.pointAt r) = if s.sourceEmpty (.p r) then some .emptyRegister
      else if s.sourceInvalid (.p r) then some .invalidPointOperand else none := by
  cases h : s.p.get r.toFin <;>
    simp [State.pointAt, State.sourceEmpty, State.sourceInvalid, causeOf, h]

theorem causeOf_present (l : List Source) :
    causeOf (s.present l) = if l.any s.sourceEmpty then some .emptyRegister else none := by
  unfold State.present
  split <;> rfl

theorem causeOf_inDmem (addr : Addr) (n : Nat) :
    causeOf (s.inDmem addr n) =
      if s.params.dmemSize < addr.toNat + n then some .addressRange else none := by
  split
  next h => rw [State.inDmem_of_lt h, causeOf]
  next h => rw [State.inDmem_of_le (Nat.not_lt.1 h), causeOf]

end Checks

/-! ### Bodies as chains of checks -/

/-- The body fails with `fault`, or else leaves the fault record. -/
structure ChecksTo (s : State) (body : Except Cause State) (fault : Option Cause) : Prop where
  cause : causeOf body = fault
  record : ∀ t : State, body = .ok t → SameRecord s t

theorem ChecksTo.congr {s : State} {body : Except Cause State} {f g : Option Cause}
    (checks : ChecksTo s body f) (fault : f = g) : ChecksTo s body g := fault ▸ checks

theorem checksTo_pure {s t : State} (h : SameRecord s t) : ChecksTo s (pure t) none := by
  refine ⟨rfl, fun u hu => ?_⟩
  rwa [← Except.ok.inj hu]

/-- The first check that fails decides. -/
theorem checksTo_bind {α : Type} {s : State} {check : Except Cause α}
    {rest : α → Except Cause State} {fault : Option Cause} (h : ∀ a, ChecksTo s (rest a) fault) :
    ChecksTo s (check >>= rest) ((causeOf check).or fault) := by
  cases check with
  | ok a => exact h a
  | error c => exact ⟨rfl, nofun⟩

theorem ite_some_or {p : Prop} [Decidable p] (c : Cause) (f g : Option Cause) :
    (if p then some c else f).or g = if p then some c else f.or g := by
  split <;> rfl

/-- Every command is the frame of 30_encoding R78 around a body that fails as `faultOf` says. PADD and
PSMUL test their sources for EMPTY, then test them again as they read them: the last two steps. -/
theorem exec_eq_command_checksTo (i : Instr) (s : State) :
    ∃ body, exec i s = s.command i body ∧ ChecksTo s body (faultOf i s) := by
  cases i
  all_goals
    unfold exec
    refine ⟨_, rfl, ?_⟩
    apply ChecksTo.congr
    case checks =>
      repeat
        apply checksTo_bind
        intro
      exact checksTo_pure (by simp)
    case fault =>
      simp [causeOf_fieldAt, causeOf_scalarAt, causeOf_pointAt, causeOf_present, causeOf_inDmem,
        faultOf, sourcesOf, rangesOf, ite_or, ite_some_or] <;> split_ifs <;> rfl

/-! ### Faults outside the error state -/

section Outcomes

variable {i : Instr} {s : State}

theorem faultsWith_of_faultOf_eq_some {c : Cause} (he : s.err = false) (h : faultOf i s = some c) :
    faultsWith i s c := by
  obtain ⟨body, hexec, hbody⟩ := exec_eq_command_checksTo i s
  exact faultsWith_of_body hexec he (causeOf_eq_some.1 (hbody.cause.trans h))

theorem exec_of_faultOf_eq_none (he : s.err = false) (h : faultOf i s = none) :
    ∃ t : State, exec i s = .next t ∧ SameRecord s t := by
  obtain ⟨body, hexec, hbody⟩ := exec_eq_command_checksTo i s
  obtain ⟨t, ht⟩ := causeOf_eq_none.1 (hbody.cause.trans h)
  exact ⟨t, exec_of_body hexec he ht, hbody.record t ht⟩

end Outcomes

/-- Settles O11: an illegal word by fault entry, a legal command by the branch of `faultOf` that the
clause names. -/
theorem faultsFollowThePriority : Obligations.FaultsFollowThePriority := by
  refine ⟨fun w s he hw => execWord_of_decode_eq_none hw he,
    fun i s he hempty => faultsWith_of_faultOf_eq_some he ?empty,
    fun i s he hempty hinvalid => faultsWith_of_faultOf_eq_some he ?invalid,
    fun i s he hempty hinvalid hrange => faultsWith_of_faultOf_eq_some he ?range,
    fun i s he hempty hinvalid hranges => ?completes⟩
  case empty => rw [faultOf, if_pos hempty]
  case invalid => simp only [faultOf, hempty, hinvalid, if_true, Bool.false_eq_true, if_false]
  case range =>
    have hany : (rangesOf s i).any (fun r => s.params.dmemSize < r.1.toNat + r.2) = true := by
      simpa using hrange
    simp only [faultOf, hempty, hinvalid, hany, if_true, Bool.false_eq_true, if_false]
  case completes =>
    have hany : (rangesOf s i).any (fun r => s.params.dmemSize < r.1.toNat + r.2) = false := by
      simpa using hranges
    obtain ⟨t, hexec, herr, hrecord⟩ := exec_of_faultOf_eq_none (i := i) he
      (by simp only [faultOf, hempty, hinvalid, hany, Bool.false_eq_true, if_false])
    exact ⟨t, hexec, herr.trans he, hrecord⟩

/-! ### Fault entry (R216) -/

/-- A word that ends in the error state has entered it by fault entry with this word in `ERRCMD`. -/
theorem execWord_eq_raise {w : Word} {s t : State} (he : s.err = false)
    (h : execWord w s = .next t) (ht : t.err = true) : ∃ c : Cause, c ≠ .none ∧ t = s.raise c w := by
  cases hw : decode w with
  | none =>
    rw [execWord_of_decode_eq_none hw he] at h
    injection h with h
    exact ⟨.illegalCommand, nofun, h.symm⟩
  | some i =>
    rw [execWord, hw] at h
    obtain ⟨err, -⟩ | ⟨-, c, hc, rfl⟩ | ⟨-, err, -⟩ := exec_cases h
    · simp [he] at err
    · exact ⟨c, hc, by rw [encode_of_decode hw]⟩
    · simp [ht] at err

/-- Issuing a word executes it and advances the index (10_state R24). -/
theorem perform_csrWrite_cmd_eq_next {w : Word} {s t : State} :
    perform (.csrWrite 0x00 w) s = .next t ↔ ∃ u, execWord w s = .next u ∧ t = u.advance :=
  advancePc_eq_next

/-- Settles O12: fault entry by `execWord_eq_raise`, alone and before the index advances. -/
theorem faultingCommandsWriteOnlyTheFaultRecord :
    Obligations.FaultingCommandsWriteOnlyTheFaultRecord := by
  refine ⟨fun w s t he h ht => ?_, fun w s t he h ht => ?_, rfl, rfl, rfl, rfl⟩
  · obtain ⟨c, hc, rfl⟩ := execWord_eq_raise he h ht
    exact ⟨rfl, hc⟩
  · obtain ⟨u, hu, rfl⟩ := perform_csrWrite_cmd_eq_next.1 h
    obtain ⟨c, hc, rfl⟩ := execWord_eq_raise he hu ht
    exact ⟨rfl, hc⟩

end Sys2Proof.Machine
end

section
/-! The error state (60_exceptions R219) and the host's accesses to the memories, which it does not touch
(20_memory R56). -/

namespace Sys2Proof.Machine

section Accesses

variable {s : State} {a : Nat}

theorem perform_dmemWrite (h : a < s.params.dmemSize) (b : Byte) :
    perform (.dmemWrite a b) s = .next { s with dmem := s.dmem.put a b } :=
  if_pos (decide_eq_true h)

theorem perform_dmemRead (h : a < s.params.dmemSize) :
    perform (.dmemRead a) s = .next (s.receive ((s.dmemByte a).setWidth 32)) :=
  if_pos (decide_eq_true h)

theorem State.dmemByte_put (s : State) (a : Nat) (b : Byte) :
    State.dmemByte { s with dmem := s.dmem.put a b } a = b := by
  simp [State.dmemByte, Memory.find_put]

theorem State.msgByte_put (s : State) (a : Nat) (b : Byte) :
    State.msgByte { s with msg := s.msg.put a b } a = b := by
  simp [State.msgByte, Memory.find_put]

end Accesses

/-- Settles O10: words and commands are dropped by `execWord_of_err` and `exec_of_err`, and the other
accesses of the host are the same in every state. -/
theorem errorStateDropsEveryCommand : Obligations.ErrorStateDropsEveryCommand :=
  ⟨fun w _ he => execWord_of_err he w, fun i _ he => exec_of_err he i,
    fun w _ he => perform_csrWrite_cmd_eq_next.2 ⟨_, execWord_of_err he w, rfl⟩,
    fun _ _ v _ hoff => perform_csrWrite_of_ne hoff v,
    fun s a b _ ha => ⟨_, perform_dmemWrite ha b, s.dmemByte_put a b⟩,
    fun s a b _ => ⟨_, rfl, s.msgByte_put a.toNat b⟩,
    fun _ _ _ => ⟨_, rfl, rfl⟩, fun _ _ _ ha => ⟨_, perform_dmemRead ha, rfl⟩,
    fun _ _ _ => ⟨_, rfl, rfl⟩⟩

end Sys2Proof.Machine
end

section
/-!
Encoding and decoding: the words a command decodes from (30_encoding R71 to R80).
-/

namespace Sys2Proof

open Laws

/-- Each command's word matches a row of the opcode map, and the row builds the command back. -/
theorem encodesRow : ∀ i : Instr, EncodesRow.Statement i
  | .nop => EncodesRow.nop
  | .clr => EncodesRow.clr
  | .fadd fd fs1 fs2 => EncodesRow.fadd fd fs1 fs2
  | .fsub fd fs1 fs2 => EncodesRow.fsub fd fs1 fs2
  | .fmul fd fs1 fs2 => EncodesRow.fmul fd fs1 fs2
  | .fsqr fd fs1 => EncodesRow.fsqr fd fs1
  | .finv fd fs1 => EncodesRow.finv fd fs1
  | .fmov fd fs1 => EncodesRow.fmov fd fs1
  | .fli fd imm16 => EncodesRow.fli fd imm16
  | .fld fd addr => EncodesRow.fld fd addr
  | .fst fs addr => EncodesRow.fst fs addr
  | .sadd sd ss1 ss2 => EncodesRow.sadd sd ss1 ss2
  | .smul sd ss1 ss2 => EncodesRow.smul sd ss1 ss2
  | .smov sd ss1 => EncodesRow.smov sd ss1
  | .sld sd addr => EncodesRow.sld sd addr
  | .sst ss addr => EncodesRow.sst ss addr
  | .sred sd addr => EncodesRow.sred sd addr
  | .sclamp sd ss1 => EncodesRow.sclamp sd ss1
  | .schk ss1 => EncodesRow.schk ss1
  | .padd pd ps1 ps2 => EncodesRow.padd pd ps1 ps2
  | .pdbl pd ps1 => EncodesRow.pdbl pd ps1
  | .psmul pd ps1 sk => EncodesRow.psmul pd ps1 sk
  | .psmulb pd sk => EncodesRow.psmulb pd sk
  | .pmov pd ps1 => EncodesRow.pmov pd ps1
  | .pldb pd => EncodesRow.pldb pd
  | .pdec pd addr => EncodesRow.pdec pd addr
  | .penc ps addr => EncodesRow.penc ps addr
  | .hinit => EncodesRow.hinit
  | .hupd addr => EncodesRow.hupd addr
  | .hupdm => EncodesRow.hupdm
  | .hfin addr => EncodesRow.hfin addr
  | .keyexp sd addr => EncodesRow.keyexp sd addr
  | .derive => EncodesRow.derive
  | .sign => EncodesRow.sign
  | .verify => EncodesRow.verify

/-- Decoding an encoding gives the command back. -/
theorem decode_encode (i : Instr) : decode (encode i) = some i := by
  obtain ⟨r, hr, hmatch, hbuild⟩ := encodesRow i
  rw [decode_of_row hr hmatch, hbuild]

/-- Settles O6: one direction by the row that a word matches, the other by the row that an encoding
matches. -/
theorem decodeAndEncodeAgree : Obligations.DecodeAndEncodeAgree := fun _ i =>
  ⟨encode_of_decode, fun h => h ▸ decode_encode i⟩

/-- Settles O8: each word is the encoding of its command, and an encoding decodes to its command. -/
theorem sampleWordsDecodeToTheirCommands : Obligations.SampleWordsDecodeToTheirCommands :=
  ⟨decode_encode .nop, decode_encode (.fsub 15 0 15), decode_encode (.fli 1 0xFFFF),
    decode_encode (.fst 4 0x0140), decode_encode (.smul 3 2 0), decode_encode (.schk 5),
    decode_encode (.psmul 3 7 5), decode_encode (.psmulb 6 1), decode_encode (.penc 2 0x0140),
    decode_encode (.hfin 0x0FC0), decode_encode (.keyexp 7 0xFFE0), decode_encode .verify⟩

end Sys2Proof
end

section
/-!
The body of a command by the write it ends with: a property of every state it may end in is proved along its
checks, and says what the command does when it is neither dropped nor faults (30_encoding R78).
-/

namespace Sys2Proof.Machine

/-- Wherever the body completes, the state it ends in satisfies `Q`. -/
def Ends (body : Except Cause State) (Q : State → Prop) : Prop := ∀ t : State, body = .ok t → Q t

theorem ends_pure {Q : State → Prop} {t : State} (h : Q t) : Ends (pure t) Q := by
  intro u hu
  rwa [← Except.ok.inj hu]

/-- What comes after a check may use that the check has passed. -/
theorem ends_bind {Q : State → Prop} {α : Type} {check : Except Cause α}
    {rest : α → Except Cause State} (h : ∀ a, check = .ok a → Ends (rest a) Q) :
    Ends (check >>= rest) Q := by
  intro t ht
  obtain ⟨a, hcheck, hrest⟩ := (Except.bind_ok_iff check rest t).1 ht
  exact h a hcheck t hrest

/-- A command is dropped, faults, or completes as its body ends. -/
theorem exec_ends {i : Instr} {s t : State} {Q : State → Prop}
    (hbody : ∃ body, exec i s = s.command i body ∧ Ends body Q) (h : exec i s = .next t) :
    Dropped s t ∨ Faulted i s t ∨ (s.err = false ∧ Q t) := by
  obtain hd | hf | ⟨he, ht, -⟩ := exec_cases h
  · exact .inl hd
  · exact .inr (.inl hf)
  · obtain ⟨body, hexec, hends⟩ := hbody
    obtain ⟨err, -⟩ | ⟨-, hok⟩ | ⟨-, c, -, rfl⟩ := State.command_cases (hexec.symm.trans h)
    · simp [he] at err
    · exact .inr (.inr ⟨he, hends t hok⟩)
    · simp at ht

/-- Everything a word can do: it is a command, or it is dropped, or it raises `IllegalCommand`. -/
theorem execWord_cases {w : Word} {s t : State} (h : execWord w s = .next t) :
    (∃ i, exec i s = .next t) ∨ t = s ∨ t = s.raise .illegalCommand w := by
  unfold execWord at h
  split at h
  next i _ => exact .inl ⟨i, h⟩
  next =>
    unfold State.illegal at h
    split at h <;> injection h with h
    · exact .inr (.inl h.symm)
    · exact .inr (.inr h.symm)

end Sys2Proof.Machine
end

section
/-!
The invariant of the machine: it holds at reset, every write that a command ends with keeps it, and so does
every action of the host (10_state R23, R26, 20_memory R50).
-/

namespace Sys2Proof.Machine

open Laws

/-! ### Writes that keep the invariant -/

section Writes

variable {s : State}

theorem State.Inv.setF (hs : s.Inv) (r : FReg) (v : Fe) : (s.setF r v).Inv :=
  ⟨hs.params, hs.points, hs.fault, hs.memories⟩

theorem State.Inv.setS (hs : s.Inv) (r : SReg) (v : BitVec 256) : (s.setS r v).Inv :=
  ⟨hs.params, hs.points, hs.fault, hs.memories⟩

theorem State.Inv.setHbuf (hs : s.Inv) (b : List Byte) : (s.setHbuf b).Inv :=
  ⟨hs.params, hs.points, hs.fault, hs.memories⟩

theorem State.Inv.setV (hs : s.Inv) (b : Bool) : (s.setV b).Inv :=
  ⟨hs.params, hs.points, hs.fault, hs.memories⟩

theorem State.Inv.setPV (hs : s.Inv) (b : Bool) : (s.setPV b).Inv :=
  ⟨hs.params, hs.points, hs.fault, hs.memories⟩

theorem State.Inv.setSC (hs : s.Inv) (b : Bool) : (s.setSC b).Inv :=
  ⟨hs.params, hs.points, hs.fault, hs.memories⟩

theorem State.Inv.advance (hs : s.Inv) : s.advance.Inv :=
  ⟨hs.params, hs.points, hs.fault, hs.memories⟩

theorem State.Inv.receive (hs : s.Inv) (v : Word) : (s.receive v).Inv :=
  ⟨hs.params, hs.points, hs.fault, hs.memories⟩

theorem State.Inv.clearFault (hs : s.Inv) : s.clearFault.Inv :=
  ⟨hs.params, hs.points, ⟨rfl, rfl⟩, hs.memories⟩

theorem State.Inv.raise (hs : s.Inv) {c : Cause} (hc : c ≠ .none) (w : Word) : (s.raise c w).Inv :=
  ⟨hs.params, hs.points, hc, hs.memories⟩

theorem State.Inv.clearWorking (hs : s.Inv) : s.clearWorking.Inv :=
  ⟨hs.params, fun r q hq => by simp at hq, hs.fault, hs.memories⟩

/-- A point register may be given INVALID, or a point of the curve. -/
theorem State.Inv.setP (hs : s.Inv) (r : PReg) {c : PointCell}
    (hc : ∀ q : Point, c = .valid q → onCurve q = true) : (s.setP r c).Inv where
  params := hs.params
  points q x hx := by
    rw [State.setP_get] at hx
    split at hx
    · exact hc x hx
    · exact hs.points q x hx
  fault := hs.fault
  memories := hs.memories

theorem State.Inv.setP_valid (hs : s.Inv) (r : PReg) {q : Point} (hq : onCurve q = true) :
    (s.setP r (.valid q)).Inv :=
  hs.setP r fun _ h => PointCell.valid.inj h ▸ hq

theorem reset_inv : State.reset.Inv where
  params := by decide
  points r _ hq := nomatch (State.reset.clearWorking_p_get r).symm.trans hq
  fault := ⟨rfl, rfl⟩
  memories := ⟨rfl, rfl, rfl, rfl⟩

/-- The external reset keeps the parameters (70_reset_and_hazards R240). -/
theorem State.Inv.externalReset (hs : s.Inv) : s.externalReset.Inv :=
  ⟨hs.params, reset_inv.points, reset_inv.fault, rfl, rfl, rfl, rfl⟩

/-- A DMEM write whose range has been checked stays in canonical form inside DMEM. -/
theorem State.Inv.dmemWrite (hs : s.Inv) {addr : Addr} {n : Nat} {u : Unit} {bs : List Byte}
    (hrange : s.inDmem addr n = .ok u) (hlen : bs.length = n) : (s.dmemWrite addr bs).Inv where
  params := hs.params
  points := hs.points
  fault := hs.fault
  memories := by
    obtain ⟨hwf, hbelow, hmsg⟩ := hs.memories
    have hfits := (s.rangeOk_iff addr n).1 ((s.inDmem_eq_ok addr n u).1 hrange)
    exact ⟨Memory.wf_putAll _ _ _ hwf, Memory.below_putAll bs (by rwa [hlen]) _ hbelow, hmsg⟩

/-- The host writes a byte below `DMEM_SIZE` (20_memory R56). -/
theorem State.Inv.putDmem (hs : s.Inv) {a : Nat} (ha : a < s.params.dmemSize) (b : Byte) :
    State.Inv { s with dmem := s.dmem.put a b } := by
  obtain ⟨hwf, hbelow, hmsg⟩ := hs.memories
  exact ⟨hs.params, hs.points, hs.fault,
    Memory.wf_put _ _ _ hwf, Memory.below_put ha b _ hbelow, hmsg⟩

/-- Every address of MSG is below `2^32`. -/
theorem State.Inv.putMsg (hs : s.Inv) (a : BitVec 32) (b : Byte) :
    State.Inv { s with msg := s.msg.put a.toNat b } := by
  obtain ⟨hwf, hbelow, hmwf, hmbelow⟩ := hs.memories
  exact ⟨hs.params, hs.points, hs.fault,
    hwf, hbelow, Memory.wf_put _ _ _ hmwf, Memory.below_put a.isLt b _ hmbelow⟩

/-- A point that a command reads is on the curve (10_state R23). -/
theorem State.Inv.onCurve_of_pointAt (hs : s.Inv) {r : PReg} {q : Point} (h : s.pointAt r = .ok q) :
    onCurve q = true := hs.points r q ((s.pointAt_eq_ok r q).1 h)

end Writes

/-! ### Commands -/

/-- What PDEC writes is VALID exactly when a point was decoded (R159). -/
theorem decodedCell_eq_valid {d : Option Point} {q : Point} : decodedCell d = .valid q ↔ d = some q := by
  cases d <;> simp [decodedCell]

/-- Every command is the frame of R78 around checks and a final write that keeps the invariant: a point
register gets a point of the curve, DMEM a string that the range check has admitted. -/
theorem exec_eq_command_inv (i : Instr) {s : State} (hs : s.Inv) :
    ∃ body, exec i s = s.command i body ∧ Ends body State.Inv := by
  cases i
  all_goals
    unfold exec
    refine ⟨_, rfl, ?_⟩
    repeat refine ends_bind fun _ _ => ?_
    refine ends_pure ?_
  case nop => exact hs
  case clr => exact hs.clearWorking
  case fadd | fsub | fmul | fsqr | finv | fmov | fli | fld => exact hs.setF _ _
  case sadd | smul | smov | sld | sred | sclamp => exact hs.setS _ _
  case schk => exact hs.setSC _
  case padd h1 _ h2 =>
    exact hs.setP_valid _ (onCurve_ptAdd (hs.onCurve_of_pointAt h1) (hs.onCurve_of_pointAt h2))
  case pdbl h => exact hs.setP_valid _ (onCurve_ptAdd (hs.onCurve_of_pointAt h) (hs.onCurve_of_pointAt h))
  case psmul h _ _ => exact hs.setP_valid _ (onCurve_ptMul (hs.onCurve_of_pointAt h) _)
  case psmulb => exact hs.setP_valid _ (onCurve_ptMul onCurve_base _)
  case pmov h => exact hs.setP_valid _ (hs.onCurve_of_pointAt h)
  case pldb => exact hs.setP_valid _ onCurve_base
  case pdec => exact (hs.setP _ fun _ h => onCurve_ptDec (decodedCell_eq_valid.1 h)).setPV _
  case fst h => exact hs.dmemWrite h (fEnc_length _)
  case sst h => exact hs.dmemWrite h (scalarBytes_length _)
  case penc h => exact hs.dmemWrite h (ptEnc_length _)
  case hinit | hupd | hupdm => exact hs.setHbuf _
  case hfin h => exact (hs.dmemWrite h (by simp)).setHbuf _
  case keyexp h => exact (hs.setS _ _).dmemWrite h (expandKey_length _ _)
  case derive h => exact hs.dmemWrite h (derivePub_length _ _)
  case sign h => exact hs.dmemWrite h (signMsg_length _ _ _ _)
  case verify => exact hs.setV _

theorem exec_inv {i : Instr} {s t : State} (hs : s.Inv) (h : exec i s = .next t) : t.Inv := by
  obtain ⟨-, rfl⟩ | ⟨-, c, hc, rfl⟩ | ⟨-, ht⟩ := exec_ends (exec_eq_command_inv i hs) h
  · exact hs
  · exact hs.raise hc _
  · exact ht

theorem execWord_inv {w : Word} {s t : State} (hs : s.Inv) (h : execWord w s = .next t) : t.Inv := by
  obtain ⟨i, hi⟩ | rfl | rfl := execWord_cases h
  · exact exec_inv hs hi
  · exact hs
  · exact hs.raise (c := .illegalCommand) nofun w

/-! ### The host's actions -/

theorem State.Inv.csrWrite {s : State} (hs : s.Inv) (off : Nat) (v : Word) : (s.csrWrite off v).Inv := by
  unfold State.csrWrite
  split
  next =>
    split
    · exact hs.clearFault
    · exact hs
  all_goals exact ⟨hs.params, hs.points, hs.fault, hs.memories⟩

/-- An action that is performed, not refused, is well formed (20_memory R56). -/
theorem wellFormed_of_perform {a : HostAction} {s t : State} (h : perform a s = .next t) :
    a.wellFormed s.params = true := by
  unfold perform at h
  split at h
  next hwf => exact hwf
  next => cases h

theorem perform_inv {a : HostAction} {s t : State} (hs : s.Inv) (h : perform a s = .next t) :
    t.Inv := by
  have hwf := wellFormed_of_perform h
  cases a with
  | csrRead off => injection h with h; exact h ▸ hs.receive _
  | msgRead addr => injection h with h; exact h ▸ hs.receive _
  | dmemRead addr =>
    rw [perform_dmemRead (of_decide_eq_true hwf)] at h
    injection h with h
    exact h ▸ hs.receive _
  | dmemWrite addr b =>
    have haddr : addr < s.params.dmemSize := of_decide_eq_true hwf
    rw [perform_dmemWrite haddr] at h
    injection h with h
    exact h ▸ hs.putDmem haddr b
  | msgWrite addr b => injection h with h; exact h ▸ hs.putMsg addr b
  | csrWrite off v =>
    by_cases hoff : off = 0x00
    · subst hoff
      obtain ⟨u, hu, rfl⟩ := perform_csrWrite_cmd_eq_next.1 h
      exact (execWord_inv hs hu).advance
    · rw [perform_csrWrite_of_ne hoff] at h
      injection h with h
      exact h ▸ hs.csrWrite off v
  | reset => injection h with h; exact h ▸ hs.externalReset

/-- A step is idle, or it performs the first action of the host. -/
theorem step_cases {s t : State} (h : step s = .next t) :
    (s.todo = [] ∧ t = s) ∨
      ∃ a rest, s.todo = a :: rest ∧ perform a { s with todo := rest } = .next t := by
  have h : hostStep s = .next t := h
  cases htodo : s.todo with
  | nil =>
    rw [hostStep_idle htodo] at h
    injection h with h
    exact .inl ⟨rfl, h.symm⟩
  | cons a rest =>
    rw [hostStep_cons htodo] at h
    exact .inr ⟨a, rest, rfl, h⟩

/-- Settles O3: a step is idle or one action of the host, and every action keeps the invariant. -/
theorem stepKeepsTheInvariant : Obligations.StepKeepsTheInvariant := by
  intro s t hs h
  obtain ⟨-, rfl⟩ | ⟨a, rest, -, ha⟩ := step_cases h
  · exact hs
  · exact perform_inv (s := { s with todo := rest }) ⟨hs.params, hs.points, hs.fault, hs.memories⟩ ha

/-- Settles O2: no point register is VALID, the record is clear, the memories list no byte. -/
theorem resetMeetsTheInvariant : Obligations.ResetMeetsTheInvariant := reset_inv

end Sys2Proof.Machine
end

section
/-!
One step of the machine: one action of the host (00_scope R5, R6, 10_state R24), the accesses that are no
command (20_memory R56) and the reset (70_reset_and_hazards R240).
-/

namespace Sys2Proof.Machine

section Step

variable {s t : State} {a : HostAction} {w : Word}

/-! ### What a step leaves -/

/-- A word written to `CMD` leaves the settings, whether it is a command or illegal. -/
theorem execWord_sameSettings (h : execWord w s = .next t) : sameSettings s t := by
  obtain ⟨i, hi⟩ | rfl | rfl := execWord_cases h
  · exact exec_sameSettings hi
  · exact sameSettings_refl _
  · simp

theorem execWord_next (w : Word) (s : State) : ∃ t : State, execWord w s = .next t := by
  unfold execWord
  split
  next i _ =>
    obtain ⟨body, hexec, -⟩ := exec_eq_command_keepsSettings i s
    exact hexec ▸ s.command_next i body
  next =>
    unfold State.illegal
    split <;> exact ⟨_, rfl⟩

/-- A CSR write other than `CMD` reaches neither the index, nor the parameters, nor the host's actions. -/
theorem State.csrWrite_host (s : State) (off : Nat) (v : Word) :
    (s.csrWrite off v).pc = s.pc ∧ (s.csrWrite off v).params = s.params ∧
      (s.csrWrite off v).todo = s.todo := by
  unfold State.csrWrite
  split
  next => split <;> exact ⟨rfl, rfl, rfl⟩
  all_goals exact ⟨rfl, rfl, rfl⟩

/-- No action reaches the parameters or the actions still to come. -/
theorem perform_params_todo (h : perform a s = .next t) : t.params = s.params ∧ t.todo = s.todo := by
  obtain ⟨v, rfl⟩ | ⟨w, u, -, hu, rfl⟩ | ⟨off, v, -, -, rfl⟩ | ⟨m, rfl⟩ | ⟨m, rfl⟩ | ⟨-, rfl⟩ :=
    perform_cases h
  case inr.inl =>
    obtain ⟨-, -, -, -, -, -, hparams, htodo, -⟩ := execWord_sameSettings hu
    exact ⟨hparams, htodo⟩
  case inr.inr.inl => exact (s.csrWrite_host off v).2
  all_goals exact ⟨rfl, rfl⟩

/-- Every word issued advances the index by one (10_state R24). -/
theorem perform_csrWrite_cmd_pc (w : Word) (s : State) :
    ∃ t : State, perform (.csrWrite 0x00 w) s = .next t ∧ t.pc = s.pc + 1 := by
  obtain ⟨u, hu⟩ := execWord_next w s
  obtain ⟨-, -, -, -, -, hpc, -⟩ := execWord_sameSettings hu
  exact ⟨u.advance, perform_csrWrite_cmd_eq_next.2 ⟨u, hu, rfl⟩, congrArg (· + 1) hpc⟩

/-- Nothing but a word issued and the reset changes the index. -/
theorem perform_pc (hcmd : ∀ w : Word, a ≠ .csrWrite 0x00 w) (hreset : a ≠ .reset)
    (h : perform a s = .next t) : t.pc = s.pc := by
  obtain ⟨v, rfl⟩ | ⟨w, u, ha, -, -⟩ | ⟨off, v, -, -, rfl⟩ | ⟨m, rfl⟩ | ⟨m, rfl⟩ | ⟨ha, -⟩ :=
    perform_cases h
  case inr.inl => exact absurd ha (hcmd w)
  case inr.inr.inl => exact (s.csrWrite_host off v).1
  case inr.inr.inr.inr.inr => exact absurd ha hreset
  all_goals rfl

end Step

/-- Settles O4: a step by its cases, an action by its cases, a word issued by what a command leaves. -/
theorem stepPerformsOneActionAndCommandsAdvanceTheIndex :
    Obligations.StepPerformsOneActionAndCommandsAdvanceTheIndex := by
  refine ⟨fun s t h => ?_, fun _ => hostStep_idle, fun _ _ _ => hostStep_cons,
    fun s w => perform_csrWrite_cmd_pc w s, fun _ _ _ => perform_pc⟩
  obtain ⟨htodo, rfl⟩ | ⟨a, rest, htodo, ha⟩ := step_cases h
  · exact ⟨rfl, by rw [htodo]; rfl⟩
  · obtain ⟨hparams, hrest⟩ := perform_params_todo ha
    exact ⟨hparams, by rw [hrest, htodo]; rfl⟩

/-! ### The word a step runs -/

theorem execWord_of_decode {w : Word} {i : Instr} (hw : decode w = some i) (s : State) :
    execWord w s = exec i s := by
  rw [execWord, hw]

theorem execWord_of_not_decode {w : Word} (hw : decode w = none) (s : State) :
    execWord w s = s.illegal w := by
  rw [execWord, hw]

/-- A step whose action is a write to `CMD` issues the word. -/
theorem step_csrWrite_cmd {s : State} {w : Word} {rest : List HostAction}
    (h : s.todo = .csrWrite 0x00 w :: rest) :
    step s = advancePc (execWord w { s with todo := rest }) :=
  (hostStep_cons h).trans (perform_csrWrite_cmd _ w)

/-- The word that `withFetchWord` places is the one the step issues, in the state as it was. -/
theorem step_withFetchWord (s : State) (w : Word) :
    step (s.withFetchWord 32 w.toNat) = advancePc (execWord w s) := by
  have hword : BitVec.ofNat 32 (w.toNat % 2 ^ 32) = w := by
    rw [Nat.mod_eq_of_lt w.isLt, BitVec.ofNat_toNat, BitVec.setWidth_eq]
  rw [State.withFetchWord, hword]
  exact step_csrWrite_cmd rfl

/-- Settles O5: the step issues the word, and the word is the command or illegal. -/
theorem stepRunsTheDecodedCommand : Obligations.StepRunsTheDecodedCommand :=
  ⟨fun _ _ _ _ h hw => (step_csrWrite_cmd h).trans (congrArg advancePc (execWord_of_decode hw _)),
    fun _ _ _ h hw => (step_csrWrite_cmd h).trans (congrArg advancePc (execWord_of_not_decode hw _)),
    fun s w _ hw => (step_withFetchWord s w).trans (congrArg advancePc (execWord_of_decode hw s))⟩

/-! ### Accesses that are no command, and the reset -/

theorem State.dmemByte_put_of_ne (s : State) {a x : Nat} (h : x ≠ a) (b : Byte) :
    State.dmemByte { s with dmem := s.dmem.put a b } x = s.dmemByte x := by
  simp [State.dmemByte, Memory.find_put, h]

theorem State.msgByte_put_of_ne (s : State) {a x : Nat} (h : x ≠ a) (b : Byte) :
    State.msgByte { s with msg := s.msg.put a b } x = s.msgByte x := by
  simp [State.msgByte, Memory.find_put, h]

/-- An action that is not well formed is refused (93 U15). -/
theorem perform_refused {a : HostAction} {s : State} (h : ¬a.wellFormed s.params = true) :
    perform a s = .refused .hostAccessOutsideDmem := if_neg h

/-- Settles O17: reads by `receive`, writes by the byte written and every other byte, refusals by the
address. -/
theorem hostAccessesReadAndWriteSingleBytes : Obligations.HostAccessesReadAndWriteSingleBytes :=
  ⟨fun _ _ => rfl, fun _ _ ha => perform_dmemRead ha, fun _ _ => rfl,
    fun s a b ha => ⟨_, perform_dmemWrite ha b, rfl, s.dmemByte_put a b,
      fun _ hx => s.dmemByte_put_of_ne hx b⟩,
    fun s a b => ⟨_, rfl, rfl, s.msgByte_put a.toNat b, fun _ hx => s.msgByte_put_of_ne hx b⟩,
    fun _ _ ha => perform_refused (by simpa [HostAction.wellFormed] using ha),
    fun _ _ _ ha => perform_refused (by simpa [HostAction.wellFormed] using ha)⟩

/-- Settles O18: the reset is always well formed, and its effect is `externalReset`. -/
theorem externalResetGivesTheResetState : Obligations.ExternalResetGivesTheResetState := fun _ => rfl

end Sys2Proof.Machine
end

section
/-!
What decides whether a command faults, and how (60_exceptions R211, 70_reset_and_hazards R252).
-/

namespace Sys2Proof.Machine

section Public

variable {s t : State}

theorem rangesOf_congr (i : Instr) (hsk : s.skptr = t.skptr) (hpk : s.pkptr = t.pkptr)
    (hsg : s.sgptr = t.sgptr) : rangesOf s i = rangesOf t i := by
  cases i
  case keyexp | derive | sign | verify => simp only [rangesOf, hsk, hpk, hsg]
  all_goals rfl

/-- The fault of a command is a function of the tags, the pointers and the parameters. -/
theorem faultOf_congr (i : Instr) (h : samePublic s t) : faultOf i s = faultOf i t := by
  obtain ⟨htags, hsk, hpk, hsg, hparams⟩ := h
  have hempty : s.sourceEmpty = t.sourceEmpty := funext fun x => (htags x).1
  have hinvalid : s.sourceInvalid = t.sourceInvalid := funext fun x => (htags x).2
  rw [faultOf, faultOf, hempty, hinvalid, rangesOf_congr i hsk hpk hsg, hparams]

end Public

theorem faultOf_ne_some_none (i : Instr) (s : State) : faultOf i s ≠ some .none := by
  unfold faultOf
  split_ifs <;> simp

/-- Settles O14: the fault is `faultOf`, which is the same in both states. -/
theorem faultsDependOnPublicStateOnly : Obligations.FaultsDependOnPublicStateOnly := by
  intro i s t hpublic hs ht
  have same := faultOf_congr i hpublic
  cases hfault : faultOf i s with
  | some c =>
    have hc : c ≠ .none := fun e => faultOf_ne_some_none i s (e ▸ hfault)
    exact .inl ⟨c, hc, faultsWith_of_faultOf_eq_some hs hfault,
      faultsWith_of_faultOf_eq_some ht (same ▸ hfault)⟩
  | none =>
    obtain ⟨s', hs', hserr, -⟩ := exec_of_faultOf_eq_none hs hfault
    obtain ⟨t', ht', hterr, -⟩ := exec_of_faultOf_eq_none ht (same ▸ hfault)
    exact .inr ⟨s', t', hs', ht', hserr.trans hs, hterr.trans ht⟩

end Sys2Proof.Machine
end

section
/-!
The frames of the commands (10_state R38): which registers, flags and bytes a command writes. They are said
once, as the write set of each command, and proved once, along the writes that a body ends with; an
obligation reads off what its family needs.
-/

namespace Sys2Proof.Machine

open Laws

/-! ### Write sets -/

/-- What a command may write: one register of each file, the three flags, `HBUF`, one range of DMEM. -/
structure WriteSet where
  field : Option FReg := none
  scalar : Option SReg := none
  point : Option PReg := none
  v : Bool := false
  pv : Bool := false
  sc : Bool := false
  hbuf : Bool := false
  store : Option (Addr × Nat) := none

/-- The write set of a command; CLR, which writes whole register files, has none. -/
def writeSet (s : State) : Instr → Option WriteSet
  | .clr => none
  | .nop => some {}
  | .fadd fd _ _ | .fsub fd _ _ | .fmul fd _ _ | .fsqr fd _ | .finv fd _ | .fmov fd _ | .fli fd _
  | .fld fd _ => some { field := some fd }
  | .sadd sd _ _ | .smul sd _ _ | .smov sd _ | .sld sd _ | .sred sd _ | .sclamp sd _ =>
    some { scalar := some sd }
  | .padd pd _ _ | .pdbl pd _ | .psmul pd _ _ | .psmulb pd _ | .pmov pd _ | .pldb pd =>
    some { point := some pd }
  | .fst _ addr | .sst _ addr | .penc _ addr => some { store := some (addr, 32) }
  | .schk _ => some { sc := true }
  | .pdec pd _ => some { point := some pd, pv := true }
  | .hinit | .hupd _ | .hupdm => some { hbuf := true }
  | .hfin addr => some { hbuf := true, store := some (addr, 64) }
  | .keyexp sd addr => some { scalar := some sd, store := some (addr, 32) }
  | .derive => some { store := some (s.pkptr, 32) }
  | .sign => some { store := some (s.sgptr, 64) }
  | .verify => some { v := true }

theorem store_of_writeSet {s : State} {i : Instr} {w : WriteSet} (hw : writeSet s i = some w) :
    w.store = storesTo s i := by
  cases i <;> cases hw <;> rfl

/-- Between `s` and `t` nothing outside `w` has changed. -/
structure Frame (w : WriteSet) (s t : State) : Prop where
  field : ∀ q : FReg, w.field ≠ some q → t.f.get q.toFin = s.f.get q.toFin
  scalar : ∀ q : SReg, w.scalar ≠ some q → t.s.get q.toFin = s.s.get q.toFin
  point : ∀ q : PReg, w.point ≠ some q → t.p.get q.toFin = s.p.get q.toFin
  v : w.v = false → t.flags.v = s.flags.v
  pv : w.pv = false → t.flags.pv = s.flags.pv
  sc : w.sc = false → t.flags.sc = s.flags.sc
  hbuf : w.hbuf = false → t.hbuf = s.hbuf
  dmem : ∀ x : Nat, (∀ (a : Addr) (n : Nat), w.store = some (a, n) → x < a.toNat ∨ a.toNat + n ≤ x) →
    t.dmemByte x = s.dmemByte x

/-! ### Writes inside a write set -/

section Writes

variable {w : WriteSet} {s t : State}

theorem frame_refl : Frame w s s :=
  ⟨fun _ _ => rfl, fun _ _ => rfl, fun _ _ => rfl, fun _ => rfl, fun _ => rfl, fun _ => rfl,
    fun _ => rfl, fun _ _ => rfl⟩

theorem frame_raise (c : Cause) (word : Word) : Frame w s (s.raise c word) :=
  ⟨fun _ _ => rfl, fun _ _ => rfl, fun _ _ => rfl, fun _ => rfl, fun _ => rfl, fun _ => rfl,
    fun _ => rfl, fun _ _ => rfl⟩

theorem Frame.setF (h : Frame w s t) {r : FReg} (hr : w.field = some r) (v : Fe) :
    Frame w s (t.setF r v) :=
  { h with
    field := fun q hq => by
      rw [State.setF_get, if_neg (by rintro rfl; exact hq hr), h.field q hq] }

theorem Frame.setS (h : Frame w s t) {r : SReg} (hr : w.scalar = some r) (v : BitVec 256) :
    Frame w s (t.setS r v) :=
  { h with
    scalar := fun q hq => by
      rw [State.setS_get, if_neg (by rintro rfl; exact hq hr), h.scalar q hq] }

theorem Frame.setP (h : Frame w s t) {r : PReg} (hr : w.point = some r) (c : PointCell) :
    Frame w s (t.setP r c) :=
  { h with
    point := fun q hq => by
      rw [State.setP_get, if_neg (by rintro rfl; exact hq hr), h.point q hq] }

theorem Frame.setV (h : Frame w s t) (hv : w.v = true) (b : Bool) : Frame w s (t.setV b) :=
  { h with v := fun hn => by simp [hv] at hn }

theorem Frame.setPV (h : Frame w s t) (hpv : w.pv = true) (b : Bool) : Frame w s (t.setPV b) :=
  { h with pv := fun hn => by simp [hpv] at hn }

theorem Frame.setSC (h : Frame w s t) (hsc : w.sc = true) (b : Bool) : Frame w s (t.setSC b) :=
  { h with sc := fun hn => by simp [hsc] at hn }

theorem Frame.setHbuf (h : Frame w s t) (hw : w.hbuf = true) (b : List Byte) :
    Frame w s (t.setHbuf b) :=
  { h with hbuf := fun hn => by simp [hw] at hn }

theorem Frame.dmemWrite (h : Frame w s t) {a : Addr} {n : Nat} {bs : List Byte}
    (hstore : w.store = some (a, n)) (hlen : bs.length = n) : Frame w s (t.dmemWrite a bs) :=
  { h with
    dmem := fun x hx => by
      rw [State.dmemByte_dmemWrite_outside _ _ _ _ (hlen ▸ hx a n hstore), h.dmem x hx] }

end Writes

/-! ### Whole files and all flags -/

section Whole

variable {w : WriteSet} {s t : State}

theorem eq_of_get_eq16 {α : Type} {v w : Vector α 16}
    (h : ∀ q : BitVec 4, v.get q.toFin = w.get q.toFin) : v = w :=
  Vector.ext fun i hi => h ⟨i, hi⟩

theorem eq_of_get_eq8 {α : Type} {v w : Vector α 8}
    (h : ∀ q : BitVec 3, v.get q.toFin = w.get q.toFin) : v = w :=
  Vector.ext fun i hi => h ⟨i, hi⟩

theorem Frame.field_eq (h : Frame w s t) (hw : w.field = none) : t.f = s.f :=
  eq_of_get_eq16 fun q => h.field q (by simp [hw])

theorem Frame.scalar_eq (h : Frame w s t) (hw : w.scalar = none) : t.s = s.s :=
  eq_of_get_eq8 fun q => h.scalar q (by simp [hw])

theorem Frame.point_eq (h : Frame w s t) (hw : w.point = none) : t.p = s.p :=
  eq_of_get_eq8 fun q => h.point q (by simp [hw])

theorem Frame.flags_eq (h : Frame w s t) (hv : w.v = false) (hpv : w.pv = false)
    (hsc : w.sc = false) : t.flags = s.flags := by
  have hflags (g : Flags) : g = ⟨g.v, g.pv, g.sc⟩ := rfl
  rw [hflags t.flags, h.v hv, h.pv hpv, h.sc hsc]

end Whole

/-! ### Every command stays inside its write set -/

section Commands

variable {i : Instr} {s t : State}

/-- The body of a command ends with writes inside its write set. -/
theorem exec_eq_command_frame {w : WriteSet} (hw : writeSet s i = some w) :
    ∃ body, exec i s = s.command i body ∧ Ends body (Frame w s) := by
  cases i
  case clr => cases hw
  all_goals
    cases hw
    unfold exec
    refine ⟨_, rfl, ?_⟩
    repeat refine ends_bind fun _ _ => ?_
    refine ends_pure ?_
  case nop => exact frame_refl
  case fadd | fsub | fmul | fsqr | finv | fmov | fli | fld => exact frame_refl.setF rfl _
  case sadd | smul | smov | sld | sred | sclamp => exact frame_refl.setS rfl _
  case padd | pdbl | psmul | psmulb | pmov | pldb => exact frame_refl.setP rfl _
  case schk => exact frame_refl.setSC rfl _
  case pdec => exact (frame_refl.setP rfl _).setPV rfl _
  case fst => exact frame_refl.dmemWrite rfl (fEnc_length _)
  case sst => exact frame_refl.dmemWrite rfl (scalarBytes_length _)
  case penc => exact frame_refl.dmemWrite rfl (ptEnc_length _)
  case hinit | hupd | hupdm => exact frame_refl.setHbuf rfl _
  case hfin => exact (frame_refl.dmemWrite rfl (by simp)).setHbuf rfl _
  case keyexp => exact (frame_refl.setS rfl _).dmemWrite rfl (expandKey_length _ _)
  case derive => exact frame_refl.dmemWrite rfl (derivePub_length _ _)
  case sign => exact frame_refl.dmemWrite rfl (signMsg_length _ _ _ _)
  case verify => exact frame_refl.setV rfl _

/-- The fault record changes only by a fault, which changes nothing else (60_exceptions R216). -/
theorem exec_recordFrame (h : exec i s = .next t) : recordFrame s t := by
  obtain ⟨body, hexec, hchecks⟩ := exec_eq_command_checksTo i s
  obtain ⟨-, rfl⟩ | ⟨he, c, hc, rfl⟩ | ⟨-, same⟩ := exec_ends ⟨body, hexec, hchecks.record⟩ h
  · exact .inl ⟨rfl, rfl, rfl⟩
  · exact .inr ⟨he, c, encode i, hc, rfl⟩
  · exact .inl same

/-- The frame of a command with the write set `w`, dropped, faulting or completing. -/
theorem exec_frame {w : WriteSet} (hw : writeSet s i = some w) (h : exec i s = .next t) :
    Frame w s t ∧ memoryFrame i s t ∧ sameSettings s t ∧ recordFrame s t := by
  have hsettings := exec_sameSettings h
  have hframe : Frame w s t := by
    obtain ⟨-, rfl⟩ | ⟨-, c, -, rfl⟩ | ⟨-, hends⟩ := exec_ends (exec_eq_command_frame hw) h
    · exact frame_refl
    · exact frame_raise c _
    · exact hends
  have hmsgByte (x : Nat) : t.msgByte x = s.msgByte x := by
    obtain ⟨-, -, -, -, hmsg, -, -, -, -, hepoch⟩ := hsettings
    exact State.msgByte_congr hmsg hepoch x
  exact ⟨hframe, ⟨store_of_writeSet hw ▸ hframe.dmem, hmsgByte⟩, hsettings, exec_recordFrame h⟩

end Commands

/-! ### What the families write -/

section Families

variable {i : Instr} {s t : State}

/-- A command whose write set is one DMEM range leaves all registers, the flags and `HBUF`. -/
theorem exec_store_frame {r : Addr × Nat} (hw : writeSet s i = some { store := some r })
    (h : exec i s = .next t) :
    t.f = s.f ∧ t.s = s.s ∧ t.p = s.p ∧ t.flags = s.flags ∧ t.hbuf = s.hbuf ∧ memoryFrame i s t ∧
      sameSettings s t ∧ recordFrame s t := by
  obtain ⟨hframe, hrest⟩ := exec_frame hw h
  exact ⟨hframe.field_eq rfl, hframe.scalar_eq rfl, hframe.point_eq rfl,
    hframe.flags_eq rfl rfl rfl, hframe.hbuf rfl, hrest⟩

end Families

/-- Settles O21: a register read after a write by the law of its file; the write touches no other field. -/
theorem registerWritesChangeOneRegister : Obligations.RegisterWritesChangeOneRegister :=
  ⟨State.setF_get, State.setS_get, State.setP_get, fun _ _ _ => rfl, fun _ _ _ => rfl,
    fun _ _ _ => rfl⟩

/-- Settles O37: the write set is one field register, or FST's range. -/
theorem fieldCommandFrame : Obligations.FieldCommandFrame := by
  refine ⟨fun fd fs1 fs2 imm16 addr i s t hi h => ?_, fun _ _ _ _ h => exec_store_frame rfl h⟩
  have hw : writeSet s i = some { field := some fd } := by
    revert i
    simp [writeSet]
  obtain ⟨hframe, hrest⟩ := exec_frame hw h
  exact ⟨fun q hq => hframe.field q (by simpa using hq.symm), hframe.scalar_eq rfl,
    hframe.point_eq rfl, hframe.flags_eq rfl rfl rfl, hframe.hbuf rfl, hrest⟩

/-- Settles O38: the write set is one scalar register, SST's range, or the flag SC. -/
theorem scalarCommandFrame : Obligations.ScalarCommandFrame := by
  refine ⟨fun sd ss1 ss2 addr i s t hi h => ?dest, fun _ _ _ _ h => exec_store_frame rfl h,
    fun ss1 s t h => ?flag⟩
  case dest =>
    have hw : writeSet s i = some { scalar := some sd } := by
      revert i
      simp [writeSet]
    obtain ⟨hframe, hrest⟩ := exec_frame hw h
    exact ⟨fun q hq => hframe.scalar q (by simpa using hq.symm), hframe.field_eq rfl,
      hframe.point_eq rfl, hframe.flags_eq rfl rfl rfl, hframe.hbuf rfl, hrest⟩
  case flag =>
    obtain ⟨hframe, hrest⟩ := exec_frame rfl h
    exact ⟨hframe.field_eq rfl, hframe.scalar_eq rfl, hframe.point_eq rfl, hframe.v rfl,
      hframe.pv rfl, hframe.hbuf rfl, hrest⟩

/-- Settles O39: the write set is one point register, for PDEC with the flag PV, or PENC's range. -/
theorem pointCommandFrame : Obligations.PointCommandFrame := by
  refine ⟨fun pd ps1 ps2 sk i s t hi h => ?dest, fun pd addr s t h => ?decode,
    fun _ _ _ _ h => exec_store_frame rfl h⟩
  case dest =>
    have hw : writeSet s i = some { point := some pd } := by
      revert i
      simp [writeSet]
    obtain ⟨hframe, hrest⟩ := exec_frame hw h
    exact ⟨fun q hq => hframe.point q (by simpa using hq.symm), hframe.field_eq rfl,
      hframe.scalar_eq rfl, hframe.flags_eq rfl rfl rfl, hframe.hbuf rfl, hrest⟩
  case decode =>
    obtain ⟨hframe, hrest⟩ := exec_frame rfl h
    exact ⟨fun q hq => hframe.point q (by simpa using hq.symm), hframe.field_eq rfl,
      hframe.scalar_eq rfl, hframe.v rfl, hframe.sc rfl, hframe.hbuf rfl, hrest⟩

/-- CLR leaves the memories and the fault record, whether it completes or is dropped (R201). -/
theorem execClr_frame {s t : State} (h : exec .clr s = .next t) :
    memoryFrame .clr s t ∧ sameSettings s t ∧ SameRecord s t := by
  have hsettings := exec_sameSettings h
  cases he : s.err with
  | true =>
    obtain rfl := Host.Outcome.next.inj ((exec_of_err he .clr).symm.trans h)
    exact ⟨⟨fun _ _ => rfl, fun _ => rfl⟩, hsettings, rfl, rfl, rfl⟩
  | false =>
    obtain rfl := Host.Outcome.next.inj ((execClr_of_not_err he).symm.trans h)
    exact ⟨⟨fun _ _ => rfl, fun _ => rfl⟩, hsettings, rfl, rfl, rfl⟩

/-- Settles O40: NOP by its law, CLR by its own frame, the hash port by the write set `HBUF`, for HFIN
with its range. -/
theorem systemAndHashPortCommandFrame : Obligations.SystemAndHashPortCommandFrame := by
  refine ⟨fun s t h => ?nop, fun s t => execClr_frame, fun addr i s t hi h => ?hash⟩
  case nop => exact (Host.Outcome.next.inj ((execNop_eq s).symm.trans h)).symm
  case hash =>
    obtain ⟨store, hw⟩ : ∃ store, writeSet s i = some { hbuf := true, store := store } := by
      revert i
      simp [writeSet]
    obtain ⟨hframe, hrest⟩ := exec_frame hw h
    exact ⟨hframe.field_eq rfl, hframe.scalar_eq rfl, hframe.point_eq rfl,
      hframe.flags_eq rfl rfl rfl, hrest⟩

end Sys2Proof.Machine
end

section
/-!
The pipeline commands touch only what their rules name, and read neither a register file nor `HBUF`
(44_pipeline R188).
-/

namespace Sys2Proof.Machine

section Pipeline

variable {i : Instr} {s s' t : State}

/-! ### Two states with the same faults -/

/-- In two states in which a command has the same fault, it is dropped in both, faults in both with the
same cause, or completes in both. -/
theorem exec_of_faultOf_eq (herr : s'.err = s.err) (hfault : faultOf i s' = faultOf i s)
    (h : exec i s = .next t) :
    (s.err = true ∧ t = s ∧ exec i s' = .next s') ∨
      (∃ c, t = s.raise c (encode i) ∧ exec i s' = .next (s'.raise c (encode i))) ∨
      (s.err = false ∧ faultOf i s = none) := by
  cases he : s.err with
  | true =>
    exact .inl ⟨rfl, Host.Outcome.next.inj (h.symm.trans (exec_of_err he i)),
      exec_of_err (herr.trans he) i⟩
  | false =>
    cases hc : faultOf i s with
    | none => exact .inr (.inr ⟨rfl, rfl⟩)
    | some c =>
      have hs : faultsWith i s c := faultsWith_of_faultOf_eq_some he hc
      exact .inr (.inl ⟨c, Host.Outcome.next.inj (h.symm.trans hs),
        faultsWith_of_faultOf_eq_some (herr.trans he) (hfault.trans hc)⟩)

theorem ranges_of_faultOf_eq_none (h : faultOf i s = none) :
    ∀ r ∈ rangesOf s i, r.1.toNat + r.2 ≤ s.params.dmemSize := by
  unfold faultOf at h
  split_ifs at h with _ _ hranges
  simpa using hranges

/-! ### Other contents of the register files and of `HBUF` -/

/-- `s` with other register files and another `HBUF`. -/
def State.withFiles (s : State) (f : Vector (Tagged Fe) 16) (r : Vector (Tagged (BitVec 256)) 8)
    (p : Vector PointCell 8) (b : List Byte) : State :=
  { s with f := f, s := r, p := p, hbuf := b }

variable (f : Vector (Tagged Fe) 16) (r : Vector (Tagged (BitVec 256)) 8) (p : Vector PointCell 8)
  (b : List Byte)

@[simp] theorem State.withFiles_dmemRead (a : Addr) (n : Nat) :
    (s.withFiles f r p b).dmemRead a n = s.dmemRead a n := rfl
@[simp] theorem State.withFiles_message : (s.withFiles f r p b).message = s.message := rfl
@[simp] theorem State.withFiles_skptr : (s.withFiles f r p b).skptr = s.skptr := rfl
@[simp] theorem State.withFiles_pkptr : (s.withFiles f r p b).pkptr = s.pkptr := rfl
@[simp] theorem State.withFiles_sgptr : (s.withFiles f r p b).sgptr = s.sgptr := rfl
@[simp] theorem State.withFiles_params : (s.withFiles f r p b).params = s.params := rfl
@[simp] theorem State.withFiles_dmemWrite (a : Addr) (v : List Byte) :
    (s.withFiles f r p b).dmemWrite a v = (s.dmemWrite a v).withFiles f r p b := rfl
@[simp] theorem State.withFiles_setV (v : Bool) :
    (s.withFiles f r p b).setV v = (s.setV v).withFiles f r p b := rfl

/-- DERIVE, SIGN and VERIFY do the same with other register files and another `HBUF`. -/
theorem exec_withFiles (hi : i = .derive ∨ i = .sign ∨ i = .verify) (h : exec i s = .next t) :
    exec i (s.withFiles f r p b) = .next (t.withFiles f r p b) := by
  have hfault : faultOf i (s.withFiles f r p b) = faultOf i s := by
    obtain rfl | rfl | rfl := hi <;> rfl
  obtain ⟨-, rfl, h'⟩ | ⟨c, rfl, h'⟩ | ⟨he, hnone⟩ :=
    exec_of_faultOf_eq (s := s) (s' := s.withFiles f r p b) rfl hfault h
  · exact h'
  · exact h'
  · have hranges := ranges_of_faultOf_eq_none hnone
    obtain rfl | rfl | rfl := hi
    · obtain ⟨hsk, hpk⟩ := by simpa [rangesOf] using hranges
      obtain rfl := Host.Outcome.next.inj ((execDerive_of_le he hsk hpk).symm.trans h)
      simpa using execDerive_of_le (s := s.withFiles f r p b) he hsk hpk
    · obtain ⟨hsk, hpk, hsg⟩ := by simpa [rangesOf] using hranges
      obtain rfl := Host.Outcome.next.inj ((execSign_of_le he hsk hpk hsg).symm.trans h)
      simpa using execSign_of_le (s := s.withFiles f r p b) he hsk hpk hsg
    · obtain ⟨hsg, hpk⟩ := by simpa [rangesOf] using hranges
      obtain rfl := Host.Outcome.next.inj ((execVerify_of_le he hsg hpk).symm.trans h)
      simpa using execVerify_of_le (s := s.withFiles f r p b) he hsg hpk

/-- KEYEXP does the same with other register files and another `HBUF`, and writes the same value to its
register of the other scalar file. -/
theorem execKeyexp_withFiles {sd : SReg} {addr : Addr} (h : exec (.keyexp sd addr) s = .next t) :
    ∃ r' : Vector (Tagged (BitVec 256)) 8,
      exec (.keyexp sd addr) (s.withFiles f r p b) = .next (t.withFiles f r' p b) ∧
      (t.err = false → r'.get sd.toFin = t.s.get sd.toFin) ∧
      ∀ q : SReg, q ≠ sd → r'.get q.toFin = r.get q.toFin := by
  obtain ⟨he, rfl, h'⟩ | ⟨c, rfl, h'⟩ | ⟨he, hnone⟩ :=
    exec_of_faultOf_eq (s := s) (s' := s.withFiles f r p b) rfl rfl h
  · exact ⟨r, h', by simp [he], fun _ _ => rfl⟩
  · exact ⟨r, h', by simp, fun _ _ => rfl⟩
  · obtain ⟨hsk, haddr⟩ := by simpa [rangesOf] using ranges_of_faultOf_eq_none hnone
    obtain rfl := Host.Outcome.next.inj ((execKeyexp_of_le he hsk haddr).symm.trans h)
    refine ⟨_, execKeyexp_of_le (s := s.withFiles f r p b) he hsk haddr, fun _ => ?same,
      fun q hq => ?other⟩
    case same =>
      rw [State.dmemWrite_s, State.setS_get, State.setS_get, if_pos rfl, if_pos rfl]
      rfl
    case other =>
      rw [State.setS_get, if_neg hq]
      rfl

end Pipeline

/-- Settles O41: the frames by the write sets, the other contents by the two laws of `withFiles`. -/
theorem pipelineCommandsTouchOnlyWhatTheirRuleNames :
    Obligations.PipelineCommandsTouchOnlyWhatTheirRuleNames := by
  refine ⟨fun sd addr s t h => ?keyexp, fun i s t hi h => ?store, fun s t h => ?verify,
    fun i s t f r p b hi h => ?files, fun sd addr s t f r p b h => ?keyexpFiles⟩
  case keyexp =>
    obtain ⟨hframe, hrest⟩ := exec_frame rfl h
    exact ⟨fun q hq => hframe.scalar q (by simpa using hq.symm), hframe.field_eq rfl,
      hframe.point_eq rfl, hframe.flags_eq rfl rfl rfl, hframe.hbuf rfl, hrest⟩
  case store => obtain rfl | rfl := hi <;> exact exec_store_frame rfl h
  case verify =>
    obtain ⟨hframe, hrest⟩ := exec_frame rfl h
    exact ⟨hframe.field_eq rfl, hframe.scalar_eq rfl, hframe.point_eq rfl, hframe.pv rfl,
      hframe.sc rfl, hframe.hbuf rfl, hrest⟩
  case files =>
    obtain ⟨w, hw, hfield, hscalar, hpoint, hhbuf⟩ : ∃ w, writeSet s i = some w ∧ w.field = none ∧
        w.scalar = none ∧ w.point = none ∧ w.hbuf = false := by
      obtain rfl | rfl | rfl := hi <;> exact ⟨_, rfl, rfl, rfl, rfl, rfl⟩
    obtain ⟨hframe, -⟩ := exec_frame hw h
    exact ⟨hframe.field_eq hfield, hframe.scalar_eq hscalar, hframe.point_eq hpoint,
      hframe.hbuf hhbuf, exec_withFiles f r p b hi h⟩
  case keyexpFiles =>
    obtain ⟨hframe, -⟩ := exec_frame rfl h
    exact ⟨hframe.field_eq rfl, hframe.point_eq rfl, hframe.hbuf rfl,
      fun q hq => hframe.scalar q (by simpa using hq.symm), execKeyexp_withFiles f r p b h⟩

end Sys2Proof.Machine
end

section
/-!
The group of the curve (42_point R141) and the reference datapath that computes in it (R145 to R148).
-/

namespace Sys2Proof.Laws

open Sys2Proof.Machine

/-! ### The group -/

/-- `D` is not a square modulo `P` (R141). -/
theorem fMul_self_ne_curveD (x : Fe) : fMul x x ≠ curveD := by
  have := fact_prime_P
  intro h
  apply complete_curveD.nonsquare (toZ x)
  rw [sq, ← toZ_fMul, h]

/-- Settles O46: the group laws and the order are those of the curve's law, the denominators those of the
complete addition law. -/
theorem curvePointsFormAGroupOfEightTimesLElements :
    Obligations.CurvePointsFormAGroupOfEightTimesLElements :=
  ⟨fun _ _ => onCurve_ptAdd, fun _ _ _ => ptAdd_assoc, ptAdd_comm, onCurve_id, ptAdd_id_left,
    fun _ ha => ⟨onCurve_neg ha, ptAdd_neg ha⟩, card_curvePoint, by decide +kernel,
    fMul_self_ne_curveD, fun _ _ _ _ => ptAdd_den_ne_zero rfl⟩

/-! ### The reference datapath -/

/-- The spec's way to say that a quadruple represents a point, by the quotients by `Z`, and the laws'
way, by the products with `Z`, agree. -/
theorem represents_iff [Fact P.Prime] (e : ExtPoint) (q : Point) :
    e.represents q ↔ Represents e q := by
  have hzero : toZ (feOf 0) = 0 := by simp
  have quotient {Z : ZMod P} (hZ : Z ≠ 0) (x X : ZMod P) : x = X * Z⁻¹ ↔ X = x * Z := by
    rw [eq_mul_inv_iff_mul_eq₀ hZ, eq_comm]
  unfold ExtPoint.represents
  simp only [← toZ_inj, toZ_fMul, toZ_fInv, ne_eq, hzero]
  constructor
  · rintro ⟨hZ, hx, hy, hT⟩
    rw [quotient hZ] at hx hy
    exact ⟨hZ, hx, hy, mul_right_cancel₀ hZ (by rw [hT, hx, hy]; ring)⟩
  · rintro ⟨hZ, hX, hY, hT⟩
    exact ⟨hZ, (quotient hZ _ _).2 hX, (quotient hZ _ _).2 hY, by rw [hX, hY, hT]; ring⟩

/-- Settles O49: the laws of the datapath, in the spec's form. -/
theorem referenceDatapathRepresentsTheGroupLaw :
    Obligations.ReferenceDatapathRepresentsTheGroupLaw := by
  have := fact_prime_P
  simp only [Obligations.ReferenceDatapathRepresentsTheGroupLaw, represents_iff]
  refine ⟨represents_id, represents_ofPoint, fun _ _ _ _ => represents_extAdd,
    fun _ _ => represents_extDbl, fun k q hq => represents_extLadder hq k.toNat 256 _ ?_⟩
  rw [Nat.div_eq_of_lt k.isLt]
  exact represents_id

end Sys2Proof.Laws
end

section
/-!
The properties of the signature scheme on the machine (44_pipeline section 3): what is signed verifies,
VERIFY rejects malformed input, DERIVE and SIGN depend on their inputs only.
-/

namespace Sys2Proof.Laws

open Sys2Proof.Machine

/-- What is signed under the derived public key verifies, whatever the hash function: with `A = a·B`,
`R = r·B` and `S = r + k·a` modulo `L`, `S·B = R + k·A` (44_pipeline R182, R183). -/
theorem verifySig_signMsg (hash : HashFn) (reject : Bool) (sk m : List Byte) :
    verifySig hash reject (signMsg hash (derivePub hash sk) sk m) (derivePub hash sk) m = true := by
  set a := (expandKey hash sk).1.toNat with ha
  set r := leNat (hash ((expandKey hash sk).2 ++ m)).toList % groupOrder with hr
  set bigR := ptEnc (ptSum r basePoint) with hR
  set k := leNat (hash (bigR ++ derivePub hash sk ++ m)).toList % groupOrder with hk
  have hA : onCurve (ptSum a basePoint) = true := onCurve_ptSum onCurve_base a
  have hsum : ptSum ((r + k * a) % groupOrder) basePoint =
      ptAdd (ptSum r basePoint) (ptSum k (ptSum a basePoint)) := by
    rw [← ptSum_basePoint_mod, ptSum_add onCurve_base, ptSum_mul onCurve_base]
  have hlt : (r + k * a) % groupOrder < groupOrder := Nat.mod_lt _ groupOrder_pos
  rw [signMsg_eq_append hash _ sk m hr hR hk, ← ha]
  have htake : (bigR ++ bytesLE 32 ((r + k * a) % groupOrder)).take 32 = bigR :=
    List.take_left' (ptEnc_length _)
  have hdrop : leNat ((bigR ++ bytesLE 32 ((r + k * a) % groupOrder)).drop 32) =
      (r + k * a) % groupOrder := by
    rw [List.drop_left' (ptEnc_length _), leNat_bytesLE (hlt.trans groupOrder_lt_two_pow)]
  rw [verifySig_eq_true_iff_points (by simp [hR, ptEnc_length])
    (by rw [htake, hR, ptDec_ptEnc reject (onCurve_ptSum onCurve_base r)])
    (by rw [derivePub_eq_ptSum, ← ha, ptDec_ptEnc reject hA]) (by rwa [hdrop]), hdrop, htake, ← hk,
    hsum]

/-- `S` out of range, an undecodable `R` or an undecodable public key: no acceptance (R183). -/
theorem verifySig_eq_false {hash : HashFn} {reject : Bool} {sig pub m : List Byte}
    (hsig : sig.length = 64) (h : groupOrder ≤ leNat (sig.drop 32) ∨
      ptDec reject (sig.take 32) = none ∨ ptDec reject pub = none) :
    verifySig hash reject sig pub m = false := by
  rw [← Bool.not_eq_true, verifySig_eq_true_iff hsig]
  rintro ⟨rp, a, hr, ha, hS, -⟩
  obtain h | h | h := h
  · exact absurd hS (Nat.not_lt.2 h)
  · exact nomatch h.symm.trans hr
  · exact nomatch h.symm.trans ha

end Sys2Proof.Laws

namespace Sys2Proof.Machine

open Laws

/-! ### Reading DMEM after a write -/

section Reads

variable {s : State} {a b : Addr} {n m : Nat} {bs : List Byte}

/-- The range just written reads as what was written. -/
theorem State.dmemRead_dmemWrite_of_length (hlen : bs.length = n) :
    (s.dmemWrite a bs).dmemRead a n = bs := by
  subst hlen
  exact s.dmemRead_dmemWrite_same a bs

/-- A range apart from the one written reads as before. -/
theorem State.dmemRead_dmemWrite_of_disjoint (hapart : rangesDisjoint a n b m) (hlen : bs.length = m) :
    (s.dmemWrite b bs).dmemRead a n = s.dmemRead a n :=
  s.dmemRead_dmemWrite_disjoint b a bs n (by rwa [hlen])

@[simp] theorem State.dmemWrite_message : (s.dmemWrite a bs).message = s.message := rfl

end Reads

/-! ### Commands in a row -/

theorem execAll_cons {i : Instr} {rest : List Instr} {s t : State} (h : exec i s = .next t) :
    execAll (i :: rest) s = execAll rest t := by
  rw [execAll, h]

theorem execAll_singleton {i : Instr} {s t : State} (h : exec i s = .next t) :
    execAll [i] s = .next t := execAll_cons h

/-- Settles O57: the signature SIGN leaves in DMEM is that of the public key DERIVE leaves there, and it
verifies by `verifySig_signMsg`. -/
theorem deriveSignVerifyGivesVOne : Obligations.DeriveSignVerifyGivesVOne := by
  intro s he hsk hpk hsg hskpk hpksg
  obtain ⟨pub, hpub⟩ : ∃ pub, derivePub Config.hash512 (s.dmemRead s.skptr 32) = pub := ⟨_, rfl⟩
  obtain ⟨sig, hsig⟩ : ∃ sig, signMsg Config.hash512 pub (s.dmemRead s.skptr 32) s.message = sig :=
    ⟨_, rfl⟩
  have hpubLen : pub.length = 32 := hpub ▸ derivePub_length _ _
  have hsigLen : sig.length = 64 := hsig ▸ signMsg_length _ _ _ _
  have hderive := execDerive_of_le he hsk hpk
  rw [hpub] at hderive
  have hsign := execSign_of_le (s := s.dmemWrite s.pkptr pub) he hsk hpk hsg
  rw [State.dmemWrite_pkptr, State.dmemWrite_skptr, State.dmemWrite_sgptr, State.dmemWrite_message,
    State.dmemRead_dmemWrite_of_length hpubLen, State.dmemRead_dmemWrite_of_disjoint hskpk hpubLen,
    hsig] at hsign
  have hverified : verifySig Config.hash512 s.params.x0Sign1Reject sig pub s.message = true := by
    rw [← hsig, ← hpub, verifySig_signMsg]
  have hverify := execVerify_of_le (s := (s.dmemWrite s.pkptr pub).dmemWrite s.sgptr sig) he hsg hpk
  simp only [State.dmemWrite_sgptr, State.dmemWrite_pkptr, State.dmemWrite_message,
    State.dmemWrite_params, State.dmemRead_dmemWrite_of_length hsigLen,
    State.dmemRead_dmemWrite_of_disjoint hpksg hsigLen,
    State.dmemRead_dmemWrite_of_length hpubLen, hverified] at hverify
  exact ⟨_, (execAll_cons hderive).trans ((execAll_cons hsign).trans (execAll_singleton hverify)),
    he, rfl⟩

/-! ### What the pipeline commands leave in DMEM -/

/-- A DERIVE that completes leaves the derived public key at `PKPTR`. -/
theorem execDerive_output {s t : State} (he : s.err = false) (h : exec .derive s = .next t)
    (ht : t.err = false) :
    t.dmemRead t.pkptr 32 = derivePub Config.hash512 (s.dmemRead s.skptr 32) := by
  obtain ⟨err, -⟩ | ⟨-, c, -, rfl⟩ | ⟨-, -, -, rfl⟩ := execDerive_cases h
  · simp [he] at err
  · simp at ht
  · rw [State.dmemWrite_pkptr, State.dmemRead_dmemWrite_of_length (derivePub_length _ _)]

/-- A SIGN that completes leaves the signature at `SGPTR`. -/
theorem execSign_output {s t : State} (he : s.err = false) (h : exec .sign s = .next t)
    (ht : t.err = false) :
    t.dmemRead t.sgptr 64 = signMsg Config.hash512 (s.dmemRead s.pkptr 32) (s.dmemRead s.skptr 32)
      s.message := by
  obtain ⟨err, -⟩ | ⟨-, c, -, rfl⟩ | ⟨-, -, -, -, rfl⟩ := execSign_cases h
  · simp [he] at err
  · simp at ht
  · rw [State.dmemWrite_sgptr, State.dmemRead_dmemWrite_of_length (signMsg_length _ _ _ _)]

/-- Settles O58: VERIFY by what it writes to V, DERIVE and SIGN by what they leave in DMEM. -/
theorem verifyRejectsAndSigningIsDeterministic :
    Obligations.VerifyRejectsAndSigningIsDeterministic := by
  refine ⟨fun s he hsg hpk hbad => ?_, fun s1 s2 t1 t2 he1 he2 hsk h1 h2 ht1 ht2 => ?_,
    fun s1 s2 t1 t2 he1 he2 hsk hpk hm h1 h2 ht1 ht2 => ?_⟩
  · have hverify := execVerify_of_le he hsg hpk
    rw [verifySig_eq_false (s.dmemRead_length _ _) hbad] at hverify
    exact ⟨_, hverify, he, rfl⟩
  · rw [execDerive_output he1 h1 ht1, execDerive_output he2 h2 ht2, hsk]
  · rw [execSign_output he1 h1 ht1, execSign_output he2 h2 ht2, hsk, hpk, hm]

end Sys2Proof.Machine
end

section
/-!
The pipeline commands against their sequences of primitive commands (44_pipeline R189). Each sequence is
run command by command on an explicit state, and the bytes it leaves are read back by the laws of DMEM.
-/

namespace Sys2Proof.Machine

open Laws

/-! ### Reads that register and `HBUF` writes do not reach -/

section Reads

variable (s : State) (a : Addr) (n : Nat)

@[simp] theorem State.setS_dmemRead (r : SReg) (v : BitVec 256) :
    (s.setS r v).dmemRead a n = s.dmemRead a n := rfl
@[simp] theorem State.setP_dmemRead (r : PReg) (c : PointCell) :
    (s.setP r c).dmemRead a n = s.dmemRead a n := rfl
@[simp] theorem State.setHbuf_dmemRead (b : List Byte) :
    (s.setHbuf b).dmemRead a n = s.dmemRead a n := rfl
@[simp] theorem State.setS_message (r : SReg) (v : BitVec 256) :
    (s.setS r v).message = s.message := rfl

end Reads

/-! ### Parts of a DMEM range -/

theorem bytesFrom_add (byteAt : Nat → Byte) (a m n : Nat) :
    bytesFrom byteAt a (m + n) = bytesFrom byteAt a m ++ bytesFrom byteAt (a + m) n := by
  induction m generalizing a with
  | zero => simp [bytesFrom]
  | succ m ih => rw [Nat.add_right_comm, bytesFrom, ih, bytesFrom, List.cons_append, Nat.add_right_comm,
      Nat.add_assoc]

/-- A range is read as its first part, then the rest. -/
theorem State.dmemRead_add (s : State) {a b : Addr} {m : Nat} (n : Nat) (hb : b.toNat = a.toNat + m) :
    s.dmemRead a (m + n) = s.dmemRead a m ++ s.dmemRead b n := by
  rw [State.dmemRead, bytesFrom_add, ← hb]
  rfl

/-- The first and the second half of 64 bytes just written. -/
theorem State.dmemRead_dmemWrite_halves (s : State) {a b : Addr} {bs : List Byte} (hlen : bs.length = 64)
    (hb : b.toNat = a.toNat + 32) :
    (s.dmemWrite a bs).dmemRead a 32 = bs.take 32 ∧ (s.dmemWrite a bs).dmemRead b 32 = bs.drop 32 := by
  have hall := State.dmemRead_dmemWrite_of_length (s := s) (a := a) hlen
  rw [State.dmemRead_add _ (m := 32) 32 hb] at hall
  exact ⟨(List.take_left' (by simp)).symm.trans (congrArg (List.take 32) hall),
    (List.drop_left' (by simp)).symm.trans (congrArg (List.drop 32) hall)⟩

/-- In a legal memory the middle of a 64-byte range inside DMEM has no wrap-around. -/
theorem toNat_add_32 {s : State} {a : Addr} (hparams : s.params.wellFormed = true)
    (h : a.toNat + 64 ≤ s.params.dmemSize) : (a + 32).toNat = a.toNat + 32 := by
  have hsize : s.params.dmemSize ≤ 65536 := by
    simp only [Params.wellFormed, Params.sizeInRange, Bool.and_eq_true, decide_eq_true_eq] at hparams
    exact hparams.2.2
  have hlt : a.toNat + (32 : Addr).toNat < 2 ^ 16 := show a.toNat + 32 < 2 ^ 16 by omega
  rw [BitVec.toNat_add, Nat.mod_eq_of_lt hlt]
  rfl

/-! ### Commands on explicit states -/

theorem execAll_append {l l' : List Instr} {s t : State} (h : execAll l s = .next t) :
    execAll (l ++ l') s = execAll l' t := by
  induction l generalizing s with
  | nil => rw [List.nil_append, ← Host.Outcome.next.inj h]
  | cons i l ih => cases hi : exec i s <;> simp_all [execAll]

section Run

variable {s : State} {addr : Addr} {b : List Byte}

theorem execHinit_setHbuf (he : s.err = false) : exec .hinit s = .next (s.setHbuf []) :=
  execHinit_of_not_err he

theorem execHupd_setHbuf (he : s.err = false) (h : addr.toNat + 32 ≤ s.params.dmemSize) :
    exec (.hupd addr) (s.setHbuf b) = .next (s.setHbuf (b ++ s.dmemRead addr 32)) :=
  execHupd_of_le (s := s.setHbuf b) he h

theorem execHupdm_setHbuf (he : s.err = false) :
    exec .hupdm (s.setHbuf b) = .next (s.setHbuf (b ++ s.message)) :=
  execHupdm_of_not_err (s := s.setHbuf b) he

theorem execHfin_setHbuf (he : s.err = false) (h : addr.toNat + 64 ≤ s.params.dmemSize) :
    exec (.hfin addr) (s.setHbuf b) =
      .next ((s.dmemWrite addr (Config.hash512 b).toList).setHbuf []) :=
  execHfin_of_le (s := s.setHbuf b) he h

theorem execSclamp_of_valid {sd ss1 : SReg} {v : BitVec 256} (he : s.err = false)
    (hv : s.s.get ss1.toFin = .valid v) : exec (.sclamp sd ss1) s = .next (s.setS sd (clamp v)) :=
  exec_of_body (exec_sclamp sd ss1 s) he (State.scalarUnary_of_valid clamp hv)

theorem execSmul_of_valid {sd ss1 ss2 : SReg} {v w : BitVec 256} (he : s.err = false)
    (hv : s.s.get ss1.toFin = .valid v) (hw : s.s.get ss2.toFin = .valid w) :
    exec (.smul sd ss1 ss2) s = .next (s.setS sd (sMul v w)) :=
  exec_of_body (exec_smul sd ss1 ss2 s) he (State.scalarBinary_of_valid sMul hv hw)

theorem execSadd_of_valid {sd ss1 ss2 : SReg} {v w : BitVec 256} (he : s.err = false)
    (hv : s.s.get ss1.toFin = .valid v) (hw : s.s.get ss2.toFin = .valid w) :
    exec (.sadd sd ss1 ss2) s = .next (s.setS sd (sAdd v w)) :=
  exec_of_body (exec_sadd sd ss1 ss2 s) he (State.scalarBinary_of_valid sAdd hv hw)

end Run

/-! ### The expansion of the secret key (KEYEXP, and the start of DERIVE) -/

/-- HINIT, HUPD, HFIN, SLD, SCLAMP expand the key: the scalar in `s0`, the rest of the hash at `H + 32`. -/
theorem execAll_expansion {s : State} {h : Addr} (he : s.err = false)
    (hparams : s.params.wellFormed = true) (hsk : s.skptr.toNat + 32 ≤ s.params.dmemSize)
    (hh : h.toNat + 64 ≤ s.params.dmemSize) :
    ∃ u : State,
      execAll [.hinit, .hupd s.skptr, .hfin h, .sld 0 h, .sclamp 0 0] s = .next u ∧
      u.err = false ∧ u.params = s.params ∧
      u.s.get (0 : SReg).toFin = .valid (expandKey Config.hash512 (s.dmemRead s.skptr 32)).1 ∧
      u.dmemRead (h + 32) 32 = (expandKey Config.hash512 (s.dmemRead s.skptr 32)).2 := by
  obtain ⟨d, hd⟩ : ∃ d, Config.hash512 (s.dmemRead s.skptr 32) = d := ⟨_, rfl⟩
  obtain ⟨hlow, hhigh⟩ := State.dmemRead_dmemWrite_halves (s := s) (a := h) (bs := d.toList)
    (by simp) (toNat_add_32 hparams hh)
  have hhash : execAll [.hinit, .hupd s.skptr, .hfin h] s =
      .next ((s.dmemWrite h d.toList).setHbuf []) := by
    rw [execAll_cons (execHinit_setHbuf he), execAll_cons (execHupd_setHbuf he hsk),
      List.nil_append, execAll_singleton (execHfin_setHbuf he hh), hd]
  have hsld := execSld_of_le (s := (s.dmemWrite h d.toList).setHbuf []) (r := 0) (addr := h) he
    (show h.toNat + 32 ≤ s.params.dmemSize by omega)
  rw [State.setHbuf_dmemRead, hlow] at hsld
  have hsclamp := execSclamp_of_valid (sd := 0) (ss1 := 0)
    (s := ((s.dmemWrite h d.toList).setHbuf []).setS 0 (scalarOfBytes (d.toList.take 32))) he
    ((State.setS_get _ 0 0 _).trans (if_pos rfl))
  refine ⟨_, (execAll_append hhash).trans ((execAll_cons hsld).trans (execAll_singleton hsclamp)), he,
    rfl, ?_, ?_⟩
  · rw [State.setS_get, if_pos rfl, expandKey, hd]
  · rw [State.setS_dmemRead, State.setS_dmemRead, State.setHbuf_dmemRead, hhigh, expandKey, hd]

/-! ### Hashing to a scalar (44_pipeline R182 steps 2, 4) -/

/-- From `s` to `v` the hash of `b` went to the 64 bytes at `addr` and, as a scalar, to `sd`; the other
scalar registers, the bytes elsewhere and the settings have stayed. -/
structure HashedTo (sd : SReg) (addr : Addr) (b : List Byte) (s v : State) : Prop where
  err : v.err = false
  scalar : v.s.get sd.toFin = .valid (hashScalar Config.hash512 b)
  others : ∀ q : SReg, q ≠ sd → v.s.get q.toFin = s.s.get q.toFin
  dmem : ∀ (a : Addr) (n : Nat), rangesDisjoint a n addr 64 → v.dmemRead a n = s.dmemRead a n
  settings : sameSettings s v

section Hashing

variable {s : State} {sd : SReg} {addr h2 sg : Addr} {b : List Byte}

theorem execAll_hfin_sred (he : s.err = false) (h : addr.toNat + 64 ≤ s.params.dmemSize) :
    ∃ v : State, execAll [.hfin addr, .sred sd addr] (s.setHbuf b) = .next v ∧
      HashedTo sd addr b s v := by
  obtain ⟨d, hd⟩ : ∃ d, Config.hash512 b = d := ⟨_, rfl⟩
  have hload := State.scalarLoad_of_le (s := (s.dmemWrite addr d.toList).setHbuf []) (sd := sd)
    (fun b => scRed (leNat b)) h
  rw [State.setHbuf_dmemRead, State.dmemRead_dmemWrite_digest] at hload
  have hhfin := execHfin_setHbuf (b := b) he h
  rw [hd] at hhfin
  refine ⟨_, (execAll_cons hhfin).trans
    (execAll_singleton (exec_of_body (exec_sred sd addr _) he hload)), he, ?_, fun q hq => ?_,
    fun a n hapart => ?_, by simp⟩
  · rw [State.setS_get, if_pos rfl, hashScalar, hd]
  · rw [State.setS_get, if_neg hq]
    rfl
  · rw [State.setS_dmemRead, State.setHbuf_dmemRead,
      State.dmemRead_dmemWrite_of_disjoint hapart (by simp)]

/-- The nonce, from the 32 bytes at `H2` and the message. -/
theorem execAll_nonce (he : s.err = false) (h2fits : h2.toNat + 32 ≤ s.params.dmemSize)
    (h : addr.toNat + 64 ≤ s.params.dmemSize) :
    ∃ v : State, execAll [.hinit, .hupd h2, .hupdm, .hfin addr, .sred sd addr] s = .next v ∧
      HashedTo sd addr (s.dmemRead h2 32 ++ s.message) s v := by
  rw [execAll_cons (execHinit_setHbuf he), execAll_cons (execHupd_setHbuf he h2fits),
    execAll_cons (execHupdm_setHbuf he)]
  exact execAll_hfin_sred he h

/-- The challenge, from `R` at `Sg`, the public key and the message. -/
theorem execAll_challenge {pk : Addr} (he : s.err = false) (hsg : sg.toNat + 32 ≤ s.params.dmemSize)
    (hpk : pk.toNat + 32 ≤ s.params.dmemSize) (h : addr.toNat + 64 ≤ s.params.dmemSize) :
    ∃ v : State, execAll [.hinit, .hupd sg, .hupd pk, .hupdm, .hfin addr, .sred sd addr] s = .next v ∧
      HashedTo sd addr (s.dmemRead sg 32 ++ s.dmemRead pk 32 ++ s.message) s v := by
  rw [execAll_cons (execHinit_setHbuf he), execAll_cons (execHupd_setHbuf he hsg),
    execAll_cons (execHupd_setHbuf he hpk), execAll_cons (execHupdm_setHbuf he)]
  exact execAll_hfin_sred he h

end Hashing

/-! ### The two points where a signature is written (44_pipeline R182 steps 3, 5) -/

section Signing

variable {s : State} {sg : Addr} {a r k : BitVec 256}

/-- PSMULB, PENC: a multiple of the base point, encoded. -/
theorem execAll_encodedMultiple {sk : SReg} (he : s.err = false) (hr : s.s.get sk.toFin = .valid r)
    (hsg : sg.toNat + 32 ≤ s.params.dmemSize) :
    execAll [.psmulb 0 sk, .penc 0 sg] s =
      .next ((s.setP 0 (.valid (ptMul r basePoint))).dmemWrite sg (ptEnc (ptMul r basePoint))) := by
  rw [execAll_cons (execPsmulb_of_valid he hr)]
  exact execAll_singleton (execPenc_of_le (s := s.setP 0 _) he
    ((State.setP_get s 0 0 _).trans (if_pos rfl)) hsg)

/-- SMUL, SADD, SST: the response. -/
theorem execAll_response (he : s.err = false) (ha : s.s.get (0 : SReg).toFin = .valid a)
    (hr : s.s.get (1 : SReg).toFin = .valid r) (hk : s.s.get (2 : SReg).toFin = .valid k)
    (hsg : sg.toNat + 32 ≤ s.params.dmemSize) :
    execAll [.smul 3 2 0, .sadd 3 3 1, .sst 3 sg] s =
      .next (((s.setS 3 (sMul k a)).setS 3 (sAdd (sMul k a) r)).dmemWrite sg
        (scalarBytes (sAdd (sMul k a) r))) := by
  rw [execAll_cons (execSmul_of_valid he hk ha),
    execAll_cons (execSadd_of_valid (s := s.setS 3 _) he ((State.setS_get s 3 3 _).trans (if_pos rfl))
      ((State.setS_get s 3 1 _).trans hr))]
  exact execAll_singleton (execSst_of_le (s := (s.setS 3 _).setS 3 _) he
    ((State.setS_get _ 3 3 _).trans (if_pos rfl)) hsg)

end Signing

/-- The message does not change with the settings. -/
theorem message_of_sameSettings {s t : State} (h : sameSettings s t) : t.message = s.message := by
  obtain ⟨hmlen, -, -, -, hmsg, -, -, -, -, hepoch⟩ := h
  exact State.message_congr hmsg hepoch hmlen

theorem params_of_sameSettings {s t : State} (h : sameSettings s t) : t.params = s.params := by
  obtain ⟨-, -, -, -, -, -, hparams, -⟩ := h
  exact hparams

theorem rangesDisjoint_comm {a b : Addr} {n m : Nat} (h : rangesDisjoint a n b m) :
    rangesDisjoint b m a n := Or.symm h

/-- The response of the sequence, `(k·a mod L) + r` modulo `L`, is that of signing. -/
theorem sAdd_sMul_eq_scRed (a r k : BitVec 256) :
    sAdd (sMul k a) r = scRed (r.toNat + k.toNat * a.toNat) := by
  apply BitVec.eq_of_toNat_eq
  rw [toNat_sAdd, toNat_sMul, toNat_scRed, Nat.mod_add_mod, Nat.add_comm]

/-- KEYEXP, the nonce and the commitment leave the two scalars in `s0` and `s1` and `R` at `Sg`, and keep
the public key and the settings (R182 steps 1 to 3). -/
theorem execAll_commitment {s : State} {h h2 sg : Addr} (he : s.err = false)
    (hsk : s.skptr.toNat + 32 ≤ s.params.dmemSize) (hh : h.toNat + 64 ≤ s.params.dmemSize)
    (hh2 : h2.toNat + 32 ≤ s.params.dmemSize) (hsg : sg.toNat + 32 ≤ s.params.dmemSize)
    (hhpk : rangesDisjoint h 64 s.pkptr 32) (hh2pk : rangesDisjoint h2 32 s.pkptr 32)
    (hsgpk : rangesDisjoint sg 32 s.pkptr 32) {a r : BitVec 256} {b : List Byte}
    (hab : expandKey Config.hash512 (s.dmemRead s.skptr 32) = (a, b))
    (hr : hashScalar Config.hash512 (b ++ s.message) = r) :
    ∃ u : State,
      execAll [.keyexp 0 h2, .hinit, .hupd h2, .hupdm, .hfin h, .sred 1 h, .psmulb 0 1, .penc 0 sg] s =
        .next u ∧
      u.err = false ∧ sameSettings s u ∧ u.s.get (0 : SReg).toFin = .valid a ∧
      u.s.get (1 : SReg).toFin = .valid r ∧ u.dmemRead sg 32 = ptEnc (ptMul r basePoint) ∧
      u.dmemRead s.pkptr 32 = s.dmemRead s.pkptr 32 := by
  have hblen : b.length = 32 := by
    have hlen := expandKey_length Config.hash512 (s.dmemRead s.skptr 32)
    rwa [hab] at hlen
  have hkeyexp := execKeyexp_of_le (sd := 0) he hsk hh2
  rw [hab] at hkeyexp
  obtain ⟨v, hnonce, hv⟩ := execAll_nonce (s := (s.setS 0 a).dmemWrite h2 b) (sd := 1) he hh2 hh
  have hvr := hv.scalar
  rw [State.dmemRead_dmemWrite_of_length hblen, State.dmemWrite_message, State.setS_message, hr] at hvr
  have hva : v.s.get (0 : SReg).toFin = .valid a := by
    rw [hv.others 0 (by decide), State.dmemWrite_s, State.setS_get, if_pos rfl]
  have hvpk : v.dmemRead s.pkptr 32 = s.dmemRead s.pkptr 32 := by
    rw [hv.dmem _ _ (rangesDisjoint_comm hhpk),
      State.dmemRead_dmemWrite_of_disjoint (rangesDisjoint_comm hh2pk) hblen, State.setS_dmemRead]
  have hvs : sameSettings s v := hv.settings
  have hcommit := execAll_encodedMultiple (sg := sg) hv.err hvr
    (by rwa [params_of_sameSettings hvs])
  refine ⟨_, (execAll_cons hkeyexp).trans ((execAll_append hnonce).trans hcommit), by simpa using hv.err,
    by simpa using hvs, by simpa using hva, by simpa using hvr,
    State.dmemRead_dmemWrite_of_length (ptEnc_length _), ?_⟩
  rw [State.dmemRead_dmemWrite_of_disjoint (rangesDisjoint_comm hsgpk) (ptEnc_length _),
    State.setP_dmemRead, hvpk]

/-- The challenge and the response complete the signature whose commitment stands at `Sg` (R182 steps 4
to 6). -/
theorem execAll_challenge_response {u : State} {h3 sg pk : Addr} (he : u.err = false)
    (hparams : u.params.wellFormed = true) (hpk : pk.toNat + 32 ≤ u.params.dmemSize)
    (hh3 : h3.toNat + 64 ≤ u.params.dmemSize) (hsg : sg.toNat + 64 ≤ u.params.dmemSize)
    (hh3sg : rangesDisjoint h3 64 sg 64) {a r k : BitVec 256}
    (ha : u.s.get (0 : SReg).toFin = .valid a) (hr : u.s.get (1 : SReg).toFin = .valid r)
    (hk : hashScalar Config.hash512 (u.dmemRead sg 32 ++ u.dmemRead pk 32 ++ u.message) = k) :
    ∃ t : State,
      execAll [.hinit, .hupd sg, .hupd pk, .hupdm, .hfin h3, .sred 2 h3, .smul 3 2 0, .sadd 3 3 1,
        .sst 3 (sg + 32)] u = .next t ∧
      t.err = false ∧ t.dmemRead sg 64 = u.dmemRead sg 32 ++ scalarBytes (sAdd (sMul k a) r) := by
  have hmid := toNat_add_32 hparams hsg
  obtain ⟨v, hchallenge, hv⟩ := execAll_challenge (s := u) (sd := 2) (sg := sg) he (by omega) hpk hh3
  have hresponse := execAll_response (sg := sg + 32) hv.err ((hv.others 0 (by decide)).trans ha)
    ((hv.others 1 (by decide)).trans hr) (hk ▸ hv.scalar)
    (by rw [hmid, params_of_sameSettings hv.settings]; omega)
  refine ⟨_, (execAll_append hchallenge).trans hresponse, by simpa using hv.err, ?_⟩
  have hapart : rangesDisjoint sg 32 h3 64 := by
    unfold rangesDisjoint at *
    omega
  have hbelow : rangesDisjoint sg 32 (sg + 32) 32 := .inl hmid.ge
  rw [State.dmemRead_add _ (m := 32) 32 hmid,
    State.dmemRead_dmemWrite_of_length (scalarBytes_length _),
    State.dmemRead_dmemWrite_of_disjoint hbelow (scalarBytes_length _), State.setS_dmemRead,
    State.setS_dmemRead, hv.dmem _ _ hapart]

/-- The sequence of SIGN leaves the signature at `Sg` (R189). -/
theorem execAll_signing {s : State} {h h2 h3 sg : Addr} (he : s.err = false)
    (hparams : s.params.wellFormed = true) (hsk : s.skptr.toNat + 32 ≤ s.params.dmemSize)
    (hpk : s.pkptr.toNat + 32 ≤ s.params.dmemSize) (hh : h.toNat + 64 ≤ s.params.dmemSize)
    (hh2 : h2.toNat + 32 ≤ s.params.dmemSize) (hh3 : h3.toNat + 64 ≤ s.params.dmemSize)
    (hsg : sg.toNat + 64 ≤ s.params.dmemSize) (hhpk : rangesDisjoint h 64 s.pkptr 32)
    (hh2pk : rangesDisjoint h2 32 s.pkptr 32) (hsgpk : rangesDisjoint sg 64 s.pkptr 32)
    (hh3sg : rangesDisjoint h3 64 sg 64) :
    ∃ t : State,
      execAll [.keyexp 0 h2, .hinit, .hupd h2, .hupdm, .hfin h, .sred 1 h, .psmulb 0 1, .penc 0 sg,
        .hinit, .hupd sg, .hupd s.pkptr, .hupdm, .hfin h3, .sred 2 h3, .smul 3 2 0, .sadd 3 3 1,
        .sst 3 (sg + 32)] s = .next t ∧
      t.err = false ∧ t.dmemRead sg 64 =
        signMsg Config.hash512 (s.dmemRead s.pkptr 32) (s.dmemRead s.skptr 32) s.message := by
  obtain ⟨⟨a, b⟩, hab⟩ : ∃ ab, expandKey Config.hash512 (s.dmemRead s.skptr 32) = ab := ⟨_, rfl⟩
  have hsgpk : rangesDisjoint sg 32 s.pkptr 32 := by
    unfold rangesDisjoint at *
    omega
  obtain ⟨u, hu, huerr, hus, hua, hur, huR, hupk⟩ := execAll_commitment he hsk hh hh2 (sg := sg)
    (by omega) hhpk hh2pk hsgpk hab rfl
  have hup := params_of_sameSettings hus
  obtain ⟨t, ht, hterr, htsig⟩ := execAll_challenge_response (u := u) huerr (hup ▸ hparams) (hup ▸ hpk)
    (hup ▸ hh3) (hup ▸ hsg) hh3sg hua hur rfl
  refine ⟨t, (execAll_append hu).trans ht, hterr, ?_⟩
  rw [htsig, huR, hupk, message_of_sameSettings hus, sAdd_sMul_eq_scRed, signMsg, hab]

/-- Settles O59: DERIVE and KEYEXP by the expansion of the key, SIGN by its sequence. -/
theorem pipelineCommandsEqualTheirSequences : Obligations.PipelineCommandsEqualTheirSequences := by
  refine ⟨fun s h he hparams hsk hpk hh => ?derive, fun s h h2 he hparams hsk hh hh2 => ?keyexp,
    fun s h h2 h3 sg he hparams hsk hpk hsgptr hh hh2 hh3 hsg hhpk hh2pk hsgpk hh3sg => ?sign⟩
  case derive =>
    obtain ⟨u, hu, huerr, huparams, hu0, -⟩ := execAll_expansion he hparams hsk hh
    have hend := execAll_encodedMultiple (sg := s.pkptr) huerr hu0 (huparams ▸ hpk)
    refine ⟨_, _, execDerive_of_le he hsk hpk, by simpa using he,
      (execAll_append hu).trans hend, by simpa using huerr, ?_⟩
    rw [State.dmemRead_dmemWrite_of_length (derivePub_length _ _),
      State.dmemRead_dmemWrite_of_length (ptEnc_length _), derivePub]
  case keyexp =>
    obtain ⟨u, hu, huerr, -, hu0, hhigh⟩ := execAll_expansion he hparams hsk hh
    refine ⟨_, u, execKeyexp_of_le he hsk hh2, by simpa using he, hu, huerr, ?_, ?_⟩
    · exact ((State.setS_get s 0 0 _).trans (if_pos rfl)).trans hu0.symm
    · rw [State.dmemRead_dmemWrite_nonceSeed, hhigh]
  case sign =>
    obtain ⟨u, hu, huerr, hsig⟩ := execAll_signing he hparams hsk hpk hh hh2 hh3 hsg hhpk hh2pk hsgpk
      hh3sg
    refine ⟨_, u, execSign_of_le he hsk hpk hsgptr, by simpa using he, hu, huerr, ?_⟩
    rw [State.dmemRead_dmemWrite_of_length (signMsg_length _ _ _ _), hsig]

end Sys2Proof.Machine
end
